-- ==== Sys2Proof/Word.lean ====
section
/-! DEFINITION. The word types: the spec's only widths are a byte, a 16-bit register, and a 64-bit command word
(00_scope.md R17; 10_state.md R110; 30_encoding.md R300). -/

namespace Sys2Proof

/-- A byte of the Transfer Buffer or of the wire. -/
abbrev Byte := BitVec 8

/-- A 16-bit host register (RESULT, COUNT), a length, a count or a column. -/
abbrev Half := BitVec 16

/-- A host command word (30_encoding.md R300). -/
abbrev CmdWord := BitVec 64

end Sys2Proof
end

