-- ==== Sys2Proof/Syntax.lean ====
section
/-! DEFINITION. The syntax: the host commands, one constructor per row of spec/opcode_table.json, and the assembler's
statements (30_encoding.md R303, R308, R330 to R333). -/

namespace Sys2Proof

/-- The lane width W (00_scope.md R13). -/
inductive LaneWidth where
  | x1 | x2 | x4
  deriving DecidableEq, Repr, Inhabited

/-- W as a number. -/
def LaneWidth.lanes : LaneWidth → Nat
  | .x1 => 1
  | .x2 => 2
  | .x4 => 4

/-- The host commands (30_encoding.md R303). An operand has exactly the width of its field (R302), so every term is
an instruction some command word spells. -/
inductive Instr where
  /-- SETCS a (40_line_driver.md R410). -/
  | setcs (a : Bool)
  /-- PULSEW x1, v (41_bitbang_engine.md R461). -/
  | pulsewX1 (v : BitVec 1)
  /-- PULSEW x2, v (R461). -/
  | pulsewX2 (v : BitVec 2)
  /-- PULSEW x4, v (R461). -/
  | pulsewX4 (v : BitVec 4)
  /-- PULSER x1 (R471). -/
  | pulserX1
  /-- PULSER x2 (R471). -/
  | pulserX2
  /-- PULSER x4 (R471). -/
  | pulserX4
  /-- PULSEFD x1, v (R481). -/
  | pulsefdX1 (v : BitVec 1)
  /-- PULSEFD x2, v (R481). -/
  | pulsefdX2 (v : BitVec 2)
  /-- PULSEFD x4, v (R481). -/
  | pulsefdX4 (v : BitVec 4)
  /-- DUMMY n (R491). -/
  | dummy (n : BitVec 16)
  /-- SENDCMD b (42_lane_transfer.md R510). -/
  | sendcmd (b : Byte)
  /-- READBYTE (R520). -/
  | readbyte
  /-- READDUALBYTE (R521). -/
  | readdualbyte
  /-- READQUADBYTE (R522). -/
  | readquadbyte
  /-- READBYTES l (R540). -/
  | readbytes (l : BitVec 16)
  /-- READDUALBYTES l (R541). -/
  | readdualbytes (l : BitVec 16)
  /-- READQUADBYTES l (R542). -/
  | readquadbytes (l : BitVec 16)
  /-- IDENTIFY (43_nand_protocol.md R601). -/
  | identify
  /-- LOADPAGE row (R611). -/
  | loadpage (row : BitVec 24)
  /-- QREAD col, l (R621). -/
  | qread (col : BitVec 16) (l : BitVec 16)
  deriving DecidableEq, Repr, Inhabited

/-- An assembler statement as it is written, operands not yet checked against their fields (30_encoding.md R330), and
the pseudo-instructions (R331 to R333). -/
inductive Stmt where
  | setcs (a : Nat)
  | pulsew (w : LaneWidth) (v : Nat)
  | pulser (w : LaneWidth)
  | pulsefd (w : LaneWidth) (v : Nat)
  | dummy (n : Nat)
  | sendcmd (b : Nat)
  | readbyte
  | readdualbyte
  | readquadbyte
  | readbytes (l : Nat)
  | readdualbytes (l : Nat)
  | readquadbytes (l : Nat)
  | identify
  | loadpage (row : Nat)
  | qread (col : Nat) (l : Nat)
  | sendaddr24 (a : Nat)
  | sendaddr16 (c : Nat)
  | rawidentify
  | pageread (row : Nat)
  deriving DecidableEq, Repr, Inhabited

end Sys2Proof
end

