-- ==== Sys2Proof/WellFormed.lean ====
section
/-! DEFINITION. When an assembler statement is well formed: every operand fits its field ("refuses any operand that
does not fit its field", 30_encoding.md R330; the field widths are those of R302 and R331). An `Instr` needs no check:
its operands have their fields' widths. -/

namespace Sys2Proof

/-- `v` fits a field of `w` bits. -/
def fitsField (w v : Nat) : Bool := decide (v < 2 ^ w)

/-- Every operand of the statement fits its field (30_encoding.md R302, R330, R331, R333). -/
def Stmt.wellFormed : Stmt → Bool
  | .setcs a => fitsField 1 a
  | .pulsew w v => fitsField w.lanes v
  | .pulser _ => true
  | .pulsefd w v => fitsField w.lanes v
  | .dummy n => fitsField 16 n
  | .sendcmd b => fitsField 8 b
  | .readbyte => true
  | .readdualbyte => true
  | .readquadbyte => true
  | .readbytes l => fitsField 16 l
  | .readdualbytes l => fitsField 16 l
  | .readquadbytes l => fitsField 16 l
  | .identify => true
  | .loadpage row => fitsField 24 row
  | .qread col l => fitsField 16 col && fitsField 16 l
  | .sendaddr24 a => fitsField 24 a
  | .sendaddr16 c => fitsField 16 c
  | .rawidentify => true
  | .pageread row => fitsField 24 row

end Sys2Proof
end

