-- ==== Sys2Proof/Decode.lean ====
section
/-! DEFINITION. The command word: its fields, the opcode table, the decoder (total; it rejects an illegal word by the
name of its cause) and, after it, the encoder (30_encoding.md R301 to R308; 60_exceptions.md R700). -/

namespace Sys2Proof

/-! ### Fields of the command word (30_encoding.md R301) -/

/-- OP, bits 63:56. -/
def fieldOp (w : CmdWord) : BitVec 8 := w.extractLsb' 56 8
/-- WC, bits 55:54. -/
def fieldWc (w : CmdWord) : BitVec 2 := w.extractLsb' 54 2
/-- RSV, bits 53:48, must be zero (R305). -/
def fieldRsv (w : CmdWord) : BitVec 6 := w.extractLsb' 48 6
/-- LEN, bits 47:32. -/
def fieldLen (w : CmdWord) : BitVec 16 := w.extractLsb' 32 16
/-- ARG, bits 31:0. -/
def fieldArg (w : CmdWord) : BitVec 32 := w.extractLsb' 0 32

/-- ARG[hi-1:0], an operand at the low end of ARG (R302). -/
def argLow (n : Nat) (w : CmdWord) : BitVec n := (fieldArg w).setWidth n

/-! ### The opcode table -/

/-- A row: a word `w` spells this command exactly when `w &&& mask = fixed` (R304), and then `build w` is the command
with its operands. -/
structure Row where
  mnemonic : String
  mask : CmdWord
  fixed : CmdWord
  build : CmdWord → Instr

/-- The word matches the row (R304). -/
def Row.hits (r : Row) (w : CmdWord) : Bool := w &&& r.mask == r.fixed

/-- The rows of the Line Driver and the Bit-Bang Engine (spec/opcode_table.json, R308). -/
def rowsOfPulses : List Row :=
  [ ⟨"SETCS",      0xFFFFFFFFFFFFFFFE, 0x0100000000000000, fun w => .setcs ((fieldArg w).getLsbD 0)⟩,
    ⟨"PULSEW.X1",  0xFFFFFFFFFFFFFFFE, 0x0200000000000000, fun w => .pulsewX1 (argLow 1 w)⟩,
    ⟨"PULSEW.X2",  0xFFFFFFFFFFFFFFFC, 0x0240000000000000, fun w => .pulsewX2 (argLow 2 w)⟩,
    ⟨"PULSEW.X4",  0xFFFFFFFFFFFFFFF0, 0x0280000000000000, fun w => .pulsewX4 (argLow 4 w)⟩,
    ⟨"PULSER.X1",  0xFFFFFFFFFFFFFFFF, 0x0300000000000000, fun _ => .pulserX1⟩,
    ⟨"PULSER.X2",  0xFFFFFFFFFFFFFFFF, 0x0340000000000000, fun _ => .pulserX2⟩,
    ⟨"PULSER.X4",  0xFFFFFFFFFFFFFFFF, 0x0380000000000000, fun _ => .pulserX4⟩,
    ⟨"PULSEFD.X1", 0xFFFFFFFFFFFFFFFE, 0x0400000000000000, fun w => .pulsefdX1 (argLow 1 w)⟩,
    ⟨"PULSEFD.X2", 0xFFFFFFFFFFFFFFFC, 0x0440000000000000, fun w => .pulsefdX2 (argLow 2 w)⟩,
    ⟨"PULSEFD.X4", 0xFFFFFFFFFFFFFFF0, 0x0480000000000000, fun w => .pulsefdX4 (argLow 4 w)⟩,
    ⟨"DUMMY",      0xFFFF0000FFFFFFFF, 0x0500000000000000, fun w => .dummy (fieldLen w)⟩ ]

/-- The rows of the Lane Transfer Layer (R308). -/
def rowsOfTransfers : List Row :=
  [ ⟨"SENDCMD",       0xFFFFFFFFFFFFFF00, 0x1000000000000000, fun w => .sendcmd (argLow 8 w)⟩,
    ⟨"READBYTE",      0xFFFFFFFFFFFFFFFF, 0x1100000000000000, fun _ => .readbyte⟩,
    ⟨"READDUALBYTE",  0xFFFFFFFFFFFFFFFF, 0x1140000000000000, fun _ => .readdualbyte⟩,
    ⟨"READQUADBYTE",  0xFFFFFFFFFFFFFFFF, 0x1180000000000000, fun _ => .readquadbyte⟩,
    ⟨"READBYTES",     0xFFFF0000FFFFFFFF, 0x1200000000000000, fun w => .readbytes (fieldLen w)⟩,
    ⟨"READDUALBYTES", 0xFFFF0000FFFFFFFF, 0x1240000000000000, fun w => .readdualbytes (fieldLen w)⟩,
    ⟨"READQUADBYTES", 0xFFFF0000FFFFFFFF, 0x1280000000000000, fun w => .readquadbytes (fieldLen w)⟩ ]

/-- The rows of the NAND Command Protocol (R308). -/
def rowsOfFrames : List Row :=
  [ ⟨"IDENTIFY", 0xFFFFFFFFFFFFFFFF, 0x2000000000000000, fun _ => .identify⟩,
    ⟨"LOADPAGE", 0xFFFFFFFFFF000000, 0x2100000000000000, fun w => .loadpage (argLow 24 w)⟩,
    ⟨"QREAD",    0xFFFF0000FFFF0000, 0x2200000000000000, fun w => .qread (argLow 16 w) (fieldLen w)⟩ ]

/-- spec/opcode_table.json, row by row. -/
def opcodeTable : List Row := rowsOfPulses ++ rowsOfTransfers ++ rowsOfFrames

/-! ### Illegal command words -/

/-- The cause of an illegal command word (60_exceptions.md R700). -/
inductive Cause where
  | unknownOp
  | reservedLaneWidth
  | reservedBitSet
  deriving DecidableEq, Repr, Inhabited

/-- OP is assigned (30_encoding.md R303). -/
def opAssigned (op : BitVec 8) : Bool :=
  op ∈ [0x01#8, 0x02#8, 0x03#8, 0x04#8, 0x05#8, 0x10#8, 0x11#8, 0x12#8, 0x20#8, 0x21#8, 0x22#8]

/-- OP takes a lane width (R306). -/
def opTakesWidth (op : BitVec 8) : Bool :=
  op ∈ [0x02#8, 0x03#8, 0x04#8, 0x11#8, 0x12#8]

/-- The cause of a word that matches no row: the first test of R306 that holds. -/
def illegalCause (w : CmdWord) : Cause :=
  if !opAssigned (fieldOp w) then .unknownOp
  else if opTakesWidth (fieldOp w) && fieldWc w == 3#2 then .reservedLaneWidth
  else .reservedBitSet

/-! ### The decoder -/

/-- The command a word spells, if it spells one (R304). -/
def spells (w : CmdWord) : Option Instr :=
  (opcodeTable.find? fun r => r.hits w).map fun r => r.build w

/-- The decoder: total on every command word, rejecting an illegal one by its cause (R304, R306). -/
def decode (w : CmdWord) : Except Cause Instr :=
  match spells w with
  | some i => .ok i
  | none => .error (illegalCause w)

/-- What the decoder reads from the opcode table's bits: a command is one 64-bit word, its bit 0 the least
significant (30_encoding.md R300), so the word is taken as it is, the bits above `nbits` zero. -/
def decodeTableWord (nbits w : Nat) : Option Instr :=
  spells (BitVec.ofNat 64 (w % 2 ^ nbits))

/-! ### The encoder -/

/-- A command word from its fields, RSV zero (30_encoding.md R301). -/
def cmdWord (op : BitVec 8) (wc : BitVec 2) (len : BitVec 16) (arg : BitVec 32) : CmdWord :=
  op ++ wc ++ 0#6 ++ len ++ arg

/-- The lane-width code WC (R301). -/
def wcOf : LaneWidth → BitVec 2
  | .x1 => 0
  | .x2 => 1
  | .x4 => 2

/-- The word of a command (R308), every bit outside its fields zero (R305). -/
def encode : Instr → CmdWord
  | .setcs a => cmdWord 0x01 0 0 ((BitVec.ofBool a).setWidth 32)
  | .pulsewX1 v => cmdWord 0x02 (wcOf .x1) 0 (v.setWidth 32)
  | .pulsewX2 v => cmdWord 0x02 (wcOf .x2) 0 (v.setWidth 32)
  | .pulsewX4 v => cmdWord 0x02 (wcOf .x4) 0 (v.setWidth 32)
  | .pulserX1 => cmdWord 0x03 (wcOf .x1) 0 0
  | .pulserX2 => cmdWord 0x03 (wcOf .x2) 0 0
  | .pulserX4 => cmdWord 0x03 (wcOf .x4) 0 0
  | .pulsefdX1 v => cmdWord 0x04 (wcOf .x1) 0 (v.setWidth 32)
  | .pulsefdX2 v => cmdWord 0x04 (wcOf .x2) 0 (v.setWidth 32)
  | .pulsefdX4 v => cmdWord 0x04 (wcOf .x4) 0 (v.setWidth 32)
  | .dummy n => cmdWord 0x05 0 n 0
  | .sendcmd b => cmdWord 0x10 0 0 (b.setWidth 32)
  | .readbyte => cmdWord 0x11 (wcOf .x1) 0 0
  | .readdualbyte => cmdWord 0x11 (wcOf .x2) 0 0
  | .readquadbyte => cmdWord 0x11 (wcOf .x4) 0 0
  | .readbytes l => cmdWord 0x12 (wcOf .x1) l 0
  | .readdualbytes l => cmdWord 0x12 (wcOf .x2) l 0
  | .readquadbytes l => cmdWord 0x12 (wcOf .x4) l 0
  | .identify => cmdWord 0x20 0 0 0
  | .loadpage row => cmdWord 0x21 0 0 (row.setWidth 32)
  | .qread col l => cmdWord 0x22 0 l (col.setWidth 32)

end Sys2Proof
end

