-- ==== Sys2Proof/Machine/Wire.lean ====
section
/-! DEFINITION. The vocabulary of the wire: the six lines, their modes and latches, and the events of the trace
(00_scope.md R16, R19; 10_state.md R100, R101, R120). -/

namespace Sys2Proof

/-- The six logical lines (00_scope.md R16). -/
inductive Line where
  | clk | cs | io0 | io1 | io2 | io3
  deriving DecidableEq, Repr, Inhabited

/-- The mode of a line (10_state.md R101): OUT, IN, IN_PU. -/
inductive Mode where
  | out | inp | inPu
  deriving DecidableEq, Repr, Inhabited

/-- One value for each of the six lines. -/
structure PerLine (α : Type) where
  clk : α
  cs  : α
  io0 : α
  io1 : α
  io2 : α
  io3 : α
  deriving DecidableEq, Repr, Inhabited

/-- One entry of the line-state file (10_state.md R101): the mode and the output latch. -/
structure LineState where
  mode : Mode
  lat  : Bool
  deriving DecidableEq, Repr, Inhabited

/-- The line-state file (10_state.md R100). -/
abbrev Lines := PerLine LineState

/-- The levels the outside presents at one instant. A sample reads those of the lines it samples
(00_scope.md R19). -/
abbrev Levels := PerLine Bool

/-- A bit for each line of a set: the lines in the order of `Line`, no line twice (00_scope.md R19). -/
abbrev LineBits := List (Line × Bool)

/-- A trace event (10_state.md R120). A set of lines is the list of its lines in the order of `Line`; the set of a
`DRV` or `SMP` event is the lines its bits name. A duration is in whole microseconds (log 9). -/
inductive Event where
  | dir (S : List Line) (m : Mode)
  | drv (v : LineBits)
  | smp (v : LineBits)
  | wait (t : Nat)
  | rst
  | env (S : List Line)
  deriving DecidableEq, Repr, Inhabited

/-- All lines, in order. -/
def Line.all : List Line := [.clk, .cs, .io0, .io1, .io2, .io3]

/-- The set DATA of 00_scope.md R16. -/
def Line.data : List Line := [.io0, .io1, .io2, .io3]

/-- The entry of one line. -/
def PerLine.get {α : Type} (p : PerLine α) : Line → α
  | .clk => p.clk
  | .cs  => p.cs
  | .io0 => p.io0
  | .io1 => p.io1
  | .io2 => p.io2
  | .io3 => p.io3

/-- The six entries, in line order. -/
def PerLine.toList {α : Type} (p : PerLine α) : List α := [p.clk, p.cs, p.io0, p.io1, p.io2, p.io3]

/-- Apply `f` to every entry. -/
def PerLine.mapWith {α β : Type} (f : Line → α → β) (p : PerLine α) : PerLine β :=
  { clk := f .clk p.clk, cs := f .cs p.cs, io0 := f .io0 p.io0, io1 := f .io1 p.io1, io2 := f .io2 p.io2,
    io3 := f .io3 p.io3 }

/-- The modes of the lines of `S` become `m` (`SetDir`, 00_scope.md R19). -/
def PerLine.setModes (S : List Line) (m : Mode) (ls : Lines) : Lines :=
  ls.mapWith fun l e => if l ∈ S then { e with mode := m } else e

/-- The bit of a line, if the bits name it. -/
def bitOf : LineBits → Line → Option Bool
  | [], _ => none
  | (k, b) :: v, l => if l = k then some b else bitOf v l

/-- The latches of the lines that `v` names become its bits (`Drive`, 00_scope.md R19). -/
def PerLine.setLats (v : LineBits) (ls : Lines) : Lines :=
  ls.mapWith fun l e => match bitOf v l with
    | some b => { e with lat := b }
    | none => e

/-- The levels of the lines of `S`, as a `SMP` event records them. -/
def PerLine.restrict (S : List Line) (lv : Levels) : LineBits :=
  S.map fun l => (l, lv.get l)

/-- The level on the wire (10_state.md R102): the latch of a line in mode OUT, and otherwise the level from outside
the core. -/
def Line.wireLevel (l : Line) (ls : Lines) (outside : Levels) : Bool :=
  if (ls.get l).mode = .out then (ls.get l).lat else outside.get l

end Sys2Proof
end

