-- ==== Sys2Proof/Config.lean ====
section
/-! DEFINITION. The implementation parameters (00_scope.md R7 to R12) and the free values. -/

namespace Sys2Proof

/-- The parameters the source leaves to the configuration. No command writes one (10_state.md R132). Sizes are in
bytes, durations in whole microseconds (log 9). -/
structure Config where
  /-- BUF_CAP, written C (00_scope.md R7). -/
  bufCap : Nat
  /-- T_BIT, the bit delay (R8). -/
  tBit : Nat
  /-- T_LOAD, the settle interval after the Load Page To Cache frame (R9). -/
  tLoad : Nat
  /-- PIN_MAP, the physical identifier of each line (R10). No rule depends on it. -/
  pinMap : PerLine Nat
  /-- PAGE_SIZE, written P (R11). -/
  pageSize : Nat
  /-- PAGES_PER_BLOCK (R11); no effect on any rule. -/
  pagesPerBlock : Nat
  /-- TOTAL_BLOCKS (R11); no effect on any rule. -/
  totalBlocks : Nat
  /-- SPARE_SIZE (R11); no effect on any rule. -/
  spareSize : Nat
  /-- SHARED_LINES: which lines another peripheral also uses (R12). -/
  shared : PerLine Bool
  deriving DecidableEq, Repr, Inhabited

/-- The constraints of 00_scope.md R7, R9, R10 and R11. -/
def Config.legal (c : Config) : Bool :=
  decide (1 ≤ c.bufCap) && decide (c.bufCap ≤ 65535) &&
  decide (10 ≤ c.tLoad) && decide (c.tLoad < 100) &&
  decide c.pinMap.toList.Nodup &&
  decide (1 ≤ c.pageSize) && decide (c.pageSize ≤ 65536)

/-- Free value (log 1): the parameters of the block at hand, before the constraints are imposed. -/
opaque Config.raw : Config

/-- A legal configuration with the spec's worked scenario, C = 256 and P = 2048 (95_test_vectors.md S6), and no
shared line. Tests use it; `Config.board` falls to it only where `Config.raw` breaks a constraint. -/
def Config.scenario : Config where
  bufCap := 256
  tBit := 1
  tLoad := 50
  pinMap := { clk := 0, cs := 1, io0 := 2, io1 := 3, io2 := 4, io3 := 5 }
  pageSize := 2048
  pagesPerBlock := 64
  totalBlocks := 1024
  spareSize := 64
  shared := { clk := false, cs := false, io0 := false, io1 := false, io2 := false, io3 := false }

/-- The configuration of the block at hand: any legal one. Nothing can be proved of it but that it is legal
(log 1). -/
def Config.board : Config := if Config.raw.legal then Config.raw else Config.scenario

/-- Free value (10_state.md R121, log 2): the sample oracle. It sees the trace before the `SMP` event and the set of
lines, and may answer any levels. -/
opaque Config.sampleOracle : List Event → List Line → Levels

/-- Free value (20_memory.md R205, log 7): what the host's `n`-th read returns at a buffer index `i` that is not in
the buffer. -/
opaque Config.freeByte : Nat → Nat → Byte

end Sys2Proof
end

