-- ==== Sys2Proof/Machine/State.lean ====
section
/-! DEFINITION. The state of the core (10_state.md), the inputs that wait for it, the reasons to stop, and the state
right after the power-on reset (70_reset_and_hazards.md R803). -/

namespace Sys2Proof.Machine

open Sys2Proof

/-- The Transfer Buffer's bytes that hold a value (20_memory.md R200, R204): index and byte, indices strictly rising.
An index not listed holds no value. -/
abbrev Memory := List Host.Cell

/-- The host registers, named and not addressed (10_state.md R110). -/
inductive HostReg where
  | result | count | status | badcmd
  deriving DecidableEq, Repr, Inhabited

/-- What the host or the environment does to the core (60_exceptions.md R731, R740; 70_reset_and_hazards.md R801). -/
inductive Request where
  /-- The host issues a command word and waits for its completion. -/
  | command (w : CmdWord)
  /-- The host issues a command word and asserts reset while the command is in progress, `k` actions after its start
  (log 5). -/
  | commandThenReset (w : CmdWord) (k : Nat)
  /-- The host reads a host register. -/
  | readReg (r : HostReg)
  /-- The host reads buffer byte `i`. -/
  | readBuf (i : Nat)
  /-- The host writes buffer byte `i`. -/
  | writeBuf (i : Nat) (v : Byte)
  /-- The host asserts reset while the core is idle. -/
  | reset
  /-- Another peripheral sets the mode and latch of lines (R740); `none` leaves a line as it is. -/
  | env (set : PerLine (Option LineState))
  deriving DecidableEq, Repr, Inhabited

/-- What the host gets (60_exceptions.md R731, last column). -/
inductive Reply where
  /-- A command has completed. -/
  | completed
  /-- The value of RESULT. -/
  | result (v : Half)
  /-- The value of COUNT. -/
  | count (v : Half)
  /-- The value of STATUS. -/
  | status (v : BitVec 8)
  /-- The value of BADCMD. -/
  | badcmd (v : CmdWord)
  /-- The value of buffer byte `i`. -/
  | byte (i : Nat) (v : Byte)
  deriving DecidableEq, Repr, Inhabited

/-- The machine. The first block is the spec's state; the second is the model's own: the configuration, which no step
changes (10_state.md R132, log 1), and the inputs and outputs at the core's edge (log 2 to log 5). -/
structure State where
  /-- The line-state file (R100). -/
  lines : Lines
  /-- RESULT (R111). -/
  result : Half
  /-- COUNT (R112). -/
  count : Half
  /-- STATUS (R113). -/
  status : BitVec 8
  /-- BADCMD (R114). -/
  badcmd : CmdWord
  /-- The Transfer Buffer (20_memory.md R200). -/
  buf : Memory
  /-- The trace, oldest event first (R120). -/
  trace : List Event
  /-- The configuration. -/
  cfg : Config
  /-- Requests not yet served, oldest first. -/
  inbox : List Request
  /-- The levels presented to the next samples, oldest first; after them the oracle answers. -/
  answers : List Levels
  /-- What the host has got, oldest first. -/
  replies : List Reply
  /-- If a reset is to cut the command in progress: how many more actions the command performs before it. -/
  resetAfter : Option Nat
  deriving DecidableEq, Repr

/-- Why the machine stops with a fault. -/
inductive Fault where
  /-- Raised by the host's read of a buffer byte that holds no value, and by nothing else (20_memory.md R204: "A model
  faults on it"). Safe: the hardware goes on with an unspecified value. -/
  | bufferByteHoldsNoValue
  deriving DecidableEq, Repr, Inhabited

/-- Why the model gives no meaning. -/
inductive Refusal where
  /-- An arm of `exec` that has no meaning yet; no arm is one. Safe: the model stops where the hardware goes on. -/
  | notModelled (mnemonic : String)
  deriving DecidableEq, Repr, Inhabited

/-- The line-state file after reset (10_state.md R140; 70_reset_and_hazards.md R800). -/
def resetLines : Lines where
  clk := { mode := .out, lat := false }
  cs  := { mode := .out, lat := true }
  io0 := { mode := .inPu, lat := true }
  io1 := { mode := .inPu, lat := true }
  io2 := { mode := .inPu, lat := true }
  io3 := { mode := .inPu, lat := true }

/-- The machine right after the power-on reset (10_state.md R140; 70_reset_and_hazards.md R803): `RST` is the trace's
one event and no buffer byte holds a value. -/
def State.reset : State where
  lines := resetLines
  result := 0x0000
  count := 0x0000
  status := 0x00
  badcmd := 0x0000000000000000
  buf := []
  trace := [.rst]
  cfg := Config.board
  inbox := []
  answers := []
  replies := []
  resetAfter := none

end Sys2Proof.Machine
end

