-- ==== Sys2Proof/Machine/Flags.lean ====
section
/-! DEFINITION. STATUS, the one flag register (10_state.md R113, R131), and the cause codes (60_exceptions.md R700). -/

namespace Sys2Proof.Machine

open Sys2Proof

/-- The code of a cause (60_exceptions.md R700). -/
def causeCode : Cause → BitVec 3
  | .unknownOp => 1
  | .reservedLaneWidth => 2
  | .reservedBitSet => 3

/-- STATUS.ERR, bit 0. -/
def statusErr (st : BitVec 8) : Bool := st.getLsbD 0

/-- STATUS.CAUSE, bits 3:1. -/
def statusCause (st : BitVec 8) : BitVec 3 := st.extractLsb' 1 3

/-- STATUS bits 7:4, reserved: they read as 0. -/
def statusReserved (st : BitVec 8) : BitVec 4 := st.extractLsb' 4 4

/-- STATUS from its fields, the reserved bits hardwired to 0. -/
def packStatus (err : Bool) (cause : BitVec 3) : BitVec 8 :=
  0#4 ++ cause ++ BitVec.ofBool err

end Sys2Proof.Machine
end

