-- ==== Sys2Proof/Machine/Ops.lean ====
section
/-! DEFINITION. The named operations over the machine's state: the Transfer Buffer, the wire primitives, the host
registers, the one exception and reset. -/

namespace Sys2Proof.Machine

open Sys2Proof

/-! ### The Transfer Buffer (20_memory.md R200 to R206) -/

/-- What a byte nothing has written holds: no value (20_memory.md R204, log 6). -/
def unlistedByte : Option Byte := none

/-- The byte at an index, if it holds a value. -/
def Memory.read : Memory → Nat → Option Byte
  | [], _ => unlistedByte
  | (a, v) :: m, i => if i = a then some v else Memory.read m i

/-- `MemWrite(i, 1, v)` (00_scope.md R18): byte `i` holds `v`; the entries stay in rising order. -/
def Memory.write : Memory → Nat → Byte → Memory
  | [], i, v => [(i, v)]
  | (a, b) :: m, i, v =>
    if i < a then (i, v) :: (a, b) :: m
    else if i = a then (i, v) :: m
    else (a, b) :: Memory.write m i v

/-- The canonical form: indices strictly rising, and no entry equal to what an unlisted index holds. -/
def Memory.wf (m : Memory) : Bool :=
  decide ((m.map Prod.fst).Pairwise (· < ·)) && m.all fun c => some c.2 != unlistedByte

/-- Every byte that holds a value is in the buffer: its index is below C (20_memory.md R206). -/
def Memory.within (m : Memory) (C : Nat) : Bool := m.all fun c => decide (c.1 < C)

/-! ### Actions

An action is an event of the trace or a command's write of a buffer byte. A reset may cut a command after any number
of them (70_reset_and_hazards.md R801): from then on an action does nothing. -/

/-- Perform one action, unless a reset has cut the command. -/
def act (f : State → State) (s : State) : State :=
  match s.resetAfter with
  | none => f s
  | some 0 => s
  | some (k + 1) => f { s with resetAfter := some k }

/-- Append an event to the trace (10_state.md R120). -/
def emit (e : Event) (s : State) : State := { s with trace := s.trace ++ [e] }

/-- `SetDir(S, m)` (00_scope.md R19). -/
def setDir (S : List Line) (m : Mode) : State → State :=
  act fun s => emit (.dir S m) { s with lines := s.lines.setModes S m }

/-- `Drive(S, v)` (R19). -/
def drive (v : LineBits) : State → State :=
  act fun s => emit (.drv v) { s with lines := s.lines.setLats v }

/-- `Delay(t)` (R19; 60_exceptions.md R750). -/
def delay (t : Nat) : State → State :=
  act (emit (.wait t))

/-- The levels the outside presents to a sample of `S` now (10_state.md R121, log 2). -/
def presented (S : List Line) (s : State) : Levels :=
  match s.answers with
  | lv :: _ => lv
  | [] => Config.sampleOracle s.trace S

/-- The effect of `Sample(S)` (R19): it changes no line. -/
def sampleAction (S : List Line) : State → State :=
  act fun s => emit (.smp ((presented S s).restrict S)) { s with answers := s.answers.tail }

/-- `v <- Sample(S)` (R19). The caller uses the levels of the lines of `S` only. -/
def sample (S : List Line) (s : State) : Levels × State :=
  (presented S s, sampleAction S s)

/-- `MemWrite(i, 1, v)` by a command (00_scope.md R18, 20_memory.md R202). -/
def memWrite (i : Nat) (v : Byte) : State → State :=
  act fun s => { s with buf := s.buf.write i v }

/-! ### Host registers (10_state.md R110 to R114)

A command writes its host register at its end; one that a reset cuts does not (70_reset_and_hazards.md R801). -/

/-- `RESULT <- v` (R111). -/
def writeResult (v : Half) (s : State) : State :=
  match s.resetAfter with
  | none => { s with result := v }
  | some _ => s

/-- `COUNT <- v` (R112). -/
def writeCount (v : Half) (s : State) : State :=
  match s.resetAfter with
  | none => { s with count := v }
  | some _ => s

/-! ### The exception and reset -/

/-- `raise IllegalCommand(c, w)` (60_exceptions.md R710). The core has no vector, no saved state and no return
(R713, R714). -/
def raiseIllegal (c : Cause) (w : CmdWord) (s : State) : State :=
  { s with status := packStatus true (causeCode c), badcmd := w }

/-- Reset (70_reset_and_hazards.md R800): the buffer keeps its bytes, the trace gains `RST`. The inputs and what the
host has got are not the core's, and stay. -/
def applyReset (s : State) : State :=
  { s with lines := resetLines, result := 0x0000, count := 0x0000, status := 0x00, badcmd := 0x0000000000000000,
           trace := s.trace ++ [.rst], resetAfter := none }

end Sys2Proof.Machine
end

