-- ==== Sys2Proof/Machine/Operands.lean ====
section
/-! DEFINITION. The operand forms: lane sets, the lane-to-bit map, assembly of received bits, clamped lengths and the
bytes of addresses (30_encoding.md R302; 41_bitbang_engine.md R450, R452; 42_lane_transfer.md R501 to R505). -/

namespace Sys2Proof.Machine

open Sys2Proof

/-- WS(W): the lines a write pulse drives (41_bitbang_engine.md R450). -/
def writeSet : LaneWidth → List Line
  | .x1 => [.io0]
  | .x2 => [.io0, .io1]
  | .x4 => [.io0, .io1, .io2, .io3]

/-- RS(W): the lines a read pulse samples (R450). -/
def readSet : LaneWidth → List Line
  | .x1 => [.io1]
  | .x2 => [.io0, .io1]
  | .x4 => [.io0, .io1, .io2, .io3]

/-- WS(W) ∪ RS(W) (R480). -/
def activeSet : LaneWidth → List Line
  | .x1 => [.io0, .io1]
  | .x2 => [.io0, .io1]
  | .x4 => [.io0, .io1, .io2, .io3]

/-- `map(W, v)`: each line of WS(W) with its bit of the pulse value (R452). A pulse value of any width is held in a
nibble, the bits from W up unused. -/
def laneMap (w : LaneWidth) (v : BitVec 4) : LineBits :=
  match w with
  | .x1 => [(.io0, v.getLsbD 0)]
  | .x2 => [(.io0, v.getLsbD 0), (.io1, v.getLsbD 1)]
  | .x4 => [(.io0, v.getLsbD 0), (.io1, v.getLsbD 1), (.io2, v.getLsbD 2), (.io3, v.getLsbD 3)]

/-- A nibble from its bits, the high bit first. -/
def nibble (b3 b2 b1 b0 : Bool) : BitVec 4 :=
  BitVec.ofBool b3 ++ BitVec.ofBool b2 ++ BitVec.ofBool b1 ++ BitVec.ofBool b0

/-- `unmap(W, s)`: the W-bit pulse value of the sampled levels of RS(W), zero-extended to a nibble (R452). -/
def unmap (w : LaneWidth) (lv : Levels) : BitVec 4 :=
  match w with
  | .x1 => nibble false false false lv.io1
  | .x2 => nibble false false lv.io1 lv.io0
  | .x4 => nibble lv.io3 lv.io2 lv.io1 lv.io0

/-- `r[k] <- b` on a byte (42_lane_transfer.md R501). -/
def setBit (r : Byte) (k : Nat) (b : Bool) : Byte :=
  (r &&& ~~~(1#8 <<< k)) ||| ((BitVec.ofBool b).setWidth 8 <<< k)

/-- `((r << 2) | p)[7:0]` (R502). -/
def shiftPair (r : Byte) (p : BitVec 4) : Byte := (r <<< 2) ||| p.setWidth 8

/-- `{hi, lo}` of two nibbles (R503). -/
def joinNibbles (hi lo : BitVec 4) : Byte := hi ++ lo

/-- `{b0, b1}` of two bytes, the first received in the high bits (43_nand_protocol.md R600; 20_memory.md R222). -/
def joinBytes (b0 b1 : Byte) : Half := b0 ++ b1

/-- n = min(L, C) (42_lane_transfer.md R505). -/
def clampLen (l : BitVec 16) (cfg : Config) : Nat := min l.toNat cfg.bufCap

/-- The bytes of a 24-bit row address, most significant first (20_memory.md R221). -/
def rowByte2 (row : BitVec 24) : Byte := row.extractLsb' 16 8
/-- row[15:8]. -/
def rowByte1 (row : BitVec 24) : Byte := row.extractLsb' 8 8
/-- row[7:0]. -/
def rowByte0 (row : BitVec 24) : Byte := row.extractLsb' 0 8
/-- col[15:8] (R221). -/
def colByte1 (col : BitVec 16) : Byte := col.extractLsb' 8 8
/-- col[7:0]. -/
def colByte0 (col : BitVec 16) : Byte := col.extractLsb' 0 8

/-- The device opcodes the sequencer sends (00_scope.md R15; 30_encoding.md R325). -/
def opReadId : Byte := 0x9F
/-- Page Read to Cache. -/
def opPageReadToCache : Byte := 0x13
/-- Fast Read Quad Output. -/
def opFastReadQuad : Byte := 0x6B

end Sys2Proof.Machine
end

