-- ==== Sys2Proof/Machine/BitBang.lean ====
section
/-! DEFINITION. The Bit-Bang Engine: the four pulses and their commands (41_bitbang_engine.md). -/

namespace Sys2Proof.Machine

open Sys2Proof

/-- `clockPulse()` (R453): rise, settle, fall, settle. It sets no mode. -/
def clockPulse (s : State) : State :=
  let s := drive [(.clk, true)] s
  let s := delay s.cfg.tBit s
  let s := drive [(.clk, false)] s
  delay s.cfg.tBit s

/-- `pulseWrite(W, v)` (R460). -/
def pulseWrite (w : LaneWidth) (v : BitVec 4) (s : State) : State :=
  let s := setDir (writeSet w) .out s
  let s := drive (laneMap w v) s
  clockPulse s

/-- `pulseRead(W)` (R470): the sample comes before the rising edge. -/
def pulseRead (w : LaneWidth) (s : State) : BitVec 4 × State :=
  let s := setDir (readSet w) .inp s
  let r := sample (readSet w) s
  (unmap w r.1, clockPulse r.2)

/-- `pulseFullDuplex(W, v)` (R480): the lines are released before the falling edge, and sampled right after it. -/
def pulseFullDuplex (w : LaneWidth) (v : BitVec 4) (s : State) : BitVec 4 × State :=
  let s := setDir (writeSet w) .out s
  let s := drive (laneMap w v) s
  let s := drive [(.clk, true)] s
  let s := delay s.cfg.tBit s
  let s := setDir (activeSet w) .inp s
  let s := drive [(.clk, false)] s
  let r := sample (readSet w) s
  (unmap w r.1, delay r.2.cfg.tBit r.2)

/-- `repeat N times: clockPulse()` (R490). -/
def clockPulses : Nat → State → State
  | 0, s => s
  | n + 1, s => clockPulses n (clockPulse s)

/-- `dummy(N)` (R490): the data lines are released once, also when N = 0. -/
def dummy (n : Nat) (s : State) : State :=
  clockPulses n (setDir Line.data .inPu s)

/-- PULSEW x1 (R461). -/
def execPulsewX1 (v : BitVec 1) (s : State) : Host.Outcome State Fault Refusal :=
  .next (pulseWrite .x1 (v.setWidth 4) s)

/-- PULSEW x2 (R461). -/
def execPulsewX2 (v : BitVec 2) (s : State) : Host.Outcome State Fault Refusal :=
  .next (pulseWrite .x2 (v.setWidth 4) s)

/-- PULSEW x4 (R461). -/
def execPulsewX4 (v : BitVec 4) (s : State) : Host.Outcome State Fault Refusal :=
  .next (pulseWrite .x4 v s)

/-- The result of a pulse goes to RESULT, zero-extended (R471, R481). -/
def pulseResult (r : BitVec 4 × State) : State := writeResult (r.1.setWidth 16) r.2

/-- PULSER x1 (R471). -/
def execPulserX1 (s : State) : Host.Outcome State Fault Refusal :=
  .next (pulseResult (pulseRead .x1 s))

/-- PULSER x2 (R471). -/
def execPulserX2 (s : State) : Host.Outcome State Fault Refusal :=
  .next (pulseResult (pulseRead .x2 s))

/-- PULSER x4 (R471). -/
def execPulserX4 (s : State) : Host.Outcome State Fault Refusal :=
  .next (pulseResult (pulseRead .x4 s))

/-- PULSEFD x1 (R481). -/
def execPulsefdX1 (v : BitVec 1) (s : State) : Host.Outcome State Fault Refusal :=
  .next (pulseResult (pulseFullDuplex .x1 (v.setWidth 4) s))

/-- PULSEFD x2 (R481). -/
def execPulsefdX2 (v : BitVec 2) (s : State) : Host.Outcome State Fault Refusal :=
  .next (pulseResult (pulseFullDuplex .x2 (v.setWidth 4) s))

/-- PULSEFD x4 (R481). -/
def execPulsefdX4 (v : BitVec 4) (s : State) : Host.Outcome State Fault Refusal :=
  .next (pulseResult (pulseFullDuplex .x4 v s))

/-- DUMMY (R491). -/
def execDummy (n : BitVec 16) (s : State) : Host.Outcome State Fault Refusal :=
  .next (dummy n.toNat s)

end Sys2Proof.Machine
end

