-- ==== Sys2Proof/Machine/LaneTransfer.lean ====
section
/-! DEFINITION. The Lane Transfer Layer: byte sends, byte reads and bulk reads (42_lane_transfer.md). -/

namespace Sys2Proof.Machine

open Sys2Proof

/-- Bits `k-1` down to 0 of `b`, one write pulse each (R500). -/
def sendBits (b : Byte) : Nat → State → State
  | 0, s => s
  | k + 1, s => sendBits b k (pulseWrite .x1 (nibble false false false (b.getLsbD k)) s)

/-- `sendByte(b)` (R500): MSB first on IO0. -/
def sendByte (b : Byte) (s : State) : State := sendBits b 8 s

/-- Bits `k-1` down to 0 of the byte received so far, one read pulse each (R501). -/
def rxBits : Nat → Byte → State → Byte × State
  | 0, r, s => (r, s)
  | k + 1, r, s =>
    let p := pulseRead .x1 s
    rxBits k (setBit r k (p.1.getLsbD 0)) p.2

/-- `rxByte1()` (R501): MSB first on IO1. -/
def rxByte1 (s : State) : Byte × State := rxBits 8 0 s

/-- `k` more pairs of the byte received so far (R502). -/
def rxPairs : Nat → Byte → State → Byte × State
  | 0, r, s => (r, s)
  | k + 1, r, s =>
    let p := pulseRead .x2 s
    rxPairs k (shiftPair r p.1) p.2

/-- `rxByte2()` (R502): MSB pair first on IO1 and IO0. -/
def rxByte2 (s : State) : Byte × State := rxPairs 4 0 s

/-- `rxByte4()` (R503): high nibble, then low nibble. -/
def rxByte4 (s : State) : Byte × State :=
  let hi := pulseRead .x4 s
  let lo := pulseRead .x4 hi.2
  (joinNibbles hi.1 lo.1, lo.2)

/-- `rxByte(W)` (R504). -/
def rxByte : LaneWidth → State → Byte × State
  | .x1 => rxByte1
  | .x2 => rxByte2
  | .x4 => rxByte4

/-- `n` bytes from buffer index `i` upward (the loop of R505). -/
def rxInto (w : LaneWidth) : Nat → Nat → State → State
  | 0, _, s => s
  | n + 1, i, s =>
    let b := rxByte w s
    rxInto w n (i + 1) (memWrite i b.1 b.2)

/-- `rxBulk(W, L)` (R505): min(L, C) bytes to buf[0] upward; the count. -/
def rxBulk (w : LaneWidth) (l : BitVec 16) (s : State) : Nat × State :=
  let n := clampLen l s.cfg
  (n, rxInto w n 0 s)

/-- SENDCMD (R510). -/
def execSendcmd (b : Byte) (s : State) : Host.Outcome State Fault Refusal :=
  .next (sendByte b s)

/-- A received byte goes to RESULT, zero-extended (R520 to R522). -/
def byteResult (r : Byte × State) : State := writeResult (r.1.setWidth 16) r.2

/-- READBYTE (R520). -/
def execReadbyte (s : State) : Host.Outcome State Fault Refusal :=
  .next (byteResult (rxByte1 s))

/-- READDUALBYTE (R521). -/
def execReaddualbyte (s : State) : Host.Outcome State Fault Refusal :=
  .next (byteResult (rxByte2 s))

/-- READQUADBYTE (R522). -/
def execReadquadbyte (s : State) : Host.Outcome State Fault Refusal :=
  .next (byteResult (rxByte4 s))

/-- The count of a bulk read goes to COUNT (R540 to R542; 43_nand_protocol.md R621). -/
def bulkCount (r : Nat × State) : State := writeCount (BitVec.ofNat 16 r.1) r.2

/-- READBYTES (R540). -/
def execReadbytes (l : BitVec 16) (s : State) : Host.Outcome State Fault Refusal :=
  .next (bulkCount (rxBulk .x1 l s))

/-- READDUALBYTES (R541). -/
def execReaddualbytes (l : BitVec 16) (s : State) : Host.Outcome State Fault Refusal :=
  .next (bulkCount (rxBulk .x2 l s))

/-- READQUADBYTES (R542). -/
def execReadquadbytes (l : BitVec 16) (s : State) : Host.Outcome State Fault Refusal :=
  .next (bulkCount (rxBulk .x4 l s))

end Sys2Proof.Machine
end

