-- ==== Sys2Proof/Machine/LineDriver.lean ====
section
/-! DEFINITION. The Line Driver: the `chipSelect` sequence and SETCS (40_line_driver.md). -/

namespace Sys2Proof.Machine

open Sys2Proof

/-- `chipSelect(active)` (R400): CLK and CS become outputs, the clock goes low, then CS goes to its level. -/
def chipSelect (active : Bool) (s : State) : State :=
  let s := setDir [.clk, .cs] .out s
  let s := drive [(.clk, false)] s
  drive [(.cs, !active)] s

/-- SETCS (R410). -/
def execSetcs (a : Bool) (s : State) : Host.Outcome State Fault Refusal :=
  .next (chipSelect a s)

end Sys2Proof.Machine
end

