-- ==== Sys2Proof/Machine/NandProtocol.lean ====
section
/-! DEFINITION. The NAND Command Protocol: the three frames (43_nand_protocol.md). -/

namespace Sys2Proof.Machine

open Sys2Proof

/-- `identifyFrame()` (R600). -/
def identifyFrame (s : State) : Half × State :=
  let s := chipSelect true s
  let s := sendByte opReadId s
  let s := dummy 8 s
  let b0 := rxByte1 s
  let b1 := rxByte1 b0.2
  (joinBytes b0.1 b1.1, chipSelect false b1.2)

/-- `loadFrame(row)` (R610). -/
def loadFrame (row : BitVec 24) (s : State) : State :=
  let s := chipSelect true s
  let s := sendByte opPageReadToCache s
  let s := sendByte (rowByte2 row) s
  let s := sendByte (rowByte1 row) s
  let s := sendByte (rowByte0 row) s
  let s := chipSelect false s
  delay s.cfg.tLoad s

/-- `quadReadFrame(col, L)` (R620). -/
def quadReadFrame (col l : BitVec 16) (s : State) : Nat × State :=
  let s := chipSelect true s
  let s := sendByte opFastReadQuad s
  let s := sendByte (colByte1 col) s
  let s := sendByte (colByte0 col) s
  let s := dummy 8 s
  let n := clampLen l s.cfg
  let s := rxInto .x4 n 0 s
  (n, chipSelect false s)

/-- The identifier goes to RESULT (R601). -/
def identifyResult (r : Half × State) : State := writeResult r.1 r.2

/-- IDENTIFY (R601). -/
def execIdentify (s : State) : Host.Outcome State Fault Refusal :=
  .next (identifyResult (identifyFrame s))

/-- LOADPAGE (R611). -/
def execLoadpage (row : BitVec 24) (s : State) : Host.Outcome State Fault Refusal :=
  .next (loadFrame row s)

/-- QREAD (R621). -/
def execQread (col l : BitVec 16) (s : State) : Host.Outcome State Fault Refusal :=
  .next (bulkCount (quadReadFrame col l s))

end Sys2Proof.Machine
end

