-- ==== Sys2Proof/Machine/Dispatch.lean ====
section
/-! DEFINITION. The meaning of every host command: one arm per row of spec/opcode_table.json. -/

namespace Sys2Proof.Machine

open Sys2Proof

def exec (i : Instr) (s : State) : Host.Outcome State Fault Refusal :=
  match i with
  -- Line Driver
  | .setcs a => Sys2Proof.Machine.execSetcs a s
  -- Bit-Bang Engine
  | .pulsewX1 v => Sys2Proof.Machine.execPulsewX1 v s
  | .pulsewX2 v => Sys2Proof.Machine.execPulsewX2 v s
  | .pulsewX4 v => Sys2Proof.Machine.execPulsewX4 v s
  | .pulserX1 => Sys2Proof.Machine.execPulserX1 s
  | .pulserX2 => Sys2Proof.Machine.execPulserX2 s
  | .pulserX4 => Sys2Proof.Machine.execPulserX4 s
  | .pulsefdX1 v => Sys2Proof.Machine.execPulsefdX1 v s
  | .pulsefdX2 v => Sys2Proof.Machine.execPulsefdX2 v s
  | .pulsefdX4 v => Sys2Proof.Machine.execPulsefdX4 v s
  | .dummy n => Sys2Proof.Machine.execDummy n s
  -- Lane Transfer Layer
  | .sendcmd b => Sys2Proof.Machine.execSendcmd b s
  | .readbyte => Sys2Proof.Machine.execReadbyte s
  | .readdualbyte => Sys2Proof.Machine.execReaddualbyte s
  | .readquadbyte => Sys2Proof.Machine.execReadquadbyte s
  | .readbytes l => Sys2Proof.Machine.execReadbytes l s
  | .readdualbytes l => Sys2Proof.Machine.execReaddualbytes l s
  | .readquadbytes l => Sys2Proof.Machine.execReadquadbytes l s
  -- NAND Command Protocol
  | .identify => Sys2Proof.Machine.execIdentify s
  | .loadpage row => Sys2Proof.Machine.execLoadpage row s
  | .qread col l => Sys2Proof.Machine.execQread col l s

end Sys2Proof.Machine
end

