-- ==== Sys2Proof/Machine/HostPort.lean ====
section
/-! DEFINITION. What the host and the environment do between commands: the host registers and the buffer port
(60_exceptions.md R731; 20_memory.md R205) and the environment step (R740). -/

namespace Sys2Proof.Machine

open Sys2Proof

/-- The host gets a reply. -/
def reply (r : Reply) (s : State) : State := { s with replies := s.replies ++ [r] }

/-- The value of a host register, as the host gets it. -/
def regReply (r : HostReg) (s : State) : Reply :=
  match r with
  | .result => .result s.result
  | .count => .count s.count
  | .status => .status s.status
  | .badcmd => .badcmd s.badcmd

/-- The host reads a host register: no side effect on the core (20_memory.md R213). -/
def hostReadReg (r : HostReg) (s : State) : State := reply (regReply r s) s

/-- The host reads buffer byte `i` (R204, R205): a byte that holds no value faults; an index outside the buffer gives
any value. -/
def hostReadBuf (i : Nat) (s : State) : Host.Outcome State Fault Refusal :=
  if i < s.cfg.bufCap then
    match s.buf.read i with
    | some v => .next (reply (.byte i v) s)
    | none => .fault .bufferByteHoldsNoValue
  else .next (reply (.byte i (Config.freeByte s.replies.length i)) s)

/-- The host writes buffer byte `i`: no effect outside the buffer (R205). -/
def hostWriteBuf (i : Nat) (v : Byte) (s : State) : State :=
  if i < s.cfg.bufCap then { s with buf := s.buf.write i v } else s

/-- The lines after another peripheral has set what it asks for: each shared line it names gets the mode and latch it
gives, and every other line keeps its own (R740; log 8). -/
def envLines (set : PerLine (Option LineState)) (s : State) : Lines :=
  s.lines.mapWith fun l e => if s.cfg.shared.get l then (set.get l).getD e else e

/-- The lines whose mode or latch is not the same in both files, in line order. -/
def linesChanged (before after : Lines) : List Line :=
  Line.all.filter fun l => decide (after.get l ≠ before.get l)

/-- The environment step (R740): shared lines take the mode and latch the peripheral gives them, and `ENV(S)` is
appended, "with S the lines changed". -/
def environmentStep (set : PerLine (Option LineState)) (s : State) : State :=
  emit (.env (linesChanged s.lines (envLines set s))) { s with lines := envLines set s }

end Sys2Proof.Machine
end

