-- ==== Sys2Proof/Machine/Step.lean ====
section
/-! DEFINITION. One step: the core, idle, serves the oldest request (60_exceptions.md R730, R731); with none it stays
idle (R754; 70_reset_and_hazards.md R802). -/

namespace Sys2Proof.Machine

open Sys2Proof

/-- The core accepts a command word: the command it spells, or the exception of an illegal word, decided before the
first event (R711). -/
def accept (w : CmdWord) (s : State) : Host.Outcome State Fault Refusal :=
  match decode w with
  | .ok i => exec i s
  | .error c => .next (raiseIllegal c w s)

/-- What follows a command's last state, if it has one. -/
def andThen (o : Host.Outcome State Fault Refusal) (f : State → State) : Host.Outcome State Fault Refusal :=
  match o with
  | .next s => .next (f s)
  | .fault r => .fault r
  | .refused r => .refused r

/-- Serve one request. A plain command runs to completion (R730); a command with a reset in it stops after a prefix of
its actions, and then the reset takes place (R801). -/
def serve (r : Request) (s : State) : Host.Outcome State Fault Refusal :=
  match r with
  | .command w => andThen (accept w { s with resetAfter := none }) (reply .completed)
  | .commandThenReset w k => andThen (accept w { s with resetAfter := some k }) applyReset
  | .readReg r => .next (hostReadReg r s)
  | .readBuf i => hostReadBuf i s
  | .writeBuf i v => .next (hostWriteBuf i v s)
  | .reset => .next (applyReset s)
  | .env set => .next (environmentStep set s)

/-- One step of the machine. -/
def step (s : State) : Host.Outcome State Fault Refusal :=
  match s.inbox with
  | [] => .next s
  | r :: rest => serve r { s with inbox := rest }

/-- The state with a command word put where the next step takes its command from: the head of the request queue
(log 3). Bit 0 of `w` is bit 0 of the word; the bits above `nbits` are zero. -/
def State.withFetchWord (s : State) (nbits w : Nat) : State :=
  { s with inbox := .command (BitVec.ofNat 64 (w % 2 ^ nbits)) :: s.inbox }

end Sys2Proof.Machine
end

