-- ==== Sys2Proof/Machine/HostProgram.lean ====
section
/-! DEFINITION. Host programs: the pseudo-instructions and the full-page read, as the requests the host makes
(30_encoding.md R330 to R333; 43_nand_protocol.md R640). -/

namespace Sys2Proof.Machine

open Sys2Proof

/-- The host issues a command. -/
def issue (i : Instr) : Request := .command (encode i)

/-- `SENDADDR24 a` (R331). -/
def sendAddr24 (a : BitVec 24) : List Instr :=
  [.sendcmd (a.extractLsb' 16 8), .sendcmd (a.extractLsb' 8 8), .sendcmd (a.extractLsb' 0 8)]

/-- `SENDADDR16 c` (R331). -/
def sendAddr16 (c : BitVec 16) : List Instr :=
  [.sendcmd (c.extractLsb' 8 8), .sendcmd (c.extractLsb' 0 8)]

/-- `RAWIDENTIFY` (R332). -/
def rawIdentify : List Instr :=
  [.setcs true, .sendcmd 0x9F, .dummy 8, .readbyte, .readbyte, .setcs false]

/-- K = ceil(P / C), the chunks of a full-page read (R640). -/
def chunkCount (P C : Nat) : Nat := (P + C - 1) / C

/-- The column and length of the k-th chunk: k*C and min(C, P - k*C) (R640). -/
def chunk (P C k : Nat) : Nat × Nat := (k * C, min C (P - k * C))

/-- The chunks of a full-page read, in order (R640). -/
def chunks (P C : Nat) : List (Nat × Nat) := (List.range (chunkCount P C)).map (chunk P C)

/-- The host's requests for one chunk: the quad read, then the count and the `len` bytes read out. `len` is at most C,
so it is the COUNT the read leaves (R640, log 12). -/
def chunkRequests (c : Nat × Nat) : List Request :=
  [issue (.qread (BitVec.ofNat 16 c.1) (BitVec.ofNat 16 c.2)), .readReg .count] ++
  (List.range c.2).map fun i => .readBuf i

/-- `PAGEREAD row` (30_encoding.md R333; 43_nand_protocol.md R640): one LOADPAGE, then the chunks in order. -/
def pageRead (cfg : Config) (row : BitVec 24) : List Request :=
  issue (.loadpage row) :: (chunks cfg.pageSize cfg.bufCap).flatMap chunkRequests

/-- The command of a pulse statement, by lane width. -/
def pulsewOf (w : LaneWidth) (v : Nat) : Instr :=
  match w with
  | .x1 => .pulsewX1 (BitVec.ofNat 1 v)
  | .x2 => .pulsewX2 (BitVec.ofNat 2 v)
  | .x4 => .pulsewX4 (BitVec.ofNat 4 v)

/-- The command of a read-pulse statement, by lane width. -/
def pulserOf : LaneWidth → Instr
  | .x1 => .pulserX1
  | .x2 => .pulserX2
  | .x4 => .pulserX4

/-- The command of a full-duplex statement, by lane width. -/
def pulsefdOf (w : LaneWidth) (v : Nat) : Instr :=
  match w with
  | .x1 => .pulsefdX1 (BitVec.ofNat 1 v)
  | .x2 => .pulsefdX2 (BitVec.ofNat 2 v)
  | .x4 => .pulsefdX4 (BitVec.ofNat 4 v)

/-- The requests a well-formed statement stands for: one command, or the expansion of a pseudo-instruction. -/
def expand (cfg : Config) : Stmt → List Request
  | .setcs a => [issue (.setcs (a == 1))]
  | .pulsew w v => [issue (pulsewOf w v)]
  | .pulser w => [issue (pulserOf w)]
  | .pulsefd w v => [issue (pulsefdOf w v)]
  | .dummy n => [issue (.dummy (BitVec.ofNat 16 n))]
  | .sendcmd b => [issue (.sendcmd (BitVec.ofNat 8 b))]
  | .readbyte => [issue .readbyte]
  | .readdualbyte => [issue .readdualbyte]
  | .readquadbyte => [issue .readquadbyte]
  | .readbytes l => [issue (.readbytes (BitVec.ofNat 16 l))]
  | .readdualbytes l => [issue (.readdualbytes (BitVec.ofNat 16 l))]
  | .readquadbytes l => [issue (.readquadbytes (BitVec.ofNat 16 l))]
  | .identify => [issue .identify]
  | .loadpage row => [issue (.loadpage (BitVec.ofNat 24 row))]
  | .qread col l => [issue (.qread (BitVec.ofNat 16 col) (BitVec.ofNat 16 l))]
  | .sendaddr24 a => (sendAddr24 (BitVec.ofNat 24 a)).map issue
  | .sendaddr16 c => (sendAddr16 (BitVec.ofNat 16 c)).map issue
  | .rawidentify => rawIdentify.map issue
  | .pageread row => pageRead cfg (BitVec.ofNat 24 row)

/-- The assembler refuses an operand that does not fit its field (R330). -/
def assemble (cfg : Config) (st : Stmt) : Option (List Request) :=
  if st.wellFormed then some (expand cfg st) else none

end Sys2Proof.Machine
end

