-- ==== Sys2Proof/Machine/Assembler.lean ====
section
/-! DEFINITION. The assembler's text (30_encoding.md R330): one statement a line, `MNEMONIC operand, operand`, numbers
decimal or hex with prefix `0x`, lane widths `x1`, `x2`, `x4`, comments from `;`. What the rule leaves open of spaces
and capitals is log 13. -/

namespace Sys2Proof.Machine

open Sys2Proof

/-- The line without its comment. -/
def stripComment : List Char → List Char
  | [] => []
  | c :: cs => if c = ';' then [] else c :: stripComment cs

/-- A blank. -/
def isBlank (c : Char) : Bool := c == ' ' || c == '\t' || c == '\r'

/-- The line without blanks at either end. -/
def trimBlanks (cs : List Char) : List Char :=
  ((cs.dropWhile isBlank).reverse.dropWhile isBlank).reverse

/-- Cut at every comma; the pieces without blanks at their ends. -/
def splitCommas (cs : List Char) : List (List Char) := (cs.splitOn ',').map trimBlanks

/-- A decimal digit's value. -/
def decDigit (c : Char) : Option Nat :=
  if '0' ≤ c ∧ c ≤ '9' then some (c.toNat - '0'.toNat) else none

/-- A hex digit's value, either case. -/
def hexDigit (c : Char) : Option Nat :=
  if '0' ≤ c ∧ c ≤ '9' then some (c.toNat - '0'.toNat)
  else if 'a' ≤ c ∧ c ≤ 'f' then some (c.toNat - 'a'.toNat + 10)
  else if 'A' ≤ c ∧ c ≤ 'F' then some (c.toNat - 'A'.toNat + 10)
  else none

/-- Digits of a base, most significant first, onto the number so far. -/
def parseDigits (base : Nat) (digit : Char → Option Nat) : Nat → List Char → Option Nat
  | n, [] => some n
  | n, c :: cs => match digit c with
    | some d => parseDigits base digit (base * n + d) cs
    | none => none

/-- A number, decimal or hex with prefix `0x`; at least one digit. -/
def parseNumber : List Char → Option Nat
  | [] => none
  | ['0', 'x'] => none
  | '0' :: 'x' :: cs => parseDigits 16 hexDigit 0 cs
  | c :: cs => parseDigits 10 decDigit 0 (c :: cs)

/-- A lane width. -/
def parseWidth (cs : List Char) : Option LaneWidth :=
  if cs = ['x', '1'] then some .x1
  else if cs = ['x', '2'] then some .x2
  else if cs = ['x', '4'] then some .x4
  else none

/-- The operand of a form with one number. -/
def oneNumber (f : Nat → Stmt) : List (List Char) → Option Stmt
  | [a] => (parseNumber a).map f
  | _ => none

/-- The operand of a form with one lane width. -/
def oneWidth (f : LaneWidth → Stmt) : List (List Char) → Option Stmt
  | [a] => (parseWidth a).map f
  | _ => none

/-- The operands of a form with a lane width and a number. -/
def widthNumber (f : LaneWidth → Nat → Stmt) : List (List Char) → Option Stmt
  | [a, b] => match parseWidth a, parseNumber b with
    | some w, some v => some (f w v)
    | _, _ => none
  | _ => none

/-- The operands of a form with two numbers. -/
def twoNumbers (f : Nat → Nat → Stmt) : List (List Char) → Option Stmt
  | [a, b] => match parseNumber a, parseNumber b with
    | some x, some y => some (f x y)
    | _, _ => none
  | _ => none

/-- A form without operands. -/
def noOperand (st : Stmt) : List (List Char) → Option Stmt
  | [] => some st
  | _ => none

/-- The forms by mnemonic (R330, R331, R332, R333). -/
def statementForms : List (String × (List (List Char) → Option Stmt)) :=
  [ ("SETCS", oneNumber .setcs), ("PULSEW", widthNumber .pulsew), ("PULSER", oneWidth .pulser),
    ("PULSEFD", widthNumber .pulsefd), ("DUMMY", oneNumber .dummy), ("SENDCMD", oneNumber .sendcmd),
    ("READBYTE", noOperand .readbyte), ("READDUALBYTE", noOperand .readdualbyte),
    ("READQUADBYTE", noOperand .readquadbyte), ("READBYTES", oneNumber .readbytes),
    ("READDUALBYTES", oneNumber .readdualbytes), ("READQUADBYTES", oneNumber .readquadbytes),
    ("IDENTIFY", noOperand .identify), ("LOADPAGE", oneNumber .loadpage), ("QREAD", twoNumbers .qread),
    ("SENDADDR24", oneNumber .sendaddr24), ("SENDADDR16", oneNumber .sendaddr16),
    ("RAWIDENTIFY", noOperand .rawidentify), ("PAGEREAD", oneNumber .pageread) ]

/-- The operand fields after a mnemonic: none if nothing stands there. -/
def operandFields (cs : List Char) : List (List Char) :=
  match trimBlanks cs with
  | [] => []
  | ds => splitCommas ds

/-- A statement from a line with its comment and outer blanks gone. -/
def parseStatement (cs : List Char) : Option Stmt :=
  let name := cs.takeWhile fun c => !isBlank c
  let rest := cs.dropWhile fun c => !isBlank c
  match statementForms.find? fun f => f.1.toList == name with
  | some f => f.2 (operandFields rest)
  | none => none

/-- The requests of one line of source: a line of blanks or a comment gives none, a line that is no form, or one whose
operand does not fit, is refused (R330). -/
def assembleLine (cfg : Config) (line : List Char) : Option (List Request) :=
  match trimBlanks (stripComment line) with
  | [] => some []
  | cs => match parseStatement cs with
    | some st => assemble cfg st
    | none => none

/-- The requests of a source text, line by line. -/
def assembleLines (cfg : Config) : List (List Char) → Option (List Request)
  | [] => some []
  | l :: ls => match assembleLine cfg l, assembleLines cfg ls with
    | some rs, some rest => some (rs ++ rest)
    | _, _ => none

/-- The requests of a source text: one statement a line (R330). -/
def assembleText (cfg : Config) (text : String) : Option (List Request) :=
  assembleLines cfg (text.toList.splitOn '\n')

end Sys2Proof.Machine
end

