-- ==== Sys2Proof/Machine/Events.lean ====
section
/-! DEFINITION. Reading a trace: the line state an event leaves, edges, latches at rising edges, held times
(10_state.md R122; 70_reset_and_hazards.md R831, R832), and the event list and the value of each wire sequence, as
spec/95_test_vectors.md writes them. The machine does not use this file; claims do. -/

namespace Sys2Proof.Machine

open Sys2Proof

/-! ### Line state and edges along a trace -/

/-- The line state after an event. `ENV` does not record the values it sets (10_state.md R120), so it is read as no
change: edges are counted along a trace that holds none (log 11). -/
def eventLines (ls : Lines) : Event → Lines
  | .dir S m => ls.setModes S m
  | .drv v => ls.setLats v
  | .smp _ => ls
  | .wait _ => ls
  | .rst => resetLines
  | .env _ => ls

/-- The line state after a list of events. -/
def replay (ls : Lines) (es : List Event) : Lines := es.foldl eventLines ls

/-- The event is an edge of line `l` to level `b`: `DRV({l}, b)` at which the latch was not `b` and the mode is OUT
(R122). -/
def isEdge (l : Line) (b : Bool) (ls : Lines) (e : Event) : Bool :=
  decide (e = .drv [(l, b)] ∧ (ls.get l).lat ≠ b ∧ (ls.get l).mode = .out)

/-- The number of edges of `l` to `b` along a list of events, from a line state. -/
def countEdges (l : Line) (b : Bool) : Lines → List Event → Nat
  | _, [] => 0
  | ls, e :: es => (if isEdge l b ls e then 1 else 0) + countEdges l b (eventLines ls e) es

/-- Clock pulses: rising edges of CLK (R122). -/
def risingEdges (ls : Lines) (es : List Event) : Nat := countEdges .clk true ls es

/-- Assertions of CS (R122). -/
def assertions (ls : Lines) (es : List Event) : Nat := countEdges .cs false ls es

/-- Deassertions of CS (R122). -/
def deassertions (ls : Lines) (es : List Event) : Nat := countEdges .cs true ls es

/-- The latch of `l` at each rising edge of CLK. -/
def latchAtRises (l : Line) : Lines → List Event → List Bool
  | _, [] => []
  | ls, e :: es =>
    (if isEdge .clk true ls e then [(ls.get l).lat] else []) ++ latchAtRises l (eventLines ls e) es

/-- The durations of the `WAIT` events. -/
def waits (es : List Event) : List Nat :=
  es.filterMap fun e => match e with
    | .wait t => some t
    | _ => none

/-- The events a run from `s` to `t` has appended. -/
def newEvents (s t : State) : List Event := t.trace.drop s.trace.length

/-- The events with the sampled levels left out: what the core itself puts on the wire. -/
def withoutSamples (es : List Event) : List Event :=
  es.map fun e => match e with
    | .smp v => .smp (v.map fun b => (b.1, false))
    | e => e

/-- The event is a sample. -/
def isSample : Event → Bool
  | .smp _ => true
  | _ => false

/-- The number of samples among the events. -/
def sampleCount (es : List Event) : Nat := es.countP isSample

/-- A data line is driven by the event. -/
def drivesData : Event → Bool
  | .drv v => v.any fun b => b.1 ∈ Line.data
  | _ => false

/-! ### The event lists of the sequences -/

/-- `cs(a)`: the events of `chipSelect(a)` (40_line_driver.md R400). -/
def evChipSelect (a : Bool) : List Event :=
  [.dir [.clk, .cs] .out, .drv [(.clk, false)], .drv [(.cs, !a)]]

/-- `cp`: the events of `clockPulse` (41_bitbang_engine.md R453), T the bit delay. -/
def evClock (T : Nat) : List Event :=
  [.drv [(.clk, true)], .wait T, .drv [(.clk, false)], .wait T]

/-- The events of `pulseWrite(W, v)` (R460). -/
def evWrite (T : Nat) (w : LaneWidth) (v : BitVec 4) : List Event :=
  [.dir (writeSet w) .out, .drv (laneMap w v)] ++ evClock T

/-- The events of `pulseRead(W)` with the levels it samples (R470). -/
def evRead (T : Nat) (w : LaneWidth) (lv : Levels) : List Event :=
  [.dir (readSet w) .inp, .smp (lv.restrict (readSet w))] ++ evClock T

/-- The events of `pulseFullDuplex(W, v)` with the levels it samples (R480). -/
def evDuplex (T : Nat) (w : LaneWidth) (v : BitVec 4) (lv : Levels) : List Event :=
  [.dir (writeSet w) .out, .drv (laneMap w v), .drv [(.clk, true)], .wait T, .dir (activeSet w) .inp,
   .drv [(.clk, false)], .smp (lv.restrict (readSet w)), .wait T]

/-- `dm(N)`: the events of `dummy(N)` (R490). -/
def evDummy (T n : Nat) : List Event :=
  .dir Line.data .inPu :: (List.replicate n (evClock T)).flatten

/-- The events of `sendByte(b)` (42_lane_transfer.md R500): bits 7 down to 0. -/
def evSend (T : Nat) (b : Byte) : List Event :=
  [7, 6, 5, 4, 3, 2, 1, 0].flatMap fun k => evWrite T .x1 (nibble false false false (b.getLsbD k))

/-- The events of read pulses of one width, one for each sample. -/
def evReads (T : Nat) (w : LaneWidth) (lvs : List Levels) : List Event :=
  lvs.flatMap (evRead T w)

/-- The events of the Identify frame (43_nand_protocol.md R600) with its 16 samples. -/
def evIdentify (T : Nat) (lvs : List Levels) : List Event :=
  evChipSelect true ++ evSend T 0x9F ++ evDummy T 8 ++ evReads T .x1 lvs ++ evChipSelect false

/-- The events of the Load Page To Cache frame (R610). -/
def evLoad (T Tload : Nat) (row : BitVec 24) : List Event :=
  evChipSelect true ++ evSend T 0x13 ++ evSend T (row.extractLsb' 16 8) ++ evSend T (row.extractLsb' 8 8) ++
  evSend T (row.extractLsb' 0 8) ++ evChipSelect false ++ [.wait Tload]

/-- The events of the Quad Burst Read frame (R620) with its samples. -/
def evQuadRead (T : Nat) (col : BitVec 16) (lvs : List Levels) : List Event :=
  evChipSelect true ++ evSend T 0x6B ++ evSend T (col.extractLsb' 8 8) ++ evSend T (col.extractLsb' 0 8) ++
  evDummy T 8 ++ evReads T .x4 lvs ++ evChipSelect false

/-! ### The values of samples -/

/-- The pulses of one byte: 8, 4, 2 (42_lane_transfer.md R504). -/
def pulsesPerByte : LaneWidth → Nat
  | .x1 => 8
  | .x2 => 4
  | .x4 => 2

/-- The bits of one sample, the high bit first: IO1 at x1; IO1, IO0 at x2; IO3 to IO0 at x4
(41_bitbang_engine.md R452). -/
def sampledBits : LaneWidth → Levels → List Bool
  | .x1, lv => [lv.io1]
  | .x2, lv => [lv.io1, lv.io0]
  | .x4, lv => [lv.io3, lv.io2, lv.io1, lv.io0]

/-- The number whose bits are given, the most significant first (20_memory.md R220). -/
def ofBitsMsbFirst (bs : List Bool) : Nat := bs.foldl (fun n b => 2 * n + b.toNat) 0

/-- The number received by the samples of one width, most significant first. -/
def received (w : LaneWidth) (lvs : List Levels) : Nat := ofBitsMsbFirst (lvs.flatMap (sampledBits w))

/-- The samples of the `i`-th byte of a bulk read. -/
def byteSamples (w : LaneWidth) (i : Nat) (lvs : List Levels) : List Levels :=
  (lvs.drop (i * pulsesPerByte w)).take (pulsesPerByte w)

/-- The lane width of a command that writes the buffer, and how many bytes it writes (20_memory.md R202), C the
buffer's capacity; `none` for a command that writes no byte. -/
def bulkRead (C : Nat) : Instr → Option (LaneWidth × Nat)
  | .readbytes l => some (.x1, min l.toNat C)
  | .readdualbytes l => some (.x2, min l.toNat C)
  | .readquadbytes l => some (.x4, min l.toNat C)
  | .qread _ l => some (.x4, min l.toNat C)
  | _ => none

/-- `lvs` are `n` levels the outside may present to samples that begin in `s`: the answers that wait in `s`, then any
(10_state.md R121). -/
def mayPresent (s : State) (n : Nat) (lvs : List Levels) : Prop :=
  lvs.length = n ∧ s.answers.take n <+: lvs

/-- The clock pulses of each command (70_reset_and_hazards.md R831), C the buffer's capacity. -/
def pulseCount (C : Nat) : Instr → Nat
  | .setcs _ => 0
  | .pulsewX1 _ | .pulsewX2 _ | .pulsewX4 _ => 1
  | .pulserX1 | .pulserX2 | .pulserX4 => 1
  | .pulsefdX1 _ | .pulsefdX2 _ | .pulsefdX4 _ => 1
  | .dummy n => n.toNat
  | .sendcmd _ => 8
  | .readbyte => 8
  | .readdualbyte => 4
  | .readquadbyte => 2
  | .readbytes l => 8 * min l.toNat C
  | .readdualbytes l => 4 * min l.toNat C
  | .readquadbytes l => 2 * min l.toNat C
  | .identify => 32
  | .loadpage _ => 32
  | .qread _ l => 32 + 2 * min l.toNat C

end Sys2Proof.Machine
end

