-- ==== Sys2Proof/Safety.lean ====
section
/-! DEFINITION. What counts as a safe run, and the invariant of the core, in the terms claims use. -/

namespace Sys2Proof.Machine

open Sys2Proof

/-- The step stops with no fault and no refusal. -/
def Goes (s : State) : Prop := ∃ t, step s = .next t

/-- The next request is no host read of a buffer byte that holds no value (20_memory.md R204; 70_reset_and_hazards.md
R810: "Before the first host read of a buffer byte, that byte must have been written"). -/
def ReadsWritten (s : State) : Prop :=
  ∀ i rest, s.inbox = .readBuf i :: rest → i < s.cfg.bufCap → (s.buf.read i).isSome = true

/-- STATUS and BADCMD describe the most recent illegal command word, or no word has been illegal since reset
(10_state.md R113, R114; 60_exceptions.md R714). -/
def StatusDescribesBadcmd (s : State) : Prop :=
  (s.status = 0x00 ∧ s.badcmd = 0x0000000000000000) ∨
  ∃ c, decode s.badcmd = .error c ∧ s.status = packStatus true (causeCode c)

/-- Commands one after another. -/
def execAll : List Instr → State → Host.Outcome State Fault Refusal
  | [], s => .next s
  | i :: is, s => match exec i s with
    | .next t => execAll is t
    | .fault r => .fault r
    | .refused r => .refused r

/-- The invariant of the core between commands. -/
structure State.Inv (s : State) : Prop where
  /-- The configuration is legal (00_scope.md R7, R9, R10, R11). -/
  cfgLegal : s.cfg.legal = true
  /-- The buffer keeps its canonical form. -/
  bufCanonical : s.buf.wf = true
  /-- No byte outside the buffer holds a value (20_memory.md R206). -/
  bufWithin : s.buf.within s.cfg.bufCap = true
  /-- COUNT is a count of buffer bytes (10_state.md R112). -/
  countWithin : s.count.toNat ≤ s.cfg.bufCap
  /-- STATUS is legal, its reserved bits 0, its cause that of BADCMD. -/
  statusLegal : StatusDescribesBadcmd s
  /-- An unshared clock idles low as an output (10_state.md R103, R105). -/
  clockIdle : s.cfg.shared.clk = false → s.lines.clk = { mode := .out, lat := false }
  /-- An unshared chip-select is an output (R103). -/
  csOutput : s.cfg.shared.cs = false → s.lines.cs.mode = .out
  /-- The trace begins with the power-on reset (70_reset_and_hazards.md R803). -/
  traceBegins : s.trace.head? = some .rst
  /-- No reset waits inside a command: the core is idle. -/
  idle : s.resetAfter = none

end Sys2Proof.Machine
end

