-- ==== Sys2Proof/Certificates/Slice0/Obligations.lean ====
section
/-! DEFINITION. The statements about the core, from the spec's numbered rules. A statement about a command's run has the
premise `s.resetAfter = none`: no reset cuts the command (70_reset_and_hazards.md R801); the statements on resets say
what happens otherwise. `{ s with … }` says the frame: every field it does not name is unchanged. -/

open Sys2Proof Sys2Proof.Machine

/-! ### Encoding -/

/-- Decoding the word of a command gives the command back, for every command and every operand (30_encoding.md R304,
R308). -/
def Obligations.DecodeOfEncodeIsTheCommand : Prop :=
  ∀ i : Instr, decode (encode i) = .ok i

/-- A word that spells a command is that command's word: no bit of it is dropped (R305, R307). -/
def Obligations.EncodeOfDecodeIsTheWord : Prop :=
  ∀ (w : CmdWord) (i : Instr), decode w = .ok i → encode i = w

/-- R304: at most one row of the table matches any word; a word that matches a row spells the row's command; a word
that matches none is illegal. -/
def Obligations.AtMostOneRowMatchesAWord : Prop :=
  (∀ (w : CmdWord) (m n : Nat) (r q : Row), opcodeTable[m]? = some r → opcodeTable[n]? = some q →
    w &&& r.mask = r.fixed → w &&& q.mask = q.fixed → m = n) ∧
  (∀ (w : CmdWord), ∀ r ∈ opcodeTable, w &&& r.mask = r.fixed → decode w = .ok (r.build w)) ∧
  ∀ w : CmdWord, (∀ r ∈ opcodeTable, w &&& r.mask ≠ r.fixed) → ∃ c, decode w = .error c

/-- R305: a word is legal exactly when OP is assigned, its lane-width code is not 11 where OP takes one, and every bit
outside the fields the op uses is 0. -/
def Obligations.LegalWordsHaveZeroReservedBits : Prop :=
  ∀ w : CmdWord, (∃ i, decode w = .ok i) ↔
    let op := w.toNat / 2 ^ 56
    let wc := w.toNat / 2 ^ 54 % 4
    let rsv := w.toNat / 2 ^ 48 % 64
    let len := w.toNat / 2 ^ 32 % 65536
    let arg := w.toNat % 2 ^ 32
    rsv = 0 ∧
    ((op = 0x01 ∧ wc = 0 ∧ len = 0 ∧ arg < 2) ∨
     ((op = 0x02 ∨ op = 0x04) ∧ len = 0 ∧
       ((wc = 0 ∧ arg < 2) ∨ (wc = 1 ∧ arg < 4) ∨ (wc = 2 ∧ arg < 16))) ∨
     ((op = 0x03 ∨ op = 0x11) ∧ wc ≠ 3 ∧ len = 0 ∧ arg = 0) ∨
     (op = 0x05 ∧ wc = 0 ∧ arg = 0) ∨
     (op = 0x10 ∧ wc = 0 ∧ len = 0 ∧ arg < 2 ^ 8) ∨
     (op = 0x12 ∧ wc ≠ 3 ∧ arg = 0) ∨
     (op = 0x20 ∧ wc = 0 ∧ len = 0 ∧ arg = 0) ∨
     (op = 0x21 ∧ wc = 0 ∧ len = 0 ∧ arg < 2 ^ 24) ∨
     (op = 0x22 ∧ wc = 0 ∧ arg < 2 ^ 16))

/-- R306: the cause of a word that matches no row is the first of the three tests that holds; the word changes nothing
but STATUS and BADCMD and appends no event. -/
def Obligations.IllegalWordHasTheFirstCauseThatHolds : Prop :=
  ∀ w : CmdWord, (∀ r ∈ opcodeTable, w &&& r.mask ≠ r.fixed) →
    let op := w.toNat / 2 ^ 56
    let wc := w.toNat / 2 ^ 54 % 4
    decode w = .error
      (if op ∉ [0x01, 0x02, 0x03, 0x04, 0x05, 0x10, 0x11, 0x12, 0x20, 0x21, 0x22] then .unknownOp
       else if op ∈ [0x02, 0x03, 0x04, 0x11, 0x12] ∧ wc = 3 then .reservedLaneWidth
       else .reservedBitSet) ∧
    ∀ (s : State) (rest : List Request), s.inbox = .command w :: rest → s.resetAfter = none →
      ∃ st, step s = .next { s with
        status := st, badcmd := w, inbox := rest, replies := s.replies ++ [.completed] }

/-- R308: the word of every command, its fixed value with the operand at its bits. -/
def Obligations.EncodeFollowsTheOpcodeMap : Prop :=
  (∀ a : Bool, encode (.setcs a) = 0x0100000000000000#64 ||| BitVec.ofNat 64 a.toNat) ∧
  (∀ v : BitVec 1, encode (.pulsewX1 v) = 0x0200000000000000#64 ||| v.setWidth 64 ∧
    encode (.pulsefdX1 v) = 0x0400000000000000#64 ||| v.setWidth 64) ∧
  (∀ v : BitVec 2, encode (.pulsewX2 v) = 0x0240000000000000#64 ||| v.setWidth 64 ∧
    encode (.pulsefdX2 v) = 0x0440000000000000#64 ||| v.setWidth 64) ∧
  (∀ v : BitVec 4, encode (.pulsewX4 v) = 0x0280000000000000#64 ||| v.setWidth 64 ∧
    encode (.pulsefdX4 v) = 0x0480000000000000#64 ||| v.setWidth 64) ∧
  (encode .pulserX1 = 0x0300000000000000#64 ∧ encode .pulserX2 = 0x0340000000000000#64 ∧
    encode .pulserX4 = 0x0380000000000000#64) ∧
  (∀ n : BitVec 16, encode (.dummy n) = 0x0500000000000000#64 ||| n.setWidth 64 <<< 32) ∧
  (∀ b : BitVec 8, encode (.sendcmd b) = 0x1000000000000000#64 ||| b.setWidth 64) ∧
  (encode .readbyte = 0x1100000000000000#64 ∧ encode .readdualbyte = 0x1140000000000000#64 ∧
    encode .readquadbyte = 0x1180000000000000#64) ∧
  (∀ l : BitVec 16, encode (.readbytes l) = 0x1200000000000000#64 ||| l.setWidth 64 <<< 32 ∧
    encode (.readdualbytes l) = 0x1240000000000000#64 ||| l.setWidth 64 <<< 32 ∧
    encode (.readquadbytes l) = 0x1280000000000000#64 ||| l.setWidth 64 <<< 32) ∧
  encode .identify = 0x2000000000000000#64 ∧
  (∀ row : BitVec 24, encode (.loadpage row) = 0x2100000000000000#64 ||| row.setWidth 64) ∧
  ∀ col l : BitVec 16, encode (.qread col l) =
    0x2200000000000000#64 ||| l.setWidth 64 <<< 32 ||| col.setWidth 64

/-- Words the spec writes out, one of each family (40 R410, 41 R461, 42 R540, 43 R611 and R621), decode to the command
they stand for. -/
def Obligations.ExampleWordsDecode : Prop :=
  decode 0x0100000000000001 = .ok (.setcs true) ∧
  decode 0x028000000000000A = .ok (.pulsewX4 0xA) ∧
  decode 0x0500000800000000 = .ok (.dummy 8) ∧
  decode 0x1200012C00000000 = .ok (.readbytes 300) ∧
  decode 0x2100000000000040 = .ok (.loadpage 0x000040) ∧
  decode 0x2200010000000100 = .ok (.qread 0x0100 256) ∧
  decode 0x03C0000000000001 = .error .reservedLaneWidth ∧
  decode 0x0101000000000000 = .error .reservedBitSet ∧
  decode 0x0600000000000000 = .error .unknownOp

/-! ### The step -/

/-- 60_exceptions.md R730: the core takes the oldest command word, runs the command it spells to completion, and the
host gets the completion. The second clause says the same of a word placed as the host places one (log 3). -/
def Obligations.StepRunsTheDecodedCommand : Prop :=
  (∀ (s : State) (w : CmdWord) (rest : List Request) (i : Instr),
    s.inbox = .command w :: rest → decode w = .ok i →
    step s = match exec i { s with inbox := rest, resetAfter := none } with
      | .next t => .next { t with replies := t.replies ++ [.completed] }
      | .fault r => .fault r
      | .refused r => .refused r) ∧
  ∀ (s : State) (w : Nat) (i : Instr), w < 2 ^ 64 → decodeTableWord 64 w = some i →
    step (s.withFetchWord 64 w) = match exec i { s with resetAfter := none } with
      | .next t => .next { t with replies := t.replies ++ [.completed] }
      | .fault r => .fault r
      | .refused r => .refused r

/-- R710: an illegal command word sets ERR, CAUSE and BADCMD and changes nothing else of the core: no line, no event,
no buffer byte, not RESULT, not COUNT. The command then completes. -/
def Obligations.IllegalWordSetsStatusAndBadcmdOnly : Prop :=
  ∀ (s : State) (w : CmdWord) (rest : List Request) (c : Cause),
    s.inbox = .command w :: rest → s.resetAfter = none → decode w = .error c →
    step s = .next { s with
      status := (match c with
        | .unknownOp => 0x03
        | .reservedLaneWidth => 0x05
        | .reservedBitSet => 0x07)
      badcmd := w
      inbox := rest
      replies := s.replies ++ [.completed] }

/-- With no request the core is idle and holds its state (R754; 70_reset_and_hazards.md R802). -/
def Obligations.IdleCoreHoldsItsState : Prop :=
  ∀ s : State, s.inbox = [] → step s = .next s

/-- A step stops only where the host reads a buffer byte that holds no value (20_memory.md R204); it never refuses. -/
def Obligations.StepGoesExactlyWhenReadsAreOfWrittenBytes : Prop :=
  ∀ s : State, (Goes s ↔ ReadsWritten s) ∧ ∀ r, step s ≠ .refused r

/-- 10_state.md R120: the trace is append-only. -/
def Obligations.TraceIsAppendOnly : Prop :=
  ∀ s t : State, step s = .next t → s.trace <+: t.trace

/-- 10_state.md R132: no step changes the configuration. -/
def Obligations.ConfigurationNeverChanges : Prop :=
  ∀ s t : State, step s = .next t → t.cfg = s.cfg

/-- The invariant of the core holds after every step from a state in which it holds. -/
def Obligations.EveryStepKeepsTheInvariant : Prop :=
  ∀ s t : State, s.Inv → step s = .next t → t.Inv

/-- The invariant holds after the power-on reset. -/
def Obligations.InvariantHoldsAtReset : Prop := State.reset.Inv

/-! ### Reset -/

/-- 70_reset_and_hazards.md R800: the lines, the host registers and the trace after reset. The buffer keeps its bytes.
That the queues outside the core stay is no rule of the spec but the model's choice (log 2, log 3, log 4). -/
def Obligations.ResetSetsLinesAndRegisters : Prop :=
  ∀ (s : State) (rest : List Request), s.inbox = .reset :: rest →
    step s = .next { s with
      lines := { clk := ⟨.out, false⟩, cs := ⟨.out, true⟩, io0 := ⟨.inPu, true⟩, io1 := ⟨.inPu, true⟩,
                 io2 := ⟨.inPu, true⟩, io3 := ⟨.inPu, true⟩ }
      result := 0, count := 0, status := 0, badcmd := 0
      trace := s.trace ++ [.rst]
      inbox := rest, resetAfter := none }

/-- 10_state.md R140 and 70_reset_and_hazards.md R803: the state after the power-on reset. -/
def Obligations.PowerOnStateIsTheResetTable : Prop :=
  State.reset.lines = { clk := ⟨.out, false⟩, cs := ⟨.out, true⟩, io0 := ⟨.inPu, true⟩, io1 := ⟨.inPu, true⟩,
                        io2 := ⟨.inPu, true⟩, io3 := ⟨.inPu, true⟩ } ∧
  State.reset.result = 0 ∧ State.reset.count = 0 ∧ State.reset.status = 0 ∧ State.reset.badcmd = 0 ∧
  State.reset.trace = [.rst] ∧ ∀ i, State.reset.buf.read i = none

/-- 70_reset_and_hazards.md R801: a reset inside a command stops it after a prefix of its events, `j` of them, and of its
buffer writes, `n` of them; then the reset takes place. `t` is the command's run to completion. The bytes written before
the reset keep their new values: of a command that writes the buffer, `n` is the number of bytes whose pulses the prefix
has sampled, or one less (a byte is written after its last pulse's last event, log 5); any other command has written
none. `j` events and `n` writes are the `k` actions that the reset lets happen, or all of them (log 5). A reset inside an
illegal word leaves the state of a reset alone (60_exceptions.md R712). -/
def Obligations.ResetCutsACommandAfterAPrefix : Prop :=
  (∀ (s : State) (w : CmdWord) (k : Nat) (rest : List Request) (i : Instr),
    s.inbox = .commandThenReset w k :: rest → decode w = .ok i →
    ∃ t u j n, exec i { s with inbox := rest, resetAfter := none } = .next t ∧ step s = .next u ∧
      let es := newEvents s t
      let m := sampleCount (es.take j)
      j ≤ es.length ∧ u.trace = s.trace ++ es.take j ++ [.rst] ∧
      (match bulkRead s.cfg.bufCap i with
        | some (W, N) => n ≤ N ∧ n ≤ m / pulsesPerByte W ∧ m / pulsesPerByte W ≤ n + 1 ∧
            j + n = min k (es.length + N)
        | none => n = 0 ∧ j = min k es.length) ∧
      (∀ a, u.buf.read a = if a < n then t.buf.read a else s.buf.read a) ∧
      u.lines = resetLines ∧ u.result = 0 ∧ u.count = 0 ∧ u.status = 0 ∧ u.badcmd = 0 ∧
      u.answers = s.answers.drop m ∧ u.cfg = s.cfg ∧ u.inbox = rest ∧ u.replies = s.replies ∧
      u.resetAfter = none) ∧
  ∀ (s : State) (w : CmdWord) (k : Nat) (rest : List Request) (c : Cause),
    s.inbox = .commandThenReset w k :: rest → decode w = .error c →
    step s = .next { s with
      lines := resetLines
      result := 0, count := 0, status := 0, badcmd := 0
      trace := s.trace ++ [.rst]
      inbox := rest, resetAfter := none }

/-- R801: the prefix may be any, the empty one and the whole list included. -/
def Obligations.ResetMayCutAfterAnyPrefix : Prop :=
  ∀ (s : State) (w : CmdWord) (rest : List Request) (i : Instr) (t : State) (j : Nat),
    decode w = .ok i → exec i { s with inbox := rest, resetAfter := none } = .next t →
    j ≤ (newEvents s t).length →
    ∃ k u, step { s with inbox := .commandThenReset w k :: rest } = .next u ∧
      u.trace = s.trace ++ (newEvents s t).take j ++ [.rst]

/-! ### The host and the environment -/

/-- 60_exceptions.md R731: the host reads a register and gets its value; the read has no side effect on the core
(20_memory.md R213). -/
def Obligations.HostReadsARegister : Prop :=
  ∀ (s : State) (r : HostReg) (rest : List Request), s.inbox = .readReg r :: rest →
    step s = .next { s with
      inbox := rest
      replies := s.replies ++ [match r with
        | .result => .result s.result
        | .count => .count s.count
        | .status => .status s.status
        | .badcmd => .badcmd s.badcmd] }

/-- 20_memory.md R204, R205: the host reads a buffer byte: its value; a fault where it holds none; some value at an
index outside the buffer. -/
def Obligations.HostReadsABufferByte : Prop :=
  ∀ (s : State) (i : Nat) (rest : List Request), s.inbox = .readBuf i :: rest →
    (∀ v, i < s.cfg.bufCap → s.buf.read i = some v →
      step s = .next { s with inbox := rest, replies := s.replies ++ [.byte i v] }) ∧
    (i < s.cfg.bufCap → s.buf.read i = none → step s = .fault .bufferByteHoldsNoValue) ∧
    (s.cfg.bufCap ≤ i → ∃ v, step s = .next { s with inbox := rest, replies := s.replies ++ [.byte i v] })

/-- R205: the host writes a buffer byte, and no other byte and nothing else changes; at an index outside the buffer
nothing changes. -/
def Obligations.HostWritesABufferByte : Prop :=
  ∀ (s : State) (i : Nat) (v : Byte) (rest : List Request), s.inbox = .writeBuf i v :: rest →
    (i < s.cfg.bufCap → ∃ m, step s = .next { s with inbox := rest, buf := m } ∧
      ∀ j, Memory.read m j = if j = i then some v else s.buf.read j) ∧
    (s.cfg.bufCap ≤ i → step s = .next { s with inbox := rest })

/-- 60_exceptions.md R740: an environment step sets the mode and latch of shared lines, to any values, and of no other
line, and appends `ENV(S)`, S the lines changed. That a request may name a line that is not shared, which then keeps its
mode and latch, and that a step which changes no line appends `ENV` of the empty set, is log 8. -/
def Obligations.EnvironmentStepSetsSharedLinesOnly : Prop :=
  ∀ (s : State) (set : PerLine (Option LineState)) (rest : List Request), s.inbox = .env set :: rest →
    ∃ ls S, step s = .next { s with inbox := rest, lines := ls, trace := s.trace ++ [.env S] } ∧
      (∀ l, ls.get l = if s.cfg.shared.get l = true then (set.get l).getD (s.lines.get l) else s.lines.get l) ∧
      S = [Line.clk, .cs, .io0, .io1, .io2, .io3].filter fun l => ls.get l ≠ s.lines.get l

/-! ### The exception's registers -/

/-- 10_state.md R113, R114; 60_exceptions.md R714: a legal command writes neither STATUS nor BADCMD, whatever ERR is,
and runs the same whatever they hold. -/
def Obligations.LegalCommandsIgnoreAndKeepStatus : Prop :=
  ∀ (i : Instr) (s : State) (st : BitVec 8) (bad : CmdWord),
    ∃ t, exec i s = .next t ∧ t.status = s.status ∧ t.badcmd = s.badcmd ∧
      exec i { s with status := st, badcmd := bad } = .next { t with status := st, badcmd := bad }

/-- R714: ERR is sticky: it stays 1 in every step that does not reset the core. -/
def Obligations.ErrStaysSetUntilReset : Prop :=
  ∀ s t : State, s.status.getLsbD 0 = true → step s = .next t →
    t.status.getLsbD 0 = true ∨
    ∃ rest, s.inbox = .reset :: rest ∨ ∃ w k, s.inbox = .commandThenReset w k :: rest

/-- 10_state.md R111, R112: a command that is no writer of RESULT leaves it, and a command that is no writer of COUNT
leaves it. -/
def Obligations.OnlyWritersChangeResultAndCount : Prop :=
  ∀ (i : Instr) (s t : State), exec i s = .next t →
    (match i with
      | .pulserX1 | .pulserX2 | .pulserX4 | .pulsefdX1 _ | .pulsefdX2 _ | .pulsefdX4 _
      | .readbyte | .readdualbyte | .readquadbyte | .identify => True
      | _ => t.result = s.result) ∧
    (match i with
      | .readbytes _ | .readdualbytes _ | .readquadbytes _ | .qread _ _ => True
      | _ => t.count = s.count)

/-! ### Line Driver -/

/-- 40_line_driver.md R410 (with R400, R401): SETCS. -/
def Obligations.SetcsDrivesClockLowAndChipSelect : Prop :=
  ∀ (a : Bool) (s : State), s.resetAfter = none →
    exec (.setcs a) s = .next { s with
      lines := { s.lines with clk := ⟨.out, false⟩, cs := ⟨.out, !a⟩ }
      trace := s.trace ++ [.dir [.clk, .cs] .out, .drv [(.clk, false)], .drv [(.cs, !a)]] }

/-- R402: a second equal SETCS leaves the line state as the first left it, and its three events hold no edge. -/
def Obligations.SetcsTwiceIsIdempotentOnLines : Prop :=
  ∀ (a : Bool) (s : State), s.resetAfter = none →
    ∃ t u, exec (.setcs a) s = .next t ∧ exec (.setcs a) t = .next u ∧
      t.lines = { s.lines with clk := ⟨.out, false⟩, cs := ⟨.out, !a⟩ } ∧ u.lines = t.lines ∧
      u.trace.length = t.trace.length + 3 ∧
      ∀ l b, countEdges l b t.lines (newEvents t u) = 0

/-! ### Bit-Bang Engine -/

/-- 41_bitbang_engine.md R461 (with R450 to R453, R460): PULSEW at each width. -/
def Obligations.PulsewWritesOnePulse : Prop :=
  ∀ s : State, s.resetAfter = none →
    let T := s.cfg.tBit
    (∀ v : BitVec 1, exec (.pulsewX1 v) s = .next { s with
      lines := { s.lines with clk := { s.lines.clk with lat := false }, io0 := ⟨.out, v.getLsbD 0⟩ }
      trace := s.trace ++ [.dir [.io0] .out, .drv [(.io0, v.getLsbD 0)],
        .drv [(.clk, true)], .wait T, .drv [(.clk, false)], .wait T] }) ∧
    (∀ v : BitVec 2, exec (.pulsewX2 v) s = .next { s with
      lines := { s.lines with clk := { s.lines.clk with lat := false }, io0 := ⟨.out, v.getLsbD 0⟩,
                              io1 := ⟨.out, v.getLsbD 1⟩ }
      trace := s.trace ++ [.dir [.io0, .io1] .out, .drv [(.io0, v.getLsbD 0), (.io1, v.getLsbD 1)],
        .drv [(.clk, true)], .wait T, .drv [(.clk, false)], .wait T] }) ∧
    ∀ v : BitVec 4, exec (.pulsewX4 v) s = .next { s with
      lines := { s.lines with clk := { s.lines.clk with lat := false }, io0 := ⟨.out, v.getLsbD 0⟩,
                              io1 := ⟨.out, v.getLsbD 1⟩, io2 := ⟨.out, v.getLsbD 2⟩,
                              io3 := ⟨.out, v.getLsbD 3⟩ }
      trace := s.trace ++ [.dir [.io0, .io1, .io2, .io3] .out,
        .drv [(.io0, v.getLsbD 0), (.io1, v.getLsbD 1), (.io2, v.getLsbD 2), (.io3, v.getLsbD 3)],
        .drv [(.clk, true)], .wait T, .drv [(.clk, false)], .wait T] }

/-- R471 (with R450 to R453, R470): PULSER at each width. The sampled levels are any the outside may present; RESULT is
their value and the `SMP` event records them. -/
def Obligations.PulserSamplesThenClocks : Prop :=
  ∀ s : State, s.resetAfter = none →
    let T := s.cfg.tBit
    (∃ lv, mayPresent s 1 [lv] ∧ exec .pulserX1 s = .next { s with
      lines := { s.lines with clk := { s.lines.clk with lat := false }, io1 := { s.lines.io1 with mode := .inp } }
      result := BitVec.ofNat 16 lv.io1.toNat
      answers := s.answers.drop 1
      trace := s.trace ++ [.dir [.io1] .inp, .smp [(.io1, lv.io1)],
        .drv [(.clk, true)], .wait T, .drv [(.clk, false)], .wait T] }) ∧
    (∃ lv, mayPresent s 1 [lv] ∧ exec .pulserX2 s = .next { s with
      lines := { s.lines with clk := { s.lines.clk with lat := false }, io0 := { s.lines.io0 with mode := .inp },
                              io1 := { s.lines.io1 with mode := .inp } }
      result := BitVec.ofNat 16 (2 * lv.io1.toNat + lv.io0.toNat)
      answers := s.answers.drop 1
      trace := s.trace ++ [.dir [.io0, .io1] .inp, .smp [(.io0, lv.io0), (.io1, lv.io1)],
        .drv [(.clk, true)], .wait T, .drv [(.clk, false)], .wait T] }) ∧
    ∃ lv, mayPresent s 1 [lv] ∧ exec .pulserX4 s = .next { s with
      lines := { s.lines with clk := { s.lines.clk with lat := false }, io0 := { s.lines.io0 with mode := .inp },
                              io1 := { s.lines.io1 with mode := .inp }, io2 := { s.lines.io2 with mode := .inp },
                              io3 := { s.lines.io3 with mode := .inp } }
      result := BitVec.ofNat 16 (8 * lv.io3.toNat + 4 * lv.io2.toNat + 2 * lv.io1.toNat + lv.io0.toNat)
      answers := s.answers.drop 1
      trace := s.trace ++ [.dir [.io0, .io1, .io2, .io3] .inp,
        .smp [(.io0, lv.io0), (.io1, lv.io1), (.io2, lv.io2), (.io3, lv.io3)],
        .drv [(.clk, true)], .wait T, .drv [(.clk, false)], .wait T] }

/-- R481 (with R480): PULSEFD at each width: driven before the rising edge, released before the falling edge, sampled
after it. -/
def Obligations.PulsefdDrivesReleasesThenSamples : Prop :=
  ∀ s : State, s.resetAfter = none →
    let T := s.cfg.tBit
    (∀ v : BitVec 1, ∃ lv, mayPresent s 1 [lv] ∧ exec (.pulsefdX1 v) s = .next { s with
      lines := { s.lines with clk := { s.lines.clk with lat := false }, io0 := ⟨.inp, v.getLsbD 0⟩,
                              io1 := { s.lines.io1 with mode := .inp } }
      result := BitVec.ofNat 16 lv.io1.toNat
      answers := s.answers.drop 1
      trace := s.trace ++ [.dir [.io0] .out, .drv [(.io0, v.getLsbD 0)], .drv [(.clk, true)], .wait T,
        .dir [.io0, .io1] .inp, .drv [(.clk, false)], .smp [(.io1, lv.io1)], .wait T] }) ∧
    (∀ v : BitVec 2, ∃ lv, mayPresent s 1 [lv] ∧ exec (.pulsefdX2 v) s = .next { s with
      lines := { s.lines with clk := { s.lines.clk with lat := false }, io0 := ⟨.inp, v.getLsbD 0⟩,
                              io1 := ⟨.inp, v.getLsbD 1⟩ }
      result := BitVec.ofNat 16 (2 * lv.io1.toNat + lv.io0.toNat)
      answers := s.answers.drop 1
      trace := s.trace ++ [.dir [.io0, .io1] .out, .drv [(.io0, v.getLsbD 0), (.io1, v.getLsbD 1)],
        .drv [(.clk, true)], .wait T, .dir [.io0, .io1] .inp, .drv [(.clk, false)],
        .smp [(.io0, lv.io0), (.io1, lv.io1)], .wait T] }) ∧
    ∀ v : BitVec 4, ∃ lv, mayPresent s 1 [lv] ∧ exec (.pulsefdX4 v) s = .next { s with
      lines := { s.lines with clk := { s.lines.clk with lat := false }, io0 := ⟨.inp, v.getLsbD 0⟩,
                              io1 := ⟨.inp, v.getLsbD 1⟩, io2 := ⟨.inp, v.getLsbD 2⟩,
                              io3 := ⟨.inp, v.getLsbD 3⟩ }
      result := BitVec.ofNat 16 (8 * lv.io3.toNat + 4 * lv.io2.toNat + 2 * lv.io1.toNat + lv.io0.toNat)
      answers := s.answers.drop 1
      trace := s.trace ++ [.dir [.io0, .io1, .io2, .io3] .out,
        .drv [(.io0, v.getLsbD 0), (.io1, v.getLsbD 1), (.io2, v.getLsbD 2), (.io3, v.getLsbD 3)],
        .drv [(.clk, true)], .wait T, .dir [.io0, .io1, .io2, .io3] .inp, .drv [(.clk, false)],
        .smp [(.io0, lv.io0), (.io1, lv.io1), (.io2, lv.io2), (.io3, lv.io3)], .wait T] }

/-- R491 (with R490): DUMMY releases the four data lines with pull-ups once, then gives N clock pulses. -/
def Obligations.DummyReleasesThenClocks : Prop :=
  ∀ (n : BitVec 16) (s : State), s.resetAfter = none →
    let T := s.cfg.tBit
    exec (.dummy n) s = .next { s with
      lines := { s.lines with
        clk := if n = 0 then s.lines.clk else { s.lines.clk with lat := false }
        io0 := { s.lines.io0 with mode := .inPu }, io1 := { s.lines.io1 with mode := .inPu }
        io2 := { s.lines.io2 with mode := .inPu }, io3 := { s.lines.io3 with mode := .inPu } }
      trace := s.trace ++ .dir [.io0, .io1, .io2, .io3] .inPu ::
        (List.replicate n.toNat [.drv [(.clk, true)], .wait T, .drv [(.clk, false)], .wait T]).flatten }

/-! ### Lane Transfer Layer -/

/-- 42_lane_transfer.md R510 (with R500): SENDCMD leaves IO0 an output with the byte's last bit, and appends the events
of eight write pulses. -/
def Obligations.SendcmdWritesEightPulses : Prop :=
  ∀ (b : Byte) (s : State), s.resetAfter = none →
    exec (.sendcmd b) s = .next { s with
      lines := { s.lines with clk := { s.lines.clk with lat := false }, io0 := ⟨.out, b.getLsbD 0⟩ }
      trace := s.trace ++ [7, 6, 5, 4, 3, 2, 1, 0].flatMap fun k =>
        [.dir [.io0] .out, .drv [(.io0, b.getLsbD k)], .drv [(.clk, true)], .wait s.cfg.tBit,
         .drv [(.clk, false)], .wait s.cfg.tBit] }

/-- R510: at rising edge k of SENDCMD the latch of IO0 holds bit 7-k of the byte (95_test_vectors.md S1), when the
clock idles low as an output. -/
def Obligations.SendcmdReproducesTheByteMsbFirst : Prop :=
  ∀ (b : Byte) (s : State), s.resetAfter = none → s.lines.clk = ⟨.out, false⟩ →
    ∃ t, exec (.sendcmd b) s = .next t ∧
      latchAtRises .io0 s.lines (newEvents s t) = (List.range 8).map fun k => b.getLsbD (7 - k)

/-- R520 (with R501): READBYTE. -/
def Obligations.ReadbyteReceivesEightBitsMsbFirst : Prop :=
  ∀ s : State, s.resetAfter = none →
    ∃ lvs, mayPresent s 8 lvs ∧ exec .readbyte s = .next { s with
      lines := { s.lines with clk := { s.lines.clk with lat := false }, io1 := { s.lines.io1 with mode := .inp } }
      result := BitVec.ofNat 16 (received .x1 lvs)
      answers := s.answers.drop 8
      trace := s.trace ++ evReads s.cfg.tBit .x1 lvs }

/-- R521 (with R502): READDUALBYTE. -/
def Obligations.ReaddualbyteReceivesFourPairsMsbFirst : Prop :=
  ∀ s : State, s.resetAfter = none →
    ∃ lvs, mayPresent s 4 lvs ∧ exec .readdualbyte s = .next { s with
      lines := { s.lines with clk := { s.lines.clk with lat := false }, io0 := { s.lines.io0 with mode := .inp },
                              io1 := { s.lines.io1 with mode := .inp } }
      result := BitVec.ofNat 16 (received .x2 lvs)
      answers := s.answers.drop 4
      trace := s.trace ++ evReads s.cfg.tBit .x2 lvs }

/-- R522 (with R503): READQUADBYTE: the first nibble is the high one. -/
def Obligations.ReadquadbyteReceivesHighNibbleFirst : Prop :=
  ∀ s : State, s.resetAfter = none →
    ∃ hi lo, mayPresent s 2 [hi, lo] ∧ exec .readquadbyte s = .next { s with
      lines := { s.lines with clk := { s.lines.clk with lat := false }, io0 := { s.lines.io0 with mode := .inp },
                              io1 := { s.lines.io1 with mode := .inp }, io2 := { s.lines.io2 with mode := .inp },
                              io3 := { s.lines.io3 with mode := .inp } }
      result := BitVec.ofNat 16 (16 * received .x4 [hi] + received .x4 [lo])
      answers := s.answers.drop 2
      trace := s.trace ++ evRead s.cfg.tBit .x4 hi ++ evRead s.cfg.tBit .x4 lo }

/-- R540 (with R505): READBYTES reads n = min(L, C) bytes into buf[0] upward, leaves the other bytes, and sets COUNT to
n. -/
def Obligations.ReadbytesFillsTheBufferFromZero : Prop :=
  ∀ (l : BitVec 16) (s : State), s.resetAfter = none →
    let n := min l.toNat s.cfg.bufCap
    ∃ lvs m, mayPresent s (8 * n) lvs ∧
      exec (.readbytes l) s = .next { s with
        lines := if n = 0 then s.lines else
          { s.lines with clk := { s.lines.clk with lat := false }, io1 := { s.lines.io1 with mode := .inp } }
        count := BitVec.ofNat 16 n
        buf := m
        answers := s.answers.drop (8 * n)
        trace := s.trace ++ evReads s.cfg.tBit .x1 lvs } ∧
      ∀ j, Memory.read m j =
        if j < n then some (BitVec.ofNat 8 (received .x1 ((lvs.drop (8 * j)).take 8))) else s.buf.read j

/-- R541 (with R505): READDUALBYTES. -/
def Obligations.ReaddualbytesFillsTheBufferFromZero : Prop :=
  ∀ (l : BitVec 16) (s : State), s.resetAfter = none →
    let n := min l.toNat s.cfg.bufCap
    ∃ lvs m, mayPresent s (4 * n) lvs ∧
      exec (.readdualbytes l) s = .next { s with
        lines := if n = 0 then s.lines else
          { s.lines with clk := { s.lines.clk with lat := false }, io0 := { s.lines.io0 with mode := .inp },
                         io1 := { s.lines.io1 with mode := .inp } }
        count := BitVec.ofNat 16 n
        buf := m
        answers := s.answers.drop (4 * n)
        trace := s.trace ++ evReads s.cfg.tBit .x2 lvs } ∧
      ∀ j, Memory.read m j =
        if j < n then some (BitVec.ofNat 8 (received .x2 ((lvs.drop (4 * j)).take 4))) else s.buf.read j

/-- R542 (with R505): READQUADBYTES. -/
def Obligations.ReadquadbytesFillsTheBufferFromZero : Prop :=
  ∀ (l : BitVec 16) (s : State), s.resetAfter = none →
    let n := min l.toNat s.cfg.bufCap
    ∃ lvs m, mayPresent s (2 * n) lvs ∧
      exec (.readquadbytes l) s = .next { s with
        lines := if n = 0 then s.lines else
          { s.lines with clk := { s.lines.clk with lat := false }, io0 := { s.lines.io0 with mode := .inp },
                         io1 := { s.lines.io1 with mode := .inp }, io2 := { s.lines.io2 with mode := .inp },
                         io3 := { s.lines.io3 with mode := .inp } }
        count := BitVec.ofNat 16 n
        buf := m
        answers := s.answers.drop (2 * n)
        trace := s.trace ++ evReads s.cfg.tBit .x4 lvs } ∧
      ∀ j, Memory.read m j =
        if j < n then some (BitVec.ofNat 8 (received .x4 ((lvs.drop (2 * j)).take 2))) else s.buf.read j

/-- 20_memory.md R206: no command writes a buffer index at or above C, also where a reset cuts it. -/
def Obligations.NoCommandWritesPastTheBuffer : Prop :=
  ∀ (i : Instr) (s t : State) (j : Nat), exec i s = .next t → s.cfg.bufCap ≤ j → t.buf.read j = s.buf.read j

/-! ### NAND Command Protocol -/

/-- 43_nand_protocol.md R601 (with R600): IDENTIFY. RESULT is the 16 sampled bits, the first the most significant. -/
def Obligations.IdentifyReturnsSixteenBitsMsbFirst : Prop :=
  ∀ s : State, s.resetAfter = none →
    ∃ lvs, mayPresent s 16 lvs ∧ exec .identify s = .next { s with
      lines := { clk := ⟨.out, false⟩, cs := ⟨.out, true⟩, io0 := ⟨.inPu, true⟩,
                 io1 := { s.lines.io1 with mode := .inp }, io2 := { s.lines.io2 with mode := .inPu },
                 io3 := { s.lines.io3 with mode := .inPu } }
      result := BitVec.ofNat 16 (received .x1 lvs)
      answers := s.answers.drop 16
      trace := s.trace ++ evIdentify s.cfg.tBit lvs }

/-- R611 (with R610): LOADPAGE sends the opcode and the row, deasserts CS and waits T_LOAD; it samples nothing. -/
def Obligations.LoadpageSendsTheRowThenWaits : Prop :=
  ∀ (row : BitVec 24) (s : State), s.resetAfter = none →
    exec (.loadpage row) s = .next { s with
      lines := { s.lines with clk := ⟨.out, false⟩, cs := ⟨.out, true⟩, io0 := ⟨.out, row.getLsbD 0⟩ }
      trace := s.trace ++ evLoad s.cfg.tBit s.cfg.tLoad row }

/-- R621 (with R620): QREAD. The latch IO0 is left with is the last column bit. -/
def Obligations.QreadFillsTheBufferFromZero : Prop :=
  ∀ (col l : BitVec 16) (s : State), s.resetAfter = none →
    let n := min l.toNat s.cfg.bufCap
    let released := if n = 0 then Mode.inPu else Mode.inp
    ∃ lvs m, mayPresent s (2 * n) lvs ∧
      exec (.qread col l) s = .next { s with
        lines := { clk := ⟨.out, false⟩, cs := ⟨.out, true⟩, io0 := ⟨released, col.getLsbD 0⟩,
                   io1 := { s.lines.io1 with mode := released }, io2 := { s.lines.io2 with mode := released },
                   io3 := { s.lines.io3 with mode := released } }
        count := BitVec.ofNat 16 n
        buf := m
        answers := s.answers.drop (2 * n)
        trace := s.trace ++ evQuadRead s.cfg.tBit col lvs } ∧
      ∀ j, Memory.read m j =
        if j < n then some (BitVec.ofNat 8 (received .x4 ((lvs.drop (2 * j)).take 2))) else s.buf.read j

/-- R602: a frame has exactly two events that drive CS; from a state with CS deasserted it has exactly one assertion and
one deassertion of CS, and with CS already asserted no assertion and one deassertion. -/
def Obligations.EachFrameAssertsAndDeassertsOnce : Prop :=
  ∀ (i : Instr) (s : State), s.resetAfter = none →
    (i = .identify ∨ (∃ row, i = .loadpage row) ∨ ∃ col l, i = .qread col l) →
    ∃ t, exec i s = .next t ∧
      ((newEvents s t).filter fun e => decide (e = .drv [(.cs, false)] ∨ e = .drv [(.cs, true)])) =
        [.drv [(.cs, false)], .drv [(.cs, true)]] ∧
      assertions s.lines (newEvents s t) = (if s.lines.cs.lat then 1 else 0) ∧
      deassertions s.lines (newEvents s t) = 1

/-- R630: on return from a frame CS is deasserted and CLK is idle low, both outputs, whatever the lines were. -/
def Obligations.FramesLeaveTheBusIdle : Prop :=
  ∀ (i : Instr) (s : State), s.resetAfter = none →
    (i = .identify ∨ (∃ row, i = .loadpage row) ∨ ∃ col l, i = .qread col l) →
    ∃ t, exec i s = .next t ∧ t.lines.cs = ⟨.out, true⟩ ∧ t.lines.clk = ⟨.out, false⟩

/-- 20_memory.md R221 on the wire (30_encoding.md R323, R324): LOADPAGE puts its opcode and row on IO0 most significant
bit first at its 32 rising edges, and QREAD its opcode and column at its first 24, whatever the lines were. -/
def Obligations.FramesSendOpcodeAndAddressMsbFirst : Prop :=
  ∀ s : State, s.resetAfter = none →
    (∀ row : BitVec 24, ∃ t, exec (.loadpage row) s = .next t ∧
      latchAtRises .io0 s.lines (newEvents s t) =
        (List.range 32).map fun k => (0x13#8 ++ row).getLsbD (31 - k)) ∧
    ∀ col l : BitVec 16, ∃ t, exec (.qread col l) s = .next t ∧
      (latchAtRises .io0 s.lines (newEvents s t)).take 24 =
        (List.range 24).map fun k => (0x6B#8 ++ col).getLsbD (23 - k)

/-- 30_encoding.md R332: RAWIDENTIFY has the trace of IDENTIFY; its RESULT is the second byte alone. -/
def Obligations.RawIdentifyHasTheTraceOfIdentify : Prop :=
  ∀ s : State, s.resetAfter = none →
    ∃ t u, execAll rawIdentify s = .next t ∧ exec .identify s = .next u ∧
      t.trace = u.trace ∧ t.lines = u.lines ∧ t.result = u.result &&& 0x00FF

/-- 30_encoding.md R331: SENDADDR24 and SENDADDR16 put the address on IO0, most significant bit first, at 24 and 16
rising edges. -/
def Obligations.SendaddrSendsTheAddressMsbFirst : Prop :=
  ∀ s : State, s.resetAfter = none → s.lines.clk = ⟨.out, false⟩ →
    (∀ a : BitVec 24, ∃ t, execAll (sendAddr24 a) s = .next t ∧
      latchAtRises .io0 s.lines (newEvents s t) = (List.range 24).map fun k => a.getLsbD (23 - k)) ∧
    ∀ c : BitVec 16, ∃ t, execAll (sendAddr16 c) s = .next t ∧
      latchAtRises .io0 s.lines (newEvents s t) = (List.range 16).map fun k => c.getLsbD (15 - k)

/-- 43_nand_protocol.md R640: the chunks of a full-page read: ceil(P / C) of them, the k-th at column k*C with
min(C, P - k*C) bytes, and together they are the page's columns, each once and in order. -/
def Obligations.PageReadChunksCoverThePage : Prop :=
  ∀ P C : Nat, 1 ≤ P → 1 ≤ C →
    (chunks P C).length = (P + C - 1) / C ∧
    (∀ k, k < (P + C - 1) / C → (chunks P C)[k]? = some (k * C, min C (P - k * C))) ∧
    (∀ c ∈ chunks P C, 1 ≤ c.2 ∧ c.2 ≤ C) ∧
    ((chunks P C).flatMap fun c => (List.range c.2).map fun i => c.1 + i) = List.range P

/-! ### Rules over all commands -/

/-- 70_reset_and_hazards.md R831: the clock pulses of every command, when the clock idles low as an output; LOADPAGE ends
in the wait of T_LOAD; an illegal command has no event. -/
def Obligations.EveryCommandHasItsPulseCount : Prop :=
  (∀ (s t : State) (w : CmdWord) (rest : List Request) (c : Cause), s.inbox = .command w :: rest →
    decode w = .error c → step s = .next t → newEvents s t = []) ∧
  ∀ (i : Instr) (s : State), s.resetAfter = none → s.lines.clk = ⟨.out, false⟩ →
    ∃ t, exec i s = .next t ∧ risingEdges s.lines (newEvents s t) = pulseCount s.cfg.bufCap i ∧
      match i with
      | .loadpage _ => (newEvents s t).getLast? = some (.wait s.cfg.tLoad)
      | _ => True

/-- R832: a command of p pulses holds 2p waits of T_BIT, and LOADPAGE one of T_LOAD after them. -/
def Obligations.EveryCommandHoldsTwoWaitsAPulse : Prop :=
  ∀ (i : Instr) (s : State), s.resetAfter = none →
    ∃ t, exec i s = .next t ∧ waits (newEvents s t) =
      List.replicate (2 * pulseCount s.cfg.bufCap i) s.cfg.tBit ++
        (match i with
          | .loadpage _ => [s.cfg.tLoad]
          | _ => [])

/-- R820, R821: every event that drives a data line comes while the clock's latch is low and the line is an output,
when the clock idles low. -/
def Obligations.DataChangesOnlyWhileTheClockIsLow : Prop :=
  ∀ (i : Instr) (s t : State), s.resetAfter = none → s.lines.clk.lat = false → exec i s = .next t →
    ∀ (before rest : List Event) (v : LineBits), newEvents s t = before ++ .drv v :: rest →
      drivesData (.drv v) = true →
      (replay s.lines before).clk.lat = false ∧
      ∀ l b, (l, b) ∈ v → ((replay s.lines before).get l).mode = .out

/-- R822: every sample is followed by the rising edge of the same pulse, but for the sample of a full-duplex pulse;
10_state.md R104: no sampled line is an output. -/
def Obligations.SamplesPrecedeTheRisingEdge : Prop :=
  ∀ (i : Instr) (s t : State), s.resetAfter = none → exec i s = .next t →
    ∀ (before rest : List Event) (v : LineBits), newEvents s t = before ++ .smp v :: rest →
      (∀ l b, (l, b) ∈ v → ((replay s.lines before).get l).mode = .inp) ∧
      (match i with
        | .pulsefdX1 _ | .pulsefdX2 _ | .pulsefdX4 _ => rest = [.wait s.cfg.tBit]
        | _ => rest.head? = some (.drv [(.clk, true)]))

/-- 10_state.md R103: no command sets CLK or CS to an input: their modes stay as they are or become OUT, at every event
of the command. -/
def Obligations.NoCommandReleasesClockOrChipSelect : Prop :=
  ∀ (i : Instr) (s t : State), exec i s = .next t →
    (∀ S m, .dir S m ∈ newEvents s t → (Line.clk ∈ S ∨ Line.cs ∈ S) → m = .out) ∧
    (t.lines.clk.mode = s.lines.clk.mode ∨ t.lines.clk.mode = .out) ∧
    (t.lines.cs.mode = s.lines.cs.mode ∨ t.lines.cs.mode = .out)

/-- 60_exceptions.md R741: a command that begins with no `chipSelect` gives no edge of the clock while CLK is not an
output. -/
def Obligations.RawPulsesOnAReleasedClockGiveNoEdge : Prop :=
  ∀ (i : Instr) (s : State), s.resetAfter = none → s.lines.clk.mode ≠ .out →
    (match i with
      | .setcs _ | .identify | .loadpage _ | .qread _ _ => False
      | _ => True) →
    ∃ t, exec i s = .next t ∧ ∀ b, countEdges .clk b s.lines (newEvents s t) = 0

/-- The line state after a command is what its events say (10_state.md R101, 00_scope.md R19), also where a reset cuts
it. -/
def Obligations.LinesFollowTheEvents : Prop :=
  ∀ (i : Instr) (s t : State), exec i s = .next t → t.lines = replay s.lines (newEvents s t)

/-- 20_memory.md R203: no command reads the buffer: with another buffer content everything but the buffer comes out the
same. -/
def Obligations.NoCommandReadsTheBuffer : Prop :=
  ∀ (i : Instr) (s : State) (m : Memory),
    ∃ t m', exec i s = .next t ∧ exec i { s with buf := m } = .next { t with buf := m' }

/-- The device's answers never change what the core itself puts on the wire, nor STATUS, COUNT or which buffer bytes
are written (43_nand_protocol.md R632). -/
def Obligations.AnswersDoNotSteerTheCore : Prop :=
  ∀ (i : Instr) (s : State) (as : List Levels), s.resetAfter = none →
    ∃ t u, exec i s = .next t ∧ exec i { s with answers := as } = .next u ∧
      withoutSamples (newEvents s t) = withoutSamples (newEvents s u) ∧
      t.lines = u.lines ∧ t.count = u.count ∧ t.status = u.status ∧
      ∀ j, (t.buf.read j).isSome = (u.buf.read j).isSome

/-- 30_encoding.md R330: the assembler writes one command word for a command form, the word its operands give by R308,
and refuses an operand that does not fit its field. -/
def Obligations.AssemblerWritesTheWordOrRefuses : Prop :=
  ∀ cfg : Config,
    (∀ a, assemble cfg (.setcs a) = if a < 2 then some [.command (BitVec.ofNat 64 (0x01 * 2 ^ 56 + a))] else none) ∧
    (∀ w v, assemble cfg (.pulsew w v) = if v < 2 ^ w.lanes
      then some [.command (BitVec.ofNat 64 (0x02 * 2 ^ 56 + w.lanes / 2 * 2 ^ 54 + v))] else none) ∧
    (∀ w, assemble cfg (.pulser w) =
      some [.command (BitVec.ofNat 64 (0x03 * 2 ^ 56 + w.lanes / 2 * 2 ^ 54))]) ∧
    (∀ w v, assemble cfg (.pulsefd w v) = if v < 2 ^ w.lanes
      then some [.command (BitVec.ofNat 64 (0x04 * 2 ^ 56 + w.lanes / 2 * 2 ^ 54 + v))] else none) ∧
    (∀ n, assemble cfg (.dummy n) = if n < 65536
      then some [.command (BitVec.ofNat 64 (0x05 * 2 ^ 56 + n * 2 ^ 32))] else none) ∧
    (∀ b, assemble cfg (.sendcmd b) = if b < 256
      then some [.command (BitVec.ofNat 64 (0x10 * 2 ^ 56 + b))] else none) ∧
    (∀ l, assemble cfg (.readbytes l) = if l < 65536
      then some [.command (BitVec.ofNat 64 (0x12 * 2 ^ 56 + l * 2 ^ 32))] else none) ∧
    (∀ l, assemble cfg (.readdualbytes l) = if l < 65536
      then some [.command (BitVec.ofNat 64 (0x12 * 2 ^ 56 + 2 ^ 54 + l * 2 ^ 32))] else none) ∧
    (∀ l, assemble cfg (.readquadbytes l) = if l < 65536
      then some [.command (BitVec.ofNat 64 (0x12 * 2 ^ 56 + 2 * 2 ^ 54 + l * 2 ^ 32))] else none) ∧
    (∀ row, assemble cfg (.loadpage row) = if row < 2 ^ 24
      then some [.command (BitVec.ofNat 64 (0x21 * 2 ^ 56 + row))] else none) ∧
    ∀ col l, assemble cfg (.qread col l) = if col < 65536 ∧ l < 65536
      then some [.command (BitVec.ofNat 64 (0x22 * 2 ^ 56 + l * 2 ^ 32 + col))] else none
end

