-- ==== Sys2Proof/Laws/State.lean ====
section
/-! SUPPORT. What each update of the state does to each of its fields: true by rfl, so that no proof unfolds an
update. -/

namespace Sys2Proof.Machine

open Sys2Proof

@[simp] theorem emit_lines (e : Event) (s : State) : (emit e s).lines = s.lines := rfl
@[simp] theorem emit_result (e : Event) (s : State) : (emit e s).result = s.result := rfl
@[simp] theorem emit_count (e : Event) (s : State) : (emit e s).count = s.count := rfl
@[simp] theorem emit_status (e : Event) (s : State) : (emit e s).status = s.status := rfl
@[simp] theorem emit_badcmd (e : Event) (s : State) : (emit e s).badcmd = s.badcmd := rfl
@[simp] theorem emit_buf (e : Event) (s : State) : (emit e s).buf = s.buf := rfl
@[simp] theorem emit_trace (e : Event) (s : State) : (emit e s).trace = s.trace ++ [e] := rfl
@[simp] theorem emit_cfg (e : Event) (s : State) : (emit e s).cfg = s.cfg := rfl
@[simp] theorem emit_inbox (e : Event) (s : State) : (emit e s).inbox = s.inbox := rfl
@[simp] theorem emit_answers (e : Event) (s : State) : (emit e s).answers = s.answers := rfl
@[simp] theorem emit_replies (e : Event) (s : State) : (emit e s).replies = s.replies := rfl
@[simp] theorem emit_resetAfter (e : Event) (s : State) : (emit e s).resetAfter = s.resetAfter := rfl

@[simp] theorem reply_lines (r : Reply) (s : State) : (reply r s).lines = s.lines := rfl
@[simp] theorem reply_result (r : Reply) (s : State) : (reply r s).result = s.result := rfl
@[simp] theorem reply_count (r : Reply) (s : State) : (reply r s).count = s.count := rfl
@[simp] theorem reply_status (r : Reply) (s : State) : (reply r s).status = s.status := rfl
@[simp] theorem reply_badcmd (r : Reply) (s : State) : (reply r s).badcmd = s.badcmd := rfl
@[simp] theorem reply_buf (r : Reply) (s : State) : (reply r s).buf = s.buf := rfl
@[simp] theorem reply_trace (r : Reply) (s : State) : (reply r s).trace = s.trace := rfl
@[simp] theorem reply_cfg (r : Reply) (s : State) : (reply r s).cfg = s.cfg := rfl
@[simp] theorem reply_inbox (r : Reply) (s : State) : (reply r s).inbox = s.inbox := rfl
@[simp] theorem reply_answers (r : Reply) (s : State) : (reply r s).answers = s.answers := rfl
@[simp] theorem reply_replies (r : Reply) (s : State) : (reply r s).replies = s.replies ++ [r] := rfl
@[simp] theorem reply_resetAfter (r : Reply) (s : State) : (reply r s).resetAfter = s.resetAfter := rfl

@[simp] theorem raiseIllegal_lines (c : Cause) (w : CmdWord) (s : State) : (raiseIllegal c w s).lines = s.lines := rfl
@[simp] theorem raiseIllegal_result (c : Cause) (w : CmdWord) (s : State) : (raiseIllegal c w s).result = s.result := rfl
@[simp] theorem raiseIllegal_count (c : Cause) (w : CmdWord) (s : State) : (raiseIllegal c w s).count = s.count := rfl
@[simp] theorem raiseIllegal_status (c : Cause) (w : CmdWord) (s : State) : (raiseIllegal c w s).status = packStatus true (causeCode c) := rfl
@[simp] theorem raiseIllegal_badcmd (c : Cause) (w : CmdWord) (s : State) : (raiseIllegal c w s).badcmd = w := rfl
@[simp] theorem raiseIllegal_buf (c : Cause) (w : CmdWord) (s : State) : (raiseIllegal c w s).buf = s.buf := rfl
@[simp] theorem raiseIllegal_trace (c : Cause) (w : CmdWord) (s : State) : (raiseIllegal c w s).trace = s.trace := rfl
@[simp] theorem raiseIllegal_cfg (c : Cause) (w : CmdWord) (s : State) : (raiseIllegal c w s).cfg = s.cfg := rfl
@[simp] theorem raiseIllegal_inbox (c : Cause) (w : CmdWord) (s : State) : (raiseIllegal c w s).inbox = s.inbox := rfl
@[simp] theorem raiseIllegal_answers (c : Cause) (w : CmdWord) (s : State) : (raiseIllegal c w s).answers = s.answers := rfl
@[simp] theorem raiseIllegal_replies (c : Cause) (w : CmdWord) (s : State) : (raiseIllegal c w s).replies = s.replies := rfl
@[simp] theorem raiseIllegal_resetAfter (c : Cause) (w : CmdWord) (s : State) : (raiseIllegal c w s).resetAfter = s.resetAfter := rfl

@[simp] theorem applyReset_lines (s : State) : (applyReset s).lines = resetLines := rfl
@[simp] theorem applyReset_result (s : State) : (applyReset s).result = 0x0000 := rfl
@[simp] theorem applyReset_count (s : State) : (applyReset s).count = 0x0000 := rfl
@[simp] theorem applyReset_status (s : State) : (applyReset s).status = 0x00 := rfl
@[simp] theorem applyReset_badcmd (s : State) : (applyReset s).badcmd = 0x0000000000000000 := rfl
@[simp] theorem applyReset_buf (s : State) : (applyReset s).buf = s.buf := rfl
@[simp] theorem applyReset_trace (s : State) : (applyReset s).trace = s.trace ++ [.rst] := rfl
@[simp] theorem applyReset_cfg (s : State) : (applyReset s).cfg = s.cfg := rfl
@[simp] theorem applyReset_inbox (s : State) : (applyReset s).inbox = s.inbox := rfl
@[simp] theorem applyReset_answers (s : State) : (applyReset s).answers = s.answers := rfl
@[simp] theorem applyReset_replies (s : State) : (applyReset s).replies = s.replies := rfl
@[simp] theorem applyReset_resetAfter (s : State) : (applyReset s).resetAfter = none := rfl

@[simp] theorem environmentStep_lines (set : PerLine (Option LineState)) (s : State) : (environmentStep set s).lines = envLines set s := rfl
@[simp] theorem environmentStep_trace (set : PerLine (Option LineState)) (s : State) : (environmentStep set s).trace = s.trace ++ [.env (linesChanged s.lines (envLines set s))] := rfl
@[simp] theorem environmentStep_result (set : PerLine (Option LineState)) (s : State) : (environmentStep set s).result = s.result := rfl
@[simp] theorem environmentStep_count (set : PerLine (Option LineState)) (s : State) : (environmentStep set s).count = s.count := rfl
@[simp] theorem environmentStep_status (set : PerLine (Option LineState)) (s : State) : (environmentStep set s).status = s.status := rfl
@[simp] theorem environmentStep_badcmd (set : PerLine (Option LineState)) (s : State) : (environmentStep set s).badcmd = s.badcmd := rfl
@[simp] theorem environmentStep_buf (set : PerLine (Option LineState)) (s : State) : (environmentStep set s).buf = s.buf := rfl
@[simp] theorem environmentStep_cfg (set : PerLine (Option LineState)) (s : State) : (environmentStep set s).cfg = s.cfg := rfl
@[simp] theorem environmentStep_inbox (set : PerLine (Option LineState)) (s : State) : (environmentStep set s).inbox = s.inbox := rfl
@[simp] theorem environmentStep_answers (set : PerLine (Option LineState)) (s : State) : (environmentStep set s).answers = s.answers := rfl
@[simp] theorem environmentStep_replies (set : PerLine (Option LineState)) (s : State) : (environmentStep set s).replies = s.replies := rfl
@[simp] theorem environmentStep_resetAfter (set : PerLine (Option LineState)) (s : State) : (environmentStep set s).resetAfter = s.resetAfter := rfl

/-- The line an environment step leaves (60_exceptions.md R740). -/
theorem envLines_get (set : PerLine (Option LineState)) (s : State) (l : Line) : (envLines set s).get l =
    if s.cfg.shared.get l = true then (set.get l).getD (s.lines.get l) else s.lines.get l := by cases l <;> rfl

/-- The lines changed are those that differ, and no other. -/
theorem mem_linesChanged (before after : Lines) (l : Line) :
    l ∈ linesChanged before after ↔ after.get l ≠ before.get l := by
  cases l <;> simp [linesChanged, Line.all]

@[simp] theorem withFetchWord_lines (s : State) (nbits w : Nat) : (s.withFetchWord nbits w).lines = s.lines := rfl
@[simp] theorem withFetchWord_result (s : State) (nbits w : Nat) : (s.withFetchWord nbits w).result = s.result := rfl
@[simp] theorem withFetchWord_count (s : State) (nbits w : Nat) : (s.withFetchWord nbits w).count = s.count := rfl
@[simp] theorem withFetchWord_status (s : State) (nbits w : Nat) : (s.withFetchWord nbits w).status = s.status := rfl
@[simp] theorem withFetchWord_badcmd (s : State) (nbits w : Nat) : (s.withFetchWord nbits w).badcmd = s.badcmd := rfl
@[simp] theorem withFetchWord_buf (s : State) (nbits w : Nat) : (s.withFetchWord nbits w).buf = s.buf := rfl
@[simp] theorem withFetchWord_trace (s : State) (nbits w : Nat) : (s.withFetchWord nbits w).trace = s.trace := rfl
@[simp] theorem withFetchWord_cfg (s : State) (nbits w : Nat) : (s.withFetchWord nbits w).cfg = s.cfg := rfl
@[simp] theorem withFetchWord_inbox (s : State) (nbits w : Nat) : (s.withFetchWord nbits w).inbox = .command (BitVec.ofNat 64 (w % 2 ^ nbits)) :: s.inbox := rfl
@[simp] theorem withFetchWord_answers (s : State) (nbits w : Nat) : (s.withFetchWord nbits w).answers = s.answers := rfl
@[simp] theorem withFetchWord_replies (s : State) (nbits w : Nat) : (s.withFetchWord nbits w).replies = s.replies := rfl
@[simp] theorem withFetchWord_resetAfter (s : State) (nbits w : Nat) : (s.withFetchWord nbits w).resetAfter = s.resetAfter := rfl

end Sys2Proof.Machine
end

