-- ==== Sys2Proof/Laws/Wire.lean ====
section
/-! SUPPORT. What each event of the sequences does to the line-state file, and the small facts on nibbles. -/

namespace Sys2Proof.Machine

open Sys2Proof

@[simp] theorem setLats_clk (ls : Lines) (b : Bool) :
    ls.setLats [(.clk, b)] = { ls with clk := { ls.clk with lat := b } } := rfl

@[simp] theorem setLats_cs (ls : Lines) (b : Bool) :
    ls.setLats [(.cs, b)] = { ls with cs := { ls.cs with lat := b } } := rfl

@[simp] theorem setLats_io0 (ls : Lines) (b : Bool) :
    ls.setLats [(.io0, b)] = { ls with io0 := { ls.io0 with lat := b } } := rfl

@[simp] theorem setLats_io01 (ls : Lines) (a b : Bool) :
    ls.setLats [(.io0, a), (.io1, b)] =
      { ls with io0 := { ls.io0 with lat := a }, io1 := { ls.io1 with lat := b } } := rfl

@[simp] theorem setLats_data (ls : Lines) (a b c d : Bool) :
    ls.setLats [(.io0, a), (.io1, b), (.io2, c), (.io3, d)] =
      { ls with io0 := { ls.io0 with lat := a }, io1 := { ls.io1 with lat := b },
                io2 := { ls.io2 with lat := c }, io3 := { ls.io3 with lat := d } } := rfl

@[simp] theorem setModes_clk_cs (ls : Lines) (m : Mode) :
    ls.setModes [.clk, .cs] m = { ls with clk := { ls.clk with mode := m }, cs := { ls.cs with mode := m } } := rfl

@[simp] theorem setModes_io0 (ls : Lines) (m : Mode) :
    ls.setModes [.io0] m = { ls with io0 := { ls.io0 with mode := m } } := rfl

@[simp] theorem setModes_io1 (ls : Lines) (m : Mode) :
    ls.setModes [.io1] m = { ls with io1 := { ls.io1 with mode := m } } := rfl

@[simp] theorem setModes_io01 (ls : Lines) (m : Mode) :
    ls.setModes [.io0, .io1] m =
      { ls with io0 := { ls.io0 with mode := m }, io1 := { ls.io1 with mode := m } } := rfl

@[simp] theorem setModes_data (ls : Lines) (m : Mode) :
    ls.setModes [.io0, .io1, .io2, .io3] m =
      { ls with io0 := { ls.io0 with mode := m }, io1 := { ls.io1 with mode := m },
                io2 := { ls.io2 with mode := m }, io3 := { ls.io3 with mode := m } } := rfl

@[simp] theorem eventLines_dir (ls : Lines) (S : List Line) (m : Mode) :
    eventLines ls (.dir S m) = ls.setModes S m := rfl
@[simp] theorem eventLines_drv (ls : Lines) (v : LineBits) : eventLines ls (.drv v) = ls.setLats v := rfl
@[simp] theorem eventLines_smp (ls : Lines) (v : LineBits) : eventLines ls (.smp v) = ls := rfl
@[simp] theorem eventLines_wait (ls : Lines) (t : Nat) : eventLines ls (.wait t) = ls := rfl

@[simp] theorem get_clk {α : Type} (p : PerLine α) : p.get .clk = p.clk := rfl
@[simp] theorem get_cs {α : Type} (p : PerLine α) : p.get .cs = p.cs := rfl
@[simp] theorem get_io0 {α : Type} (p : PerLine α) : p.get .io0 = p.io0 := rfl
@[simp] theorem get_io1 {α : Type} (p : PerLine α) : p.get .io1 = p.io1 := rfl
@[simp] theorem get_io2 {α : Type} (p : PerLine α) : p.get .io2 = p.io2 := rfl
@[simp] theorem get_io3 {α : Type} (p : PerLine α) : p.get .io3 = p.io3 := rfl

@[simp] theorem replay_nil (ls : Lines) : replay ls [] = ls := rfl
@[simp] theorem replay_cons (ls : Lines) (e : Event) (es : List Event) :
    replay ls (e :: es) = replay (eventLines ls e) es := rfl
@[simp] theorem replay_append (ls : Lines) (es fs : List Event) :
    replay ls (es ++ fs) = replay (replay ls es) fs := by simp [replay]

@[simp] theorem nibble_low (b : Bool) : (nibble false false false b).getLsbD 0 = b := by cases b <;> decide

@[simp] theorem nibble_low_getElem (b : Bool) : (nibble false false false b)[0] = b := by cases b <;> decide

/-- Along two lists of events, edges add up. -/
theorem countEdges_append (l : Line) (b : Bool) (ls : Lines) (es fs : List Event) :
    countEdges l b ls (es ++ fs) = countEdges l b ls es + countEdges l b (replay ls es) fs := by
  induction es generalizing ls with
  | nil => simp [countEdges]
  | cons e es ih => simp [countEdges, ih, Nat.add_assoc]

/-- Along two lists of events, the latches at rising edges follow one another. -/
theorem latchAtRises_append (l : Line) (ls : Lines) (es fs : List Event) :
    latchAtRises l ls (es ++ fs) = latchAtRises l ls es ++ latchAtRises l (replay ls es) fs := by
  induction es generalizing ls with
  | nil => rfl
  | cons e es ih => simp [latchAtRises, ih]

/-! ### The line state after each sequence -/

theorem replay_evChipSelect (ls : Lines) (a : Bool) :
    replay ls (evChipSelect a) = { ls with clk := ⟨.out, false⟩, cs := ⟨.out, !a⟩ } := rfl

theorem replay_evClock (ls : Lines) (T : Nat) :
    replay ls (evClock T) = { ls with clk := { ls.clk with lat := false } } := rfl

theorem replay_evClocks (ls : Lines) (T n : Nat) : replay ls (List.replicate n (evClock T)).flatten =
    if n = 0 then ls else { ls with clk := { ls.clk with lat := false } } := by
  induction n generalizing ls with
  | zero => rfl
  | succ n ih =>
    rw [List.replicate_succ, List.flatten_cons, replay_append, ih, replay_evClock]
    simp

theorem replay_evDummy (ls : Lines) (T n : Nat) : replay ls (evDummy T n) =
    { ls with clk := if n = 0 then ls.clk else { ls.clk with lat := false }
              io0 := { ls.io0 with mode := .inPu }, io1 := { ls.io1 with mode := .inPu }
              io2 := { ls.io2 with mode := .inPu }, io3 := { ls.io3 with mode := .inPu } } := by
  simp only [evDummy, replay_cons, replay_evClocks]
  split <;> rfl

theorem replay_evWrite_x1 (ls : Lines) (T : Nat) (v : BitVec 4) : replay ls (evWrite T .x1 v) =
    { ls with clk := { ls.clk with lat := false }, io0 := ⟨.out, v.getLsbD 0⟩ } := rfl

theorem replay_evSend (ls : Lines) (T : Nat) (b : Byte) : replay ls (evSend T b) =
    { ls with clk := { ls.clk with lat := false }, io0 := ⟨.out, b.getLsbD 0⟩ } := by
  simp [evSend, replay_evWrite_x1]

theorem replay_evRead_x1 (ls : Lines) (T : Nat) (lv : Levels) : replay ls (evRead T .x1 lv) =
    { ls with clk := { ls.clk with lat := false }, io1 := { ls.io1 with mode := .inp } } := rfl

theorem replay_evRead_x2 (ls : Lines) (T : Nat) (lv : Levels) : replay ls (evRead T .x2 lv) =
    { ls with clk := { ls.clk with lat := false }, io0 := { ls.io0 with mode := .inp },
              io1 := { ls.io1 with mode := .inp } } := rfl

theorem replay_evRead_x4 (ls : Lines) (T : Nat) (lv : Levels) : replay ls (evRead T .x4 lv) =
    { ls with clk := { ls.clk with lat := false }, io0 := { ls.io0 with mode := .inp },
              io1 := { ls.io1 with mode := .inp }, io2 := { ls.io2 with mode := .inp },
              io3 := { ls.io3 with mode := .inp } } := rfl

/-- Read pulses in a row leave the lines as one does, if there is one. -/
theorem replay_evReads (ls : Lines) (T : Nat) (w : LaneWidth) (lvs : List Levels) (lv : Levels) :
    replay ls (evReads T w lvs) = if lvs = [] then ls else replay ls (evRead T w lv) := by
  induction lvs generalizing ls with
  | nil => rfl
  | cons a lvs ih =>
    simp only [evReads, List.flatMap_cons, replay_append, reduceCtorEq, if_false]
    rw [show List.flatMap (evRead T w) lvs = evReads T w lvs from rfl, ih]
    cases w <;> split <;> rfl

end Sys2Proof.Machine
end

