-- ==== Sys2Proof/Laws/Sequences.lean ====
section
/-! SUPPORT. What each wire sequence does when no reset cuts it: one lemma per sequence, which says everything it can
do. Every sequence only appends events, moves the lines as its events say, and takes samples from the answers. -/

namespace Sys2Proof.Machine

open Sys2Proof

/-- `s` after the events `es`, `n` of them samples. -/
def after (s : State) (es : List Event) (n : Nat) : State :=
  { s with lines := replay s.lines es, trace := s.trace ++ es, answers := s.answers.drop n }

@[simp] theorem after_lines (s : State) (es : List Event) (n : Nat) : (after s es n).lines = replay s.lines es := rfl
@[simp] theorem after_result (s : State) (es : List Event) (n : Nat) : (after s es n).result = s.result := rfl
@[simp] theorem after_count (s : State) (es : List Event) (n : Nat) : (after s es n).count = s.count := rfl
@[simp] theorem after_status (s : State) (es : List Event) (n : Nat) : (after s es n).status = s.status := rfl
@[simp] theorem after_badcmd (s : State) (es : List Event) (n : Nat) : (after s es n).badcmd = s.badcmd := rfl
@[simp] theorem after_buf (s : State) (es : List Event) (n : Nat) : (after s es n).buf = s.buf := rfl
@[simp] theorem after_trace (s : State) (es : List Event) (n : Nat) : (after s es n).trace = s.trace ++ es := rfl
@[simp] theorem after_cfg (s : State) (es : List Event) (n : Nat) : (after s es n).cfg = s.cfg := rfl
@[simp] theorem after_inbox (s : State) (es : List Event) (n : Nat) : (after s es n).inbox = s.inbox := rfl
@[simp] theorem after_answers (s : State) (es : List Event) (n : Nat) :
    (after s es n).answers = s.answers.drop n := rfl
@[simp] theorem after_replies (s : State) (es : List Event) (n : Nat) : (after s es n).replies = s.replies := rfl
@[simp] theorem after_resetAfter (s : State) (es : List Event) (n : Nat) :
    (after s es n).resetAfter = s.resetAfter := rfl

/-- Two runs after one another. -/
@[simp] theorem after_after (s : State) (es fs : List Event) (m n : Nat) :
    after (after s es m) fs n = after s (es ++ fs) (m + n) := by
  simp [after, List.append_assoc]

theorem act_idle {s : State} (h : s.resetAfter = none) (f : State → State) : act f s = f s := by
  simp [act, h]

theorem setDir_idle {s : State} (h : s.resetAfter = none) (S : List Line) (m : Mode) :
    setDir S m s = after s [.dir S m] 0 := by
  rw [setDir, act_idle h]; rfl

theorem drive_idle {s : State} (h : s.resetAfter = none) (v : LineBits) : drive v s = after s [.drv v] 0 := by
  rw [drive, act_idle h]; rfl

theorem delay_idle {s : State} (h : s.resetAfter = none) (t : Nat) : delay t s = after s [.wait t] 0 := by
  rw [delay, act_idle h]; rfl

theorem sampleAction_idle {s : State} (h : s.resetAfter = none) (S : List Line) :
    sampleAction S s = after s [.smp ((presented S s).restrict S)] 1 := by
  rw [sampleAction, act_idle h]; simp [after, emit, eventLines]

theorem memWrite_idle {s : State} (h : s.resetAfter = none) (i : Nat) (v : Byte) :
    memWrite i v s = { s with buf := s.buf.write i v } := by
  rw [memWrite, act_idle h]

theorem writeResult_idle {s : State} (h : s.resetAfter = none) (v : Half) :
    writeResult v s = { s with result := v } := by
  simp [writeResult, h]

theorem writeCount_idle {s : State} (h : s.resetAfter = none) (v : Half) :
    writeCount v s = { s with count := v } := by
  simp [writeCount, h]

theorem chipSelect_idle {s : State} (h : s.resetAfter = none) (a : Bool) :
    chipSelect a s = after s (evChipSelect a) 0 := by
  simp [chipSelect, setDir_idle, drive_idle, h, evChipSelect]

theorem clockPulse_idle {s : State} (h : s.resetAfter = none) :
    clockPulse s = after s (evClock s.cfg.tBit) 0 := by
  simp [clockPulse, delay_idle, drive_idle, h, evClock]

theorem pulseWrite_idle {s : State} (h : s.resetAfter = none) (w : LaneWidth) (v : BitVec 4) :
    pulseWrite w v s = after s (evWrite s.cfg.tBit w v) 0 := by
  simp [pulseWrite, setDir_idle, drive_idle, clockPulse_idle, h, evWrite]

theorem clockPulses_idle {s : State} (h : s.resetAfter = none) (n : Nat) :
    clockPulses n s = after s (List.replicate n (evClock s.cfg.tBit)).flatten 0 := by
  induction n generalizing s with
  | zero => simp [clockPulses, after]
  | succ n ih => simp [clockPulses, clockPulse_idle h, ih, h, List.replicate_succ]

theorem dummy_idle {s : State} (h : s.resetAfter = none) (n : Nat) :
    dummy n s = after s (evDummy s.cfg.tBit n) 0 := by
  simp [dummy, setDir_idle h, clockPulses_idle, h, evDummy]

theorem sendByte_idle {s : State} (h : s.resetAfter = none) (b : Byte) :
    sendByte b s = after s (evSend s.cfg.tBit b) 0 := by
  simp [sendByte, sendBits, pulseWrite_idle, h, evSend]

/-! ### Samples -/

theorem mayPresent_zero (s : State) : mayPresent s 0 [] := by simp [mayPresent]

/-- Samples in a row: those of a run, then those of the state it leaves. -/
theorem mayPresent_append {s : State} {es : List Event} {m n : Nat} {l₁ l₂ : List Levels}
    (h₁ : mayPresent s m l₁) (h₂ : mayPresent (after s es m) n l₂) : mayPresent s (m + n) (l₁ ++ l₂) := by
  obtain ⟨hl₁, hp₁⟩ := h₁
  obtain ⟨hl₂, hp₂⟩ := h₂
  refine ⟨by simp [hl₁, hl₂], ?_⟩
  simp only [after_answers] at hp₂
  rw [List.take_add]
  rcases Nat.lt_or_ge s.answers.length m with hlt | hge
  · rw [List.drop_of_length_le (Nat.le_of_lt hlt), List.take_nil, List.append_nil]
    exact hp₁.trans (List.prefix_append _ _)
  · have : s.answers.take m = l₁ := hp₁.eq_of_length (by simp [hl₁, hge])
    rw [this]
    exact (List.prefix_append_right_inj _).2 hp₂

/-- One more field of the state between samples does not matter. -/
theorem mayPresent_congr {s t : State} (h : s.answers = t.answers) {n : Nat} {l : List Levels} :
    mayPresent s n l ↔ mayPresent t n l := by simp [mayPresent, h]

theorem mayPresent_presented (S : List Line) (s : State) : mayPresent s 1 [presented S s] := by
  refine ⟨rfl, ?_⟩
  unfold presented
  cases s.answers <;> simp

theorem pulseRead_idle {s : State} (h : s.resetAfter = none) (w : LaneWidth) :
    ∃ lv, mayPresent s 1 [lv] ∧ pulseRead w s = (unmap w lv, after s (evRead s.cfg.tBit w lv) 1) := by
  refine ⟨presented (readSet w) (setDir (readSet w) .inp s), ?_, ?_⟩
  · rw [setDir_idle h]
    exact (mayPresent_congr (by simp)).1 (mayPresent_presented _ _)
  · simp [pulseRead, sample, setDir_idle h, sampleAction_idle, clockPulse_idle, h, evRead]

theorem pulseFullDuplex_idle {s : State} (h : s.resetAfter = none) (w : LaneWidth) (v : BitVec 4) :
    ∃ lv, mayPresent s 1 [lv] ∧
      pulseFullDuplex w v s = (unmap w lv, after s (evDuplex s.cfg.tBit w v lv) 1) := by
  refine ⟨presented (readSet w) (after s [.dir (writeSet w) .out, .drv (laneMap w v), .drv [(.clk, true)],
    .wait s.cfg.tBit, .dir (activeSet w) .inp, .drv [(.clk, false)]] 0), ?_, ?_⟩
  · exact (mayPresent_congr (by simp)).1 (mayPresent_presented _ _)
  · simp [pulseFullDuplex, sample, setDir_idle, drive_idle, delay_idle, sampleAction_idle, h, evDuplex]

/-! ### Bytes -/

/-- The value of one sample is that of its bits. -/
theorem unmap_received (w : LaneWidth) (lv : Levels) : (unmap w lv).toNat = received w [lv] := by
  obtain ⟨a, b, c, d, e, f⟩ := lv
  cases w <;> revert c d e f <;> decide +revert

theorem evReads_nil (T : Nat) (w : LaneWidth) : evReads T w [] = [] := rfl

theorem evReads_cons (T : Nat) (w : LaneWidth) (lv : Levels) (lvs : List Levels) :
    evReads T w (lv :: lvs) = evRead T w lv ++ evReads T w lvs := by simp [evReads]

theorem evReads_append (T : Nat) (w : LaneWidth) (l₁ l₂ : List Levels) :
    evReads T w (l₁ ++ l₂) = evReads T w l₁ ++ evReads T w l₂ := by simp [evReads]

/-- A read pulse, then samples of the state it leaves. -/
theorem mayPresent_cons {s : State} {es : List Event} {n : Nat} {lv : Levels} {l : List Levels}
    (h₁ : mayPresent s 1 [lv]) (h₂ : mayPresent (after s es 1) n l) : mayPresent s (n + 1) (lv :: l) := by
  have := mayPresent_append h₁ h₂
  rwa [Nat.add_comm] at this

/-- The byte of the x1 samples that follow the first bits of a byte. -/
def foldBits : Nat → Byte → List Levels → Byte
  | k + 1, r, lv :: lvs => foldBits k (setBit r k lv.io1) lvs
  | _, r, _ => r

theorem rxBits_idle {s : State} (h : s.resetAfter = none) (k : Nat) (r : Byte) :
    ∃ lvs, mayPresent s k lvs ∧ rxBits k r s = (foldBits k r lvs, after s (evReads s.cfg.tBit .x1 lvs) k) := by
  induction k generalizing s r with
  | zero => exact ⟨[], mayPresent_zero s, by simp [rxBits, foldBits, evReads_nil, after]⟩
  | succ k ih =>
    obtain ⟨lv, hp, hr⟩ := pulseRead_idle h .x1
    obtain ⟨lvs, hps, hrs⟩ := ih (s := after s (evRead s.cfg.tBit .x1 lv) 1) h (setBit r k lv.io1)
    refine ⟨lv :: lvs, mayPresent_cons hp hps, ?_⟩
    simp only [rxBits, hr, unmap, nibble_low, hrs, foldBits, evReads_cons, after_after, after_cfg, Nat.add_comm 1 k]

/-- The byte of the x2 samples that follow the first pairs of a byte. -/
def foldPairs (r : Byte) (lvs : List Levels) : Byte := lvs.foldl (fun r lv => shiftPair r (unmap .x2 lv)) r

theorem rxPairs_idle {s : State} (h : s.resetAfter = none) (k : Nat) (r : Byte) :
    ∃ lvs, mayPresent s k lvs ∧ rxPairs k r s = (foldPairs r lvs, after s (evReads s.cfg.tBit .x2 lvs) k) := by
  induction k generalizing s r with
  | zero => exact ⟨[], mayPresent_zero s, by simp [rxPairs, foldPairs, evReads_nil, after]⟩
  | succ k ih =>
    obtain ⟨lv, hp, hr⟩ := pulseRead_idle h .x2
    obtain ⟨lvs, hps, hrs⟩ := ih (s := after s (evRead s.cfg.tBit .x2 lv) 1) h (shiftPair r (unmap .x2 lv))
    refine ⟨lv :: lvs, mayPresent_cons hp hps, ?_⟩
    simp only [rxPairs, hr, hrs, foldPairs, evReads_cons, after_after, after_cfg, Nat.add_comm 1 k, List.foldl_cons]

theorem foldBits_received : ∀ a b c d e f g h : Bool,
    setBit (setBit (setBit (setBit (setBit (setBit (setBit (setBit 0 7 a) 6 b) 5 c) 4 d) 3 e) 2 f) 1 g) 0 h =
      BitVec.ofNat 8 (ofBitsMsbFirst [a, b, c, d, e, f, g, h]) := by decide

theorem foldPairs_received : ∀ a b c d e f g h : Bool,
    shiftPair (shiftPair (shiftPair (shiftPair 0 (nibble false false a b)) (nibble false false c d))
      (nibble false false e f)) (nibble false false g h) =
      BitVec.ofNat 8 (ofBitsMsbFirst [a, b, c, d, e, f, g, h]) := by decide

theorem joinNibbles_received : ∀ a b c d e f g h : Bool,
    joinNibbles (nibble a b c d) (nibble e f g h) = BitVec.ofNat 8 (ofBitsMsbFirst [a, b, c, d, e, f, g, h]) := by
  decide

theorem rxByte1_idle {s : State} (h : s.resetAfter = none) :
    ∃ lvs, mayPresent s 8 lvs ∧
      rxByte1 s = (BitVec.ofNat 8 (received .x1 lvs), after s (evReads s.cfg.tBit .x1 lvs) 8) := by
  obtain ⟨lvs, hp, hr⟩ := rxBits_idle h 8 0
  refine ⟨lvs, hp, ?_⟩
  rw [rxByte1, hr]
  match lvs, hp.1 with
  | [a, b, c, d, e, f, g, i], _ =>
    exact Prod.ext (foldBits_received a.io1 b.io1 c.io1 d.io1 e.io1 f.io1 g.io1 i.io1) rfl

theorem rxByte2_idle {s : State} (h : s.resetAfter = none) :
    ∃ lvs, mayPresent s 4 lvs ∧
      rxByte2 s = (BitVec.ofNat 8 (received .x2 lvs), after s (evReads s.cfg.tBit .x2 lvs) 4) := by
  obtain ⟨lvs, hp, hr⟩ := rxPairs_idle h 4 0
  refine ⟨lvs, hp, ?_⟩
  rw [rxByte2, hr]
  match lvs, hp.1 with
  | [a, b, c, d], _ =>
    exact Prod.ext (foldPairs_received a.io1 a.io0 b.io1 b.io0 c.io1 c.io0 d.io1 d.io0) rfl

theorem rxByte4_idle {s : State} (h : s.resetAfter = none) :
    ∃ lvs, mayPresent s 2 lvs ∧
      rxByte4 s = (BitVec.ofNat 8 (received .x4 lvs), after s (evReads s.cfg.tBit .x4 lvs) 2) := by
  obtain ⟨a, hpa, hra⟩ := pulseRead_idle h .x4
  obtain ⟨b, hpb, hrb⟩ := pulseRead_idle (s := after s (evRead s.cfg.tBit .x4 a) 1) h .x4
  refine ⟨[a, b], mayPresent_cons hpa hpb, ?_⟩
  simp only [rxByte4, hra, hrb, after_after, after_cfg, evReads_cons, evReads_nil, List.append_nil]
  exact Prod.ext (joinNibbles_received a.io3 a.io2 a.io1 a.io0 b.io3 b.io2 b.io1 b.io0) rfl

theorem rxByte_idle {s : State} (h : s.resetAfter = none) (w : LaneWidth) :
    ∃ lvs, mayPresent s (pulsesPerByte w) lvs ∧
      rxByte w s = (BitVec.ofNat 8 (received w lvs), after s (evReads s.cfg.tBit w lvs) (pulsesPerByte w)) := by
  cases w
  · exact rxByte1_idle h
  · exact rxByte2_idle h
  · exact rxByte4_idle h

/-! ### Bulk reads -/

/-- A run and a new buffer content. -/
def afterWith (s : State) (es : List Event) (n : Nat) (m : Memory) : State := { after s es n with buf := m }

theorem byteSamples_zero (w : LaneWidth) {l₁ l₂ : List Levels} (h : l₁.length = pulsesPerByte w) :
    byteSamples w 0 (l₁ ++ l₂) = l₁ := by
  simp [byteSamples, ← h]

theorem byteSamples_succ (w : LaneWidth) (i : Nat) {l₁ l₂ : List Levels} (h : l₁.length = pulsesPerByte w) :
    byteSamples w (i + 1) (l₁ ++ l₂) = byteSamples w i l₂ := by
  simp only [byteSamples]
  rw [Nat.add_mul, Nat.one_mul, Nat.add_comm, ← h, ← List.drop_drop, List.drop_left]

/-- `n` bytes from index `i`: their samples, their events, and every byte of the buffer afterwards. -/
theorem rxInto_idle {s : State} (h : s.resetAfter = none) (w : LaneWidth) (n i : Nat) :
    ∃ lvs m, mayPresent s (n * pulsesPerByte w) lvs ∧
      rxInto w n i s = afterWith s (evReads s.cfg.tBit w lvs) (n * pulsesPerByte w) m ∧
      ∀ j, m.read j = if i ≤ j ∧ j < i + n then some (BitVec.ofNat 8 (received w (byteSamples w (j - i) lvs)))
        else s.buf.read j := by
  induction n generalizing s i with
  | zero =>
    refine ⟨[], s.buf, by simpa using mayPresent_zero s, by simp [rxInto, evReads_nil, after, afterWith], ?_⟩
    intro j
    rw [if_neg (by omega)]
  | succ n ih =>
    obtain ⟨l₁, hp₁, hr₁⟩ := rxByte_idle h w
    let b : Byte := BitVec.ofNat 8 (received w l₁)
    let s₁ : State := afterWith s (evReads s.cfg.tBit w l₁) (pulsesPerByte w) (s.buf.write i b)
    obtain ⟨l₂, m, hp₂, hr₂, hm⟩ := ih (s := s₁) h (i + 1)
    have hp₂' : mayPresent (after s (evReads s.cfg.tBit w l₁) (pulsesPerByte w)) (n * pulsesPerByte w) l₂ := hp₂
    refine ⟨l₁ ++ l₂, m, ?_, ?_, ?_⟩
    · have := mayPresent_append hp₁ hp₂'
      rwa [Nat.add_comm, ← Nat.succ_mul] at this
    · simp only [rxInto, hr₁]
      rw [memWrite_idle (by exact h)]
      refine (show _ = rxInto w n (i + 1) s₁ from rfl).trans (hr₂.trans ?_)
      simp only [afterWith, s₁, evReads_append, Nat.succ_mul]
      simp [after, Nat.add_comm]
    · intro j
      rw [hm j]
      show (if _ then _ else (s.buf.write i b).read j) = _
      rw [Memory.read_write]
      rcases Nat.lt_trichotomy j i with hj | rfl | hj
      · rw [if_neg (by omega), if_neg (by omega), if_neg (by omega)]
      · rw [if_neg (by omega), if_pos rfl, if_pos (by omega), Nat.sub_self, byteSamples_zero w hp₁.1]
      · have : j - i = (j - (i + 1)) + 1 := by omega
        rw [this, byteSamples_succ w _ hp₁.1]
        by_cases hin : j < i + 1 + n
        · rw [if_pos ⟨by omega, hin⟩, if_pos (by omega)]
        · rw [if_neg (by omega), if_neg (by omega), if_neg (by omega)]

end Sys2Proof.Machine
end

