-- ==== Sys2Proof/Laws/Frames.lean ====
section
/-! SUPPORT. What each frame does when no reset cuts it, and the bounds of received numbers. -/

namespace Sys2Proof.Machine

open Sys2Proof

/-- A number of `n` bits is below 2^n. -/
theorem ofBitsMsbFirst_lt (bs : List Bool) : ofBitsMsbFirst bs < 2 ^ bs.length := by
  have h : ∀ (bs : List Bool) (n : Nat), bs.foldl (fun n b => 2 * n + b.toNat) n < (n + 1) * 2 ^ bs.length := by
    intro bs
    induction bs with
    | nil => simp
    | cons b bs ih =>
      intro n
      refine Nat.lt_of_lt_of_le (ih _) ?_
      rw [List.length_cons, Nat.pow_succ', ← Nat.mul_assoc]
      refine Nat.mul_le_mul_right _ ?_
      cases b <;> simp <;> omega
  simpa [ofBitsMsbFirst] using h bs 0

/-- The samples of one byte give a number below 256. -/
theorem received_lt (w : LaneWidth) {lvs : List Levels} (h : lvs.length = pulsesPerByte w) :
    received w lvs < 256 := by
  have := ofBitsMsbFirst_lt (lvs.flatMap (sampledBits w))
  have hl : (lvs.flatMap (sampledBits w)).length = 8 := by
    cases w <;> simp_all [List.length_flatMap, sampledBits, pulsesPerByte]
  rw [hl] at this
  exact this

/-- Eight more x1 samples: the number moves up a byte. -/
theorem received_append_byte (a b : List Levels) (hb : b.length = 8) :
    received .x1 (a ++ b) = 256 * received .x1 a + received .x1 b := by
  match b, hb with
  | [b0, b1, b2, b3, b4, b5, b6, b7], _ =>
    simp only [received, sampledBits, ofBitsMsbFirst, List.flatMap_append, List.foldl_append, List.flatMap_cons,
      List.flatMap_nil, List.cons_append, List.nil_append, List.foldl_cons, List.foldl_nil]
    omega

/-- Two bytes joined, the first in the high bits (20_memory.md R222). -/
theorem joinBytes_ofNat (a b : Nat) (hb : b < 256) :
    joinBytes (BitVec.ofNat 8 a) (BitVec.ofNat 8 b) = BitVec.ofNat 16 (256 * a + b) := by
  apply BitVec.eq_of_toNat_eq
  simp only [joinBytes, BitVec.toNat_append, BitVec.toNat_ofNat]
  rw [Nat.shiftLeft_eq, ← Nat.mul_comm (2 ^ 8), ← Nat.two_pow_add_eq_or_of_lt (by omega)]
  omega

theorem identifyFrame_idle {s : State} (h : s.resetAfter = none) :
    ∃ lvs, mayPresent s 16 lvs ∧
      identifyFrame s = (BitVec.ofNat 16 (received .x1 lvs), after s (evIdentify s.cfg.tBit lvs) 16) := by
  have h₀ : dummy 8 (sendByte opReadId (chipSelect true s)) =
      after s (evChipSelect true ++ evSend s.cfg.tBit 0x9F ++ evDummy s.cfg.tBit 8) 0 := by
    simp [chipSelect_idle h, sendByte_idle, dummy_idle, h, opReadId]
  obtain ⟨a, hpa, hra⟩ := rxByte1_idle
    (s := after s (evChipSelect true ++ evSend s.cfg.tBit 0x9F ++ evDummy s.cfg.tBit 8) 0) h
  obtain ⟨b, hpb, hrb⟩ := rxByte1_idle (s := after (after s (evChipSelect true ++ evSend s.cfg.tBit 0x9F ++
    evDummy s.cfg.tBit 8) 0) (evReads s.cfg.tBit .x1 a) 8) h
  refine ⟨a ++ b, (mayPresent_congr (by simp)).1 (mayPresent_append hpa hpb), ?_⟩
  have hb : received .x1 b < 256 := received_lt .x1 hpb.1
  simp only [after_cfg] at hra hrb
  simp only [identifyFrame, h₀, hra, hrb]
  rw [chipSelect_idle (by exact h), joinBytes_ofNat _ _ hb, received_append_byte _ _ hpb.1]
  simp [evIdentify, evReads_append]

theorem loadFrame_idle {s : State} (h : s.resetAfter = none) (row : BitVec 24) :
    loadFrame row s = after s (evLoad s.cfg.tBit s.cfg.tLoad row) 0 := by
  simp [loadFrame, chipSelect_idle, sendByte_idle, delay_idle, h, evLoad, opPageReadToCache, rowByte2, rowByte1,
    rowByte0]

theorem quadReadFrame_idle {s : State} (h : s.resetAfter = none) (col l : BitVec 16) :
    ∃ lvs m, mayPresent s (clampLen l s.cfg * 2) lvs ∧
      quadReadFrame col l s =
        (clampLen l s.cfg, afterWith s (evQuadRead s.cfg.tBit col lvs) (clampLen l s.cfg * 2) m) ∧
      ∀ j, m.read j = if j < clampLen l s.cfg then some (BitVec.ofNat 8 (received .x4 (byteSamples .x4 j lvs)))
        else s.buf.read j := by
  have h₀ : dummy 8 (sendByte (colByte0 col) (sendByte (colByte1 col) (sendByte opFastReadQuad (chipSelect true s)))) =
      after s (evChipSelect true ++ evSend s.cfg.tBit 0x6B ++ evSend s.cfg.tBit (col.extractLsb' 8 8) ++
        evSend s.cfg.tBit (col.extractLsb' 0 8) ++ evDummy s.cfg.tBit 8) 0 := by
    simp [chipSelect_idle h, sendByte_idle, dummy_idle, h, opFastReadQuad, colByte1, colByte0]
  obtain ⟨lvs, m, hp, hr, hm⟩ := rxInto_idle (s := after s (evChipSelect true ++ evSend s.cfg.tBit 0x6B ++
    evSend s.cfg.tBit (col.extractLsb' 8 8) ++ evSend s.cfg.tBit (col.extractLsb' 0 8) ++ evDummy s.cfg.tBit 8) 0) h
    .x4 (clampLen l s.cfg) 0
  refine ⟨lvs, m, (mayPresent_congr (by simp)).1 hp, ?_, fun j => by simpa using hm j⟩
  simp only [quadReadFrame, h₀, after_cfg, hr]
  rw [chipSelect_idle (by exact h)]
  simp [afterWith, after, evQuadRead, pulsesPerByte]

end Sys2Proof.Machine
end

