-- ==== Sys2Proof/Laws/Commands.lean ====
section
/-! SUPPORT. The event list of every command as one function of its samples, and the lemma that a command no reset cuts
appends exactly that list. -/

namespace Sys2Proof.Machine

open Sys2Proof

/-- The events of a command, `lvs` its samples. -/
def commandEvents (cfg : Config) (i : Instr) (lvs : List Levels) : List Event :=
  match i with
  | .setcs a => evChipSelect a
  | .pulsewX1 v => evWrite cfg.tBit .x1 (v.setWidth 4)
  | .pulsewX2 v => evWrite cfg.tBit .x2 (v.setWidth 4)
  | .pulsewX4 v => evWrite cfg.tBit .x4 v
  | .pulserX1 => evReads cfg.tBit .x1 lvs
  | .pulserX2 => evReads cfg.tBit .x2 lvs
  | .pulserX4 => evReads cfg.tBit .x4 lvs
  | .pulsefdX1 v => lvs.flatMap (evDuplex cfg.tBit .x1 (v.setWidth 4))
  | .pulsefdX2 v => lvs.flatMap (evDuplex cfg.tBit .x2 (v.setWidth 4))
  | .pulsefdX4 v => lvs.flatMap (evDuplex cfg.tBit .x4 v)
  | .dummy n => evDummy cfg.tBit n.toNat
  | .sendcmd b => evSend cfg.tBit b
  | .readbyte => evReads cfg.tBit .x1 lvs
  | .readdualbyte => evReads cfg.tBit .x2 lvs
  | .readquadbyte => evReads cfg.tBit .x4 lvs
  | .readbytes _ => evReads cfg.tBit .x1 lvs
  | .readdualbytes _ => evReads cfg.tBit .x2 lvs
  | .readquadbytes _ => evReads cfg.tBit .x4 lvs
  | .identify => evIdentify cfg.tBit lvs
  | .loadpage row => evLoad cfg.tBit cfg.tLoad row
  | .qread col _ => evQuadRead cfg.tBit col lvs

/-- The samples a command takes. -/
def commandSamples (cfg : Config) : Instr → Nat
  | .setcs _ => 0
  | .pulsewX1 _ | .pulsewX2 _ | .pulsewX4 _ => 0
  | .pulserX1 | .pulserX2 | .pulserX4 => 1
  | .pulsefdX1 _ | .pulsefdX2 _ | .pulsefdX4 _ => 1
  | .dummy _ => 0
  | .sendcmd _ => 0
  | .readbyte => 8
  | .readdualbyte => 4
  | .readquadbyte => 2
  | .readbytes l => clampLen l cfg * 8
  | .readdualbytes l => clampLen l cfg * 4
  | .readquadbytes l => clampLen l cfg * 2
  | .identify => 16
  | .loadpage _ => 0
  | .qread _ l => clampLen l cfg * 2

/-- The buffer bytes a command writes: those below this index. -/
def commandBytes (cfg : Config) : Instr → Nat
  | .readbytes l | .readdualbytes l | .readquadbytes l | .qread _ l => clampLen l cfg
  | _ => 0

/-- A command `i` that no reset cuts runs in `s` as its event list says: it takes its samples, appends its events,
writes its buffer bytes and no other, and then at most RESULT and COUNT. -/
def RunsAsListed (i : Instr) (s : State) : Prop :=
  ∃ lvs m r c, mayPresent s (commandSamples s.cfg i) lvs ∧
    exec i s = .next { afterWith s (commandEvents s.cfg i lvs) (commandSamples s.cfg i) m with result := r, count := c } ∧
    ∀ j, if j < commandBytes s.cfg i then (m.read j).isSome = true else m.read j = s.buf.read j

theorem runsAsListed_silent {i : Instr} {s : State} (he : exec i s = .next (after s (commandEvents s.cfg i []) 0))
    (hn : commandSamples s.cfg i = 0) (hb : commandBytes s.cfg i = 0) : RunsAsListed i s :=
  ⟨[], s.buf, s.result, s.count, by rw [hn]; exact mayPresent_zero s, by rw [he, hn]; rfl, fun j => by simp [hb]⟩

theorem runsAsListed_valued {i : Instr} {s : State} (h : s.resetAfter = none) {lvs : List Levels} {v : Half}
    (hp : mayPresent s (commandSamples s.cfg i) lvs)
    (he : exec i s = .next (writeResult v (after s (commandEvents s.cfg i lvs) (commandSamples s.cfg i))))
    (hb : commandBytes s.cfg i = 0) : RunsAsListed i s :=
  ⟨lvs, s.buf, v, s.count, hp, by rw [he, writeResult_idle (by exact h)]; rfl, fun j => by simp [hb]⟩

theorem runsAsListed_bulk {i : Instr} {s : State} (h : s.resetAfter = none) {lvs : List Levels} {m : Memory} {v : Half}
    (f : Nat → Byte) (hp : mayPresent s (commandSamples s.cfg i) lvs)
    (he : exec i s = .next (writeCount v (afterWith s (commandEvents s.cfg i lvs) (commandSamples s.cfg i) m)))
    (hm : ∀ j, m.read j = if j < commandBytes s.cfg i then some (f j) else s.buf.read j) : RunsAsListed i s :=
  ⟨lvs, m, s.result, v, hp, by rw [he, writeCount_idle (by exact h)]; rfl, fun j => by rw [hm]; split <;> simp⟩

/-- Every command runs as its event list says. -/
theorem exec_idle (i : Instr) {s : State} (h : s.resetAfter = none) : RunsAsListed i s := by
  cases i with
  | setcs a => exact runsAsListed_silent (by rw [exec, execSetcs, chipSelect_idle h]; rfl) rfl rfl
  | pulsewX1 v => exact runsAsListed_silent (by rw [exec, execPulsewX1, pulseWrite_idle h]; rfl) rfl rfl
  | pulsewX2 v => exact runsAsListed_silent (by rw [exec, execPulsewX2, pulseWrite_idle h]; rfl) rfl rfl
  | pulsewX4 v => exact runsAsListed_silent (by rw [exec, execPulsewX4, pulseWrite_idle h]; rfl) rfl rfl
  | pulserX1 =>
    obtain ⟨lv, hp, hr⟩ := pulseRead_idle h .x1
    exact runsAsListed_valued h (lvs := [lv]) hp (by simp [exec, execPulserX1, hr, pulseResult, commandEvents, commandSamples, evReads]; rfl) rfl
  | pulserX2 =>
    obtain ⟨lv, hp, hr⟩ := pulseRead_idle h .x2
    exact runsAsListed_valued h (lvs := [lv]) hp (by simp [exec, execPulserX2, hr, pulseResult, commandEvents, commandSamples, evReads]; rfl) rfl
  | pulserX4 =>
    obtain ⟨lv, hp, hr⟩ := pulseRead_idle h .x4
    exact runsAsListed_valued h (lvs := [lv]) hp (by simp [exec, execPulserX4, hr, pulseResult, commandEvents, commandSamples, evReads]; rfl) rfl
  | pulsefdX1 v =>
    obtain ⟨lv, hp, hr⟩ := pulseFullDuplex_idle h .x1 (v.setWidth 4)
    exact runsAsListed_valued h (lvs := [lv]) hp (by simp [exec, execPulsefdX1, hr, pulseResult, commandEvents, commandSamples]; rfl) rfl
  | pulsefdX2 v =>
    obtain ⟨lv, hp, hr⟩ := pulseFullDuplex_idle h .x2 (v.setWidth 4)
    exact runsAsListed_valued h (lvs := [lv]) hp (by simp [exec, execPulsefdX2, hr, pulseResult, commandEvents, commandSamples]; rfl) rfl
  | pulsefdX4 v =>
    obtain ⟨lv, hp, hr⟩ := pulseFullDuplex_idle h .x4 v
    exact runsAsListed_valued h (lvs := [lv]) hp (by simp [exec, execPulsefdX4, hr, pulseResult, commandEvents, commandSamples]; rfl) rfl
  | dummy n => exact runsAsListed_silent (by rw [exec, execDummy, dummy_idle h]; rfl) rfl rfl
  | sendcmd b => exact runsAsListed_silent (by rw [exec, execSendcmd, sendByte_idle h]; rfl) rfl rfl
  | readbyte =>
    obtain ⟨lvs, hp, hr⟩ := rxByte1_idle h
    exact runsAsListed_valued h hp (by rw [exec, execReadbyte, hr]; rfl) rfl
  | readdualbyte =>
    obtain ⟨lvs, hp, hr⟩ := rxByte2_idle h
    exact runsAsListed_valued h hp (by rw [exec, execReaddualbyte, hr]; rfl) rfl
  | readquadbyte =>
    obtain ⟨lvs, hp, hr⟩ := rxByte4_idle h
    exact runsAsListed_valued h hp (by rw [exec, execReadquadbyte, hr]; rfl) rfl
  | readbytes l =>
    obtain ⟨lvs, m, hp, hr, hm⟩ := rxInto_idle h .x1 (clampLen l s.cfg) 0
    exact runsAsListed_bulk h (fun j => BitVec.ofNat 8 (received .x1 (byteSamples .x1 j lvs))) hp
      (by simp only [exec, execReadbytes, bulkCount, rxBulk, hr]; rfl) (fun j => (hm j).trans (if_congr (by simp [commandBytes]) (by simp) rfl))
  | readdualbytes l =>
    obtain ⟨lvs, m, hp, hr, hm⟩ := rxInto_idle h .x2 (clampLen l s.cfg) 0
    exact runsAsListed_bulk h (fun j => BitVec.ofNat 8 (received .x2 (byteSamples .x2 j lvs))) hp
      (by simp only [exec, execReaddualbytes, bulkCount, rxBulk, hr]; rfl) (fun j => (hm j).trans (if_congr (by simp [commandBytes]) (by simp) rfl))
  | readquadbytes l =>
    obtain ⟨lvs, m, hp, hr, hm⟩ := rxInto_idle h .x4 (clampLen l s.cfg) 0
    exact runsAsListed_bulk h (fun j => BitVec.ofNat 8 (received .x4 (byteSamples .x4 j lvs))) hp
      (by simp only [exec, execReadquadbytes, bulkCount, rxBulk, hr]; rfl) (fun j => (hm j).trans (if_congr (by simp [commandBytes]) (by simp) rfl))
  | identify =>
    obtain ⟨lvs, hp, hr⟩ := identifyFrame_idle h
    exact runsAsListed_valued h hp (by rw [exec, execIdentify, hr]; rfl) rfl
  | loadpage row => exact runsAsListed_silent (by rw [exec, execLoadpage, loadFrame_idle h]; rfl) rfl rfl
  | qread col l =>
    obtain ⟨lvs, m, hp, hr, hm⟩ := quadReadFrame_idle h col l
    exact runsAsListed_bulk h (fun j => BitVec.ofNat 8 (received .x4 (byteSamples .x4 j lvs))) hp
      (by rw [exec, execQread, hr]; rfl) (hm)

end Sys2Proof.Machine
end

