-- ==== Sys2Proof/Laws/Pulses.lean ====
section
/-! SUPPORT. Clock pulses, held times and latches at rising edges, sequence by sequence, from a clock that idles low as
an output; and the clock after every command. -/

namespace Sys2Proof.Machine

open Sys2Proof

/-- The new events of a run, from the trace it leaves. -/
theorem newEvents_eq {s t : State} {es : List Event} (h : t.trace = s.trace ++ es) : newEvents s t = es := by
  simp [newEvents, h]

/-- The clock idles low as an output (10_state.md R105). -/
def ClockIdle (ls : Lines) : Prop := ls.clk = ⟨.out, false⟩

theorem ClockIdle.mode {ls : Lines} (h : ClockIdle ls) : ls.clk.mode = .out := by rw [h]
theorem ClockIdle.lat {ls : Lines} (h : ClockIdle ls) : ls.clk.lat = false := by rw [h]

/-- A list of events gives `n` clock pulses and leaves the clock idle. -/
def Pulses (ls : Lines) (es : List Event) (n : Nat) : Prop :=
  risingEdges ls es = n ∧ ClockIdle (replay ls es)

theorem Pulses.append {ls : Lines} {es fs : List Event} {m n : Nat} (h : Pulses ls es m)
    (k : Pulses (replay ls es) fs n) : Pulses ls (es ++ fs) (m + n) :=
  ⟨by rw [risingEdges, countEdges_append, ← risingEdges, ← risingEdges, h.1, k.1], by rw [replay_append]; exact k.2⟩

theorem pulses_nil {ls : Lines} (h : ClockIdle ls) : Pulses ls [] 0 := ⟨rfl, h⟩

/-- Chip-select gives no pulse and leaves the clock idle, whatever it was. -/
theorem pulses_evChipSelect (ls : Lines) (a : Bool) : Pulses ls (evChipSelect a) 0 := by
  constructor
  · simp [risingEdges, evChipSelect, countEdges, isEdge]
  · rfl

theorem pulses_evClock {ls : Lines} (h : ClockIdle ls) (T : Nat) : Pulses ls (evClock T) 1 := by
  constructor
  · simp [risingEdges, evClock, countEdges, isEdge, h.mode, h.lat]
  · simp [replay_evClock, ClockIdle, h.mode]

theorem pulses_evWrite {ls : Lines} (h : ClockIdle ls) (T : Nat) (w : LaneWidth) (v : BitVec 4) :
    Pulses ls (evWrite T w v) 1 := by
  constructor <;> cases w <;>
    simp [risingEdges, evWrite, evClock, countEdges, isEdge, writeSet, laneMap, h.mode, h.lat, ClockIdle]

theorem pulses_evRead {ls : Lines} (h : ClockIdle ls) (T : Nat) (w : LaneWidth) (lv : Levels) :
    Pulses ls (evRead T w lv) 1 := by
  constructor <;> cases w <;>
    simp [risingEdges, evRead, evClock, countEdges, isEdge, readSet, h.mode, h.lat, ClockIdle]

theorem pulses_evDuplex {ls : Lines} (h : ClockIdle ls) (T : Nat) (w : LaneWidth) (v : BitVec 4) (lv : Levels) :
    Pulses ls (evDuplex T w v lv) 1 := by
  constructor <;> cases w <;>
    simp [risingEdges, evDuplex, countEdges, isEdge, writeSet, laneMap, activeSet, readSet, h.mode, h.lat, ClockIdle]

theorem pulses_evClocks {ls : Lines} (h : ClockIdle ls) (T n : Nat) :
    Pulses ls (List.replicate n (evClock T)).flatten n := by
  induction n generalizing ls with
  | zero => exact pulses_nil h
  | succ n ih =>
    rw [List.replicate_succ, List.flatten_cons, Nat.add_comm]
    exact (pulses_evClock h T).append (ih (pulses_evClock h T).2)

theorem pulses_evDummy {ls : Lines} (h : ClockIdle ls) (T n : Nat) : Pulses ls (evDummy T n) n := by
  have hd : Pulses ls [.dir Line.data .inPu] 0 := by
    constructor
    · simp [risingEdges, countEdges, isEdge]
    · simpa [Line.data, ClockIdle] using h
  have := hd.append (pulses_evClocks hd.2 T n)
  rwa [Nat.zero_add] at this

theorem pulses_evSend {ls : Lines} (h : ClockIdle ls) (T : Nat) (b : Byte) : Pulses ls (evSend T b) 8 := by
  have gen : ∀ (ks : List Nat) (ls : Lines), ClockIdle ls →
      Pulses ls (ks.flatMap fun k => evWrite T .x1 (nibble false false false (b.getLsbD k))) ks.length := by
    intro ks
    induction ks with
    | nil => exact fun ls h => pulses_nil h
    | cons k ks ih =>
      intro ls h
      rw [List.flatMap_cons, List.length_cons, Nat.add_comm]
      exact (pulses_evWrite h T .x1 _).append (ih _ (pulses_evWrite h T .x1 _).2)
  exact gen [7, 6, 5, 4, 3, 2, 1, 0] ls h

theorem pulses_evReads {ls : Lines} (h : ClockIdle ls) (T : Nat) (w : LaneWidth) (lvs : List Levels) :
    Pulses ls (evReads T w lvs) lvs.length := by
  induction lvs generalizing ls with
  | nil => exact pulses_nil h
  | cons lv lvs ih =>
    rw [evReads_cons, List.length_cons, Nat.add_comm]
    exact (pulses_evRead h T w lv).append (ih (pulses_evRead h T w lv).2)

/-! ### Held times -/

theorem waits_append (es fs : List Event) : waits (es ++ fs) = waits es ++ waits fs := by simp [waits]

theorem waits_evChipSelect (a : Bool) : waits (evChipSelect a) = [] := rfl

theorem waits_evRead (T : Nat) (w : LaneWidth) (lv : Levels) : waits (evRead T w lv) = [T, T] := by cases w <;> rfl

theorem waits_evDummy (T n : Nat) : waits (evDummy T n) = List.replicate (2 * n) T := by
  show waits (List.replicate n (evClock T)).flatten = _
  induction n with
  | zero => rfl
  | succ n ih => rw [List.replicate_succ, List.flatten_cons, waits_append, ih]; rfl

theorem waits_evSend (T : Nat) (b : Byte) : waits (evSend T b) = List.replicate 16 T := rfl

theorem waits_evReads (T : Nat) (w : LaneWidth) (lvs : List Levels) :
    waits (evReads T w lvs) = List.replicate (2 * lvs.length) T := by
  induction lvs with
  | nil => rfl
  | cons lv lvs ih => rw [evReads_cons, waits_append, ih, waits_evRead]; rfl

/-! ### What the wire carries at rising edges -/

theorem latchAtRises_evWrite {ls : Lines} (h : ClockIdle ls) (T : Nat) (b : Bool) :
    latchAtRises .io0 ls (evWrite T .x1 (nibble false false false b)) = [b] := by
  simp [evWrite, evClock, writeSet, laneMap, latchAtRises, isEdge, h.mode, h.lat]

theorem latchAtRises_evChipSelect (ls : Lines) (a : Bool) : latchAtRises .io0 ls (evChipSelect a) = [] := by
  simp [evChipSelect, latchAtRises, isEdge]

/-! ### The clock after a command -/

theorem clockIdle_evReads {ls : Lines} (h : ClockIdle ls) (T : Nat) (w : LaneWidth) (lvs : List Levels) :
    ClockIdle (replay ls (evReads T w lvs)) := (pulses_evReads h T w lvs).2

theorem clockIdle_evDuplex {ls : Lines} (h : ClockIdle ls) (T : Nat) (w : LaneWidth) (v : BitVec 4)
    (lvs : List Levels) : ClockIdle (replay ls (lvs.flatMap (evDuplex T w v))) := by
  induction lvs generalizing ls with
  | nil => exact h
  | cons lv lvs ih => rw [List.flatMap_cons, replay_append]; exact ih (pulses_evDuplex h T w v lv).2

/-- A command that no reset cuts leaves an idle clock idle. -/
theorem clockIdle_commandEvents {ls : Lines} (h : ClockIdle ls) (cfg : Config) (i : Instr) (lvs : List Levels) :
    ClockIdle (replay ls (commandEvents cfg i lvs)) := by
  cases i with
  | setcs a => exact (pulses_evChipSelect ls a).2
  | pulsewX1 v => exact (pulses_evWrite h _ _ _).2
  | pulsewX2 v => exact (pulses_evWrite h _ _ _).2
  | pulsewX4 v => exact (pulses_evWrite h _ _ _).2
  | pulsefdX1 v => exact clockIdle_evDuplex h _ _ _ _
  | pulsefdX2 v => exact clockIdle_evDuplex h _ _ _ _
  | pulsefdX4 v => exact clockIdle_evDuplex h _ _ _ _
  | dummy n => exact (pulses_evDummy h _ _).2
  | sendcmd b => exact (pulses_evSend h _ _).2
  | identify => simp [commandEvents, evIdentify, replay_evChipSelect, ClockIdle]
  | loadpage row => simp [commandEvents, evLoad, replay_evChipSelect, ClockIdle]
  | qread col l => simp [commandEvents, evQuadRead, replay_evChipSelect, ClockIdle]
  | _ => exact clockIdle_evReads h _ _ _

end Sys2Proof.Machine
end

