-- ==== Sys2Proof/Laws/Cut.lean ====
section
/-! SUPPORT. A command's run to completion and its runs cut by a reset, side by side: sequence by sequence, a cut run has
performed a prefix of the whole run's events and of its buffer writes, and no more (70_reset_and_hazards.md R801). -/

namespace Sys2Proof.Machine

open Sys2Proof

@[simp] theorem sampleCount_nil : sampleCount [] = 0 := rfl

@[simp] theorem sampleCount_append (es fs : List Event) : sampleCount (es ++ fs) = sampleCount es + sampleCount fs :=
  List.countP_append

/-- Once a reset has cut the command, an action does nothing. -/
theorem act_cut {s : State} (h : s.resetAfter = some 0) (f : State → State) : act f s = s := by simp [act, h]

/-- A run `u` that a reset has cut, beside the whole run from `s` to `t` that has appended `es`: `done` are the actions
`u` has performed, `true` for an event and `false` for a buffer write. `P` holds of the samples and the writes of every
prefix of the run. -/
structure CutAt (P : Nat → Nat → Prop) (s t : State) (es : List Event) (done : List Bool) (u : State) : Prop where
  cut : u.resetAfter = some 0
  trace : u.trace = s.trace ++ es.take (done.count true)
  answers : u.answers = s.answers.drop (sampleCount (es.take (done.count true)))
  good : P (sampleCount (es.take (done.count true))) (done.count false)
  buf : ∀ a, u.buf.read a = if a < done.count false then t.buf.read a else s.buf.read a
  cfg : u.cfg = s.cfg
  inbox : u.inbox = s.inbox
  replies : u.replies = s.replies

/-- The whole run from `s` to `t` and, for each `k`, the run `us k` that a reset cuts after `k` actions: `acts` are the
actions of the whole run, `m` its samples and `q` its buffer writes, to the indices from 0 up. -/
structure CutRun (P : Nat → Nat → Prop) (s t : State) (us : Nat → State) (m q : Nat) : Prop where
  idle : t.resetAfter = none
  cfg : t.cfg = s.cfg
  inbox : t.inbox = s.inbox
  replies : t.replies = s.replies
  answers : t.answers = s.answers.drop m
  good : P m q
  above : ∀ a, q ≤ a → t.buf.read a = s.buf.read a
  runs : ∃ (es : List Event) (acts : List Bool), t.trace = s.trace ++ es ∧ sampleCount es = m ∧
    acts.count true = es.length ∧ acts.count false = q ∧
    ∀ k, (acts.length ≤ k ∧ us k = { t with resetAfter := some (k - acts.length) }) ∨
      (k < acts.length ∧ CutAt P s t es (acts.take k) (us k))

/-- Before the first action. -/
theorem CutRun.start {P : Nat → Nat → Prop} {s : State} (h : s.resetAfter = none) (hp : P 0 0) :
    CutRun P s s (fun k => { s with resetAfter := some k }) 0 0 where
  idle := h
  cfg := rfl
  inbox := rfl
  replies := rfl
  answers := rfl
  good := hp
  above := fun _ _ => rfl
  runs := ⟨[], [], by simp, rfl, rfl, rfl, fun k => .inl ⟨Nat.zero_le k, by simp⟩⟩

/-- A run that no reset has cut yet is the whole run. -/
theorem CutRun.live {P : Nat → Nat → Prop} {s t : State} {us : Nat → State} {m q : Nat} (h : CutRun P s t us m q)
    {k : Nat} (hk : (us k).resetAfter ≠ some 0) : ∃ o, us k = { t with resetAfter := o } := by
  obtain ⟨es, acts, -, -, -, -, hr⟩ := h.runs
  rcases hr k with ⟨-, hu⟩ | ⟨-, hu⟩
  · exact ⟨_, hu⟩
  · exact absurd hu.cut hk

theorem count_take_le (acts : List Bool) (b : Bool) (k : Nat) : (acts.take k).count b ≤ acts.count b :=
  (List.take_sublist k acts).count_le b

/-- A cut stays where it is when the whole run appends an event or writes a byte beyond those written. -/
theorem CutAt.later {P : Nat → Nat → Prop} {s t t' : State} {es fs : List Event} {done : List Bool} {u : State}
    (h : CutAt P s t es done u) (hd : done.count true ≤ es.length)
    (hb : ∀ a, a < done.count false → t'.buf.read a = t.buf.read a) : CutAt P s t' (es ++ fs) done u where
  cut := h.cut
  trace := by rw [List.take_append_of_le_length hd]; exact h.trace
  answers := by rw [List.take_append_of_le_length hd]; exact h.answers
  good := by rw [List.take_append_of_le_length hd]; exact h.good
  buf := fun a => by
    rw [h.buf a]
    split
    · rename_i ha; rw [hb a ha]
    · rfl
  cfg := h.cfg
  inbox := h.inbox
  replies := h.replies

/-- A run cut right after the whole run's actions so far. -/
theorem CutRun.frozen {P : Nat → Nat → Prop} {s t : State} {us : Nat → State} {m q : Nat} (h : CutRun P s t us m q)
    {es : List Event} {acts : List Bool} (ht : t.trace = s.trace ++ es) (hm : sampleCount es = m)
    (hc : acts.count true = es.length) (hq : acts.count false = q) :
    CutAt P s t es acts { t with resetAfter := some 0 } where
  cut := rfl
  trace := by rw [hc, List.take_length]; exact ht
  answers := by rw [hc, List.take_length, hm]; exact h.answers
  good := by rw [hc, List.take_length, hm, hq]; exact h.good
  buf := fun a => by
    rw [hq]
    split
    · rfl
    · rename_i ha; exact h.above a (by omega)
  cfg := h.cfg
  inbox := h.inbox
  replies := h.replies

/-- What an action does to the state around the pending reset. -/
structure ActionOf (f : State → State) (t : State) (fs : List Event) (d : Nat) : Prop where
  blind : ∀ o, f { t with resetAfter := o } = { f t with resetAfter := o }
  trace : (f t).trace = t.trace ++ fs
  samples : sampleCount fs = d
  answers : (f t).answers = t.answers.drop d
  idle : (f t).resetAfter = t.resetAfter
  cfg : (f t).cfg = t.cfg
  inbox : (f t).inbox = t.inbox
  replies : (f t).replies = t.replies

/-- One action more, an event or a buffer write: `b` says which, `f' k` is what it does in the run cut after `k`. -/
theorem CutRun.action {P : Nat → Nat → Prop} {s t : State} {us : Nat → State} {m q : Nat} (h : CutRun P s t us m q)
    {f : State → State} {f' : Nat → State → State} {fs : List Event} {d : Nat} {b : Bool} (hf : ActionOf f t fs d)
    (hlive : ∀ k, (us k).resetAfter ≠ some 0 → f' k = f)
    (hb : if b = true then fs.length = 1 else fs.length = 0)
    (hbuf : ∀ a, a ≠ q ∨ b = true → (f t).buf.read a = t.buf.read a)
    (hp : P (m + d) (q + if b = true then 0 else 1)) :
    CutRun P s (act f t) (fun k => act (f' k) (us k)) (m + d) (q + if b = true then 0 else 1) := by
  have hact : act f t = f t := by simp [act, h.idle]
  rw [hact]
  obtain ⟨es, acts, ht, hm, hc, hq, hr⟩ := h.runs
  refine ⟨hf.idle.trans h.idle, hf.cfg.trans h.cfg, hf.inbox.trans h.inbox, hf.replies.trans h.replies, ?_, hp, ?_,
    es ++ fs, acts ++ [b], ?_, ?_, ?_, ?_, fun k => ?_⟩
  · rw [hf.answers, h.answers, List.drop_drop]
  · intro a ha
    cases b with
    | true => rw [hbuf a (.inr rfl)]; exact h.above a ha
    | false =>
      have ha' : q + 1 ≤ a := ha
      rw [hbuf a (.inl (by omega))]; exact h.above a (by omega)
  · rw [hf.trace, ht, List.append_assoc]
  · rw [sampleCount_append, hm, hf.samples]
  · cases b <;> simp_all
  · cases b <;> simp_all
  · have hkeep : ∀ k, CutAt P s t es (acts.take k) (us k) → CutAt P s (f t) (es ++ fs) (acts.take k) (us k) :=
      fun k hu => hu.later (hc ▸ count_take_le acts true k) fun a ha =>
        hbuf a (.inl (by have := count_take_le acts false k; omega))
    rcases hr k with ⟨hk, hu⟩ | ⟨hk, hu⟩
    · rcases Nat.eq_or_lt_of_le hk with rfl | hk'
      · right
        refine ⟨by simp, ?_⟩
        have hu0 : us acts.length = { t with resetAfter := some 0 } := by rw [hu]; simp
        rw [act_cut (by rw [hu0])]
        have := hkeep acts.length (by rw [List.take_length, hu0]; exact h.frozen ht hm hc hq)
        rw [List.take_left' rfl]
        rwa [List.take_length] at this
      · left
        refine ⟨by simpa using hk', ?_⟩
        have hne : (us k).resetAfter ≠ some 0 := by rw [hu]; simp; omega
        obtain ⟨r, hr⟩ : ∃ r, k - acts.length = r + 1 := ⟨k - acts.length - 1, by omega⟩
        rw [hlive k hne, hu, hr]
        show f { t with resetAfter := some r } = _
        rw [hf.blind]
        simp; omega
    · right
      refine ⟨by simp; omega, ?_⟩
      rw [act_cut hu.cut, List.take_append_of_le_length (Nat.le_of_lt hk)]
      exact hkeep k hu

/-! ### The primitives -/

theorem setDir_cut {P : Nat → Nat → Prop} {s t : State} {us : Nat → State} {m q : Nat} (h : CutRun P s t us m q)
    (S : List Line) (md : Mode) : CutRun P s (setDir S md t) (fun k => setDir S md (us k)) m q :=
  h.action (b := true) (d := 0) (fs := [.dir S md])
    ⟨fun _ => rfl, rfl, rfl, rfl, rfl, rfl, rfl, rfl⟩ (fun _ _ => rfl) rfl (fun _ _ => rfl) h.good

theorem drive_cut {P : Nat → Nat → Prop} {s t : State} {us : Nat → State} {m q : Nat} (h : CutRun P s t us m q)
    (v : LineBits) : CutRun P s (drive v t) (fun k => drive v (us k)) m q :=
  h.action (b := true) (d := 0) (fs := [.drv v])
    ⟨fun _ => rfl, rfl, rfl, rfl, rfl, rfl, rfl, rfl⟩ (fun _ _ => rfl) rfl (fun _ _ => rfl) h.good

theorem delay_cut {P : Nat → Nat → Prop} {s t : State} {us : Nat → State} {m q : Nat} (h : CutRun P s t us m q)
    (T : Nat) : CutRun P s (delay T t) (fun k => delay T (us k)) m q :=
  h.action (b := true) (d := 0) (fs := [.wait T])
    ⟨fun _ => rfl, rfl, rfl, rfl, rfl, rfl, rfl, rfl⟩ (fun _ _ => rfl) rfl (fun _ _ => rfl) h.good

theorem sampleAction_cut {P : Nat → Nat → Prop} {s t : State} {us : Nat → State} {m q : Nat} (h : CutRun P s t us m q)
    (S : List Line) (hp : P (m + 1) q) : CutRun P s (sampleAction S t) (fun k => sampleAction S (us k)) (m + 1) q :=
  h.action (b := true) (d := 1) (fs := [.smp ((presented S t).restrict S)])
    ⟨fun _ => rfl, rfl, rfl, by show t.answers.tail = _; simp, rfl, rfl, rfl, rfl⟩ (fun _ _ => rfl) rfl
    (fun _ _ => rfl) hp

/-- The next byte of the buffer; the runs that go on write the same value. -/
theorem memWrite_cut {P : Nat → Nat → Prop} {s t : State} {us : Nat → State} {m q : Nat} (h : CutRun P s t us m q)
    {v : Byte} {v' : Nat → Byte} (hv : ∀ k, (us k).resetAfter ≠ some 0 → v' k = v) (hp : P m (q + 1)) :
    CutRun P s (memWrite q v t) (fun k => memWrite q (v' k) (us k)) m (q + 1) :=
  h.action (b := false) (d := 0) (fs := []) (f' := fun k s => { s with buf := s.buf.write q (v' k) })
    ⟨fun _ => rfl, by simp, rfl, rfl, rfl, rfl, rfl, rfl⟩ (fun k hk => by rw [hv k hk]) rfl
    (fun a ha => by
      show (t.buf.write q v).read a = _
      rw [Memory.read_write, if_neg (by simpa using ha)]) hp

/-- All runs at the same configuration. -/
theorem CutRun.cfg_cut {P : Nat → Nat → Prop} {s t : State} {us : Nat → State} {m q : Nat} (h : CutRun P s t us m q)
    (k : Nat) : (us k).cfg = t.cfg := by
  obtain ⟨es, acts, -, -, -, -, hr⟩ := h.runs
  rcases hr k with ⟨-, hu⟩ | ⟨-, hu⟩
  · rw [hu]
  · rw [hu.cfg, h.cfg]

/-! ### The sequences -/

theorem chipSelect_cut {P : Nat → Nat → Prop} {s t : State} {us : Nat → State} {m q : Nat} (h : CutRun P s t us m q)
    (a : Bool) : CutRun P s (chipSelect a t) (fun k => chipSelect a (us k)) m q :=
  drive_cut (drive_cut (setDir_cut h _ _) _) _

/-- A wait of the bit delay, each run reading its own configuration. -/
theorem delayBit_cut {P : Nat → Nat → Prop} {s t : State} {us : Nat → State} {m q : Nat} (h : CutRun P s t us m q) :
    CutRun P s (delay t.cfg.tBit t) (fun k => delay (us k).cfg.tBit (us k)) m q := by
  have : (fun k => delay (us k).cfg.tBit (us k)) = fun k => delay t.cfg.tBit (us k) := by
    funext k; rw [h.cfg_cut k]
  rw [this]
  exact delay_cut h _

theorem clockPulse_cut {P : Nat → Nat → Prop} {s t : State} {us : Nat → State} {m q : Nat} (h : CutRun P s t us m q) :
    CutRun P s (clockPulse t) (fun k => clockPulse (us k)) m q :=
  delayBit_cut (drive_cut (delayBit_cut (drive_cut h _)) _)

theorem pulseWrite_cut {P : Nat → Nat → Prop} {s t : State} {us : Nat → State} {m q : Nat} (h : CutRun P s t us m q)
    (w : LaneWidth) (v : BitVec 4) : CutRun P s (pulseWrite w v t) (fun k => pulseWrite w v (us k)) m q :=
  clockPulse_cut (drive_cut (setDir_cut h _ _) _)

theorem clockPulses_cut {P : Nat → Nat → Prop} {s t : State} {us : Nat → State} {m q : Nat} (h : CutRun P s t us m q)
    (n : Nat) : CutRun P s (clockPulses n t) (fun k => clockPulses n (us k)) m q := by
  induction n generalizing t us with
  | zero => exact h
  | succ n ih => exact ih (clockPulse_cut h)

theorem dummy_cut {P : Nat → Nat → Prop} {s t : State} {us : Nat → State} {m q : Nat} (h : CutRun P s t us m q)
    (n : Nat) : CutRun P s (dummy n t) (fun k => dummy n (us k)) m q := clockPulses_cut (setDir_cut h _ _) n

theorem sendByte_cut {P : Nat → Nat → Prop} {s t : State} {us : Nat → State} {m q : Nat} (h : CutRun P s t us m q)
    (b : Byte) : CutRun P s (sendByte b t) (fun k => sendByte b (us k)) m q := by
  have gen : ∀ n {t : State} {us : Nat → State}, CutRun P s t us m q →
      CutRun P s (sendBits b n t) (fun k => sendBits b n (us k)) m q := by
    intro n
    induction n with
    | zero => exact id
    | succ n ih => exact fun h => ih (pulseWrite_cut h _ _)
  exact gen 8 h

theorem clockPulse_of_cut {s : State} (h : s.resetAfter = some 0) : clockPulse s = s := by
  simp [clockPulse, drive, delay, act_cut h]

theorem pulseRead_of_cut {s : State} (h : s.resetAfter = some 0) (w : LaneWidth) : (pulseRead w s).2 = s := by
  simp [pulseRead, sample, setDir, sampleAction, act_cut h, clockPulse_of_cut h]

/-- The levels a sample takes, in a run that no reset has cut. -/
theorem presented_live {P : Nat → Nat → Prop} {s t : State} {us : Nat → State} {m q : Nat} (h : CutRun P s t us m q)
    (S : List Line) {k : Nat} (hk : (us k).resetAfter ≠ some 0) : presented S (us k) = presented S t := by
  obtain ⟨o, hu⟩ := h.live hk
  rw [hu]; rfl

/-- A read pulse; the runs that go on after it have read the same value. -/
theorem pulseRead_cut {P : Nat → Nat → Prop} {s t : State} {us : Nat → State} {m q : Nat} (h : CutRun P s t us m q)
    (w : LaneWidth) (hp : P (m + 1) q) :
    CutRun P s (pulseRead w t).2 (fun k => (pulseRead w (us k)).2) (m + 1) q ∧
      ∀ k, (pulseRead w (us k)).2.resetAfter ≠ some 0 → (pulseRead w (us k)).1 = (pulseRead w t).1 := by
  have hd := setDir_cut h (readSet w) .inp
  refine ⟨clockPulse_cut (sampleAction_cut hd _ hp), fun k hk => ?_⟩
  refine congrArg (unmap w) (presented_live hd _ fun h0 => hk ?_)
  show (clockPulse (sampleAction _ (setDir _ _ (us k)))).resetAfter = _
  rw [sampleAction, act_cut h0, clockPulse_of_cut h0, h0]

theorem pulseFullDuplex_cut {P : Nat → Nat → Prop} {s t : State} {us : Nat → State} {m q : Nat}
    (h : CutRun P s t us m q) (w : LaneWidth) (v : BitVec 4) (hp : P (m + 1) q) :
    CutRun P s (pulseFullDuplex w v t).2 (fun k => (pulseFullDuplex w v (us k)).2) (m + 1) q :=
  delayBit_cut (sampleAction_cut (drive_cut (setDir_cut (delayBit_cut (drive_cut (drive_cut (setDir_cut h _ _) _) _))
    _ _) _) _ hp)

/-! ### Bytes -/

theorem rxBits_of_cut {s : State} (h : s.resetAfter = some 0) (n : Nat) (r : Byte) : (rxBits n r s).2 = s := by
  induction n generalizing r with
  | zero => rfl
  | succ n ih => simp only [rxBits, pulseRead_of_cut h, ih]

theorem rxPairs_of_cut {s : State} (h : s.resetAfter = some 0) (n : Nat) (r : Byte) : (rxPairs n r s).2 = s := by
  induction n generalizing r with
  | zero => rfl
  | succ n ih => simp only [rxPairs, pulseRead_of_cut h, ih]

theorem rxBits_cut {P : Nat → Nat → Prop} {s t : State} {us : Nat → State} {m q : Nat} (h : CutRun P s t us m q)
    (n : Nat) (r : Byte) {r' : Nat → Byte} (hr : ∀ k, (us k).resetAfter ≠ some 0 → r' k = r)
    (hp : ∀ i, i ≤ n → P (m + i) q) :
    CutRun P s (rxBits n r t).2 (fun k => (rxBits n (r' k) (us k)).2) (m + n) q ∧
      ∀ k, (rxBits n (r' k) (us k)).2.resetAfter ≠ some 0 → (rxBits n (r' k) (us k)).1 = (rxBits n r t).1 := by
  induction n generalizing t us m r r' with
  | zero => exact ⟨h, hr⟩
  | succ n ih =>
    obtain ⟨hc, hv⟩ := pulseRead_cut h .x1 (hp 1 (by omega))
    have := ih hc (setBit r n ((pulseRead .x1 t).1.getLsbD 0))
      (r' := fun k => setBit (r' k) n ((pulseRead .x1 (us k)).1.getLsbD 0))
      (fun k hk => by
        rw [hv k hk, hr k fun h0 => hk (by rw [pulseRead_of_cut h0]; exact h0)])
      (fun i hi => by rw [Nat.add_assoc, Nat.add_comm 1]; exact hp (i + 1) (by omega))
    rw [Nat.add_assoc, Nat.add_comm 1] at this
    exact this

theorem rxPairs_cut {P : Nat → Nat → Prop} {s t : State} {us : Nat → State} {m q : Nat} (h : CutRun P s t us m q)
    (n : Nat) (r : Byte) {r' : Nat → Byte} (hr : ∀ k, (us k).resetAfter ≠ some 0 → r' k = r)
    (hp : ∀ i, i ≤ n → P (m + i) q) :
    CutRun P s (rxPairs n r t).2 (fun k => (rxPairs n (r' k) (us k)).2) (m + n) q ∧
      ∀ k, (rxPairs n (r' k) (us k)).2.resetAfter ≠ some 0 → (rxPairs n (r' k) (us k)).1 = (rxPairs n r t).1 := by
  induction n generalizing t us m r r' with
  | zero => exact ⟨h, hr⟩
  | succ n ih =>
    obtain ⟨hc, hv⟩ := pulseRead_cut h .x2 (hp 1 (by omega))
    have := ih hc (shiftPair r (pulseRead .x2 t).1) (r' := fun k => shiftPair (r' k) (pulseRead .x2 (us k)).1)
      (fun k hk => by
        rw [hv k hk, hr k fun h0 => hk (by rw [pulseRead_of_cut h0]; exact h0)])
      (fun i hi => by rw [Nat.add_assoc, Nat.add_comm 1]; exact hp (i + 1) (by omega))
    rw [Nat.add_assoc, Nat.add_comm 1] at this
    exact this

/-- A byte of any width; the runs that go on after it have received the same byte. -/
theorem rxByte_cut {P : Nat → Nat → Prop} {s t : State} {us : Nat → State} {m q : Nat} (h : CutRun P s t us m q)
    (w : LaneWidth) (hp : ∀ i, i ≤ pulsesPerByte w → P (m + i) q) :
    CutRun P s (rxByte w t).2 (fun k => (rxByte w (us k)).2) (m + pulsesPerByte w) q ∧
      ∀ k, (rxByte w (us k)).2.resetAfter ≠ some 0 → (rxByte w (us k)).1 = (rxByte w t).1 := by
  cases w with
  | x1 => exact rxBits_cut h 8 0 (r' := fun _ => 0) (fun _ _ => rfl) hp
  | x2 => exact rxPairs_cut h 4 0 (r' := fun _ => 0) (fun _ _ => rfl) hp
  | x4 =>
    obtain ⟨h₁, hv₁⟩ := pulseRead_cut h .x4 (hp 1 (by decide))
    obtain ⟨h₂, hv₂⟩ := pulseRead_cut h₁ .x4 (hp 2 (by decide))
    refine ⟨h₂, fun k hk => ?_⟩
    have h0 : (pulseRead .x4 (us k)).2.resetAfter ≠ some 0 := fun h0 => hk (by
      show (pulseRead .x4 (pulseRead .x4 (us k)).2).2.resetAfter = _
      rw [pulseRead_of_cut h0]; exact h0)
    show joinNibbles (pulseRead .x4 (us k)).1 (pulseRead .x4 (pulseRead .x4 (us k)).2).1 = _
    rw [hv₁ k h0, hv₂ k hk]
    rfl

theorem rxByte1_cut {P : Nat → Nat → Prop} {s t : State} {us : Nat → State} {m q : Nat} (h : CutRun P s t us m q)
    (hp : ∀ i, i ≤ 8 → P (m + i) q) : CutRun P s (rxByte1 t).2 (fun k => (rxByte1 (us k)).2) (m + 8) q :=
  (rxByte_cut h .x1 hp).1

/-! ### Bulk reads -/

/-- In every prefix of a bulk read of width `w`, the bytes written are those whose pulses have been sampled, or one
less. -/
def BytesSampled (w : LaneWidth) (m q : Nat) : Prop := q ≤ m / pulsesPerByte w ∧ m / pulsesPerByte w ≤ q + 1

theorem bytesSampled_within (w : LaneWidth) (q : Nat) {i : Nat} (h : i ≤ pulsesPerByte w) :
    BytesSampled w (q * pulsesPerByte w + i) q := by
  cases w <;> simp only [BytesSampled, pulsesPerByte] at * <;> omega

theorem bytesSampled_written (w : LaneWidth) (q : Nat) : BytesSampled w (q * pulsesPerByte w + pulsesPerByte w) (q + 1) := by
  cases w <;> simp only [BytesSampled, pulsesPerByte] <;> omega

/-- The loop of a bulk read, from its byte `q`. -/
theorem rxInto_cut {s t : State} {us : Nat → State} {q : Nat} (w : LaneWidth)
    (h : CutRun (BytesSampled w) s t us (q * pulsesPerByte w) q) (n : Nat) :
    CutRun (BytesSampled w) s (rxInto w n q t) (fun k => rxInto w n q (us k)) ((q + n) * pulsesPerByte w) (q + n) := by
  induction n generalizing t us q with
  | zero => exact h
  | succ n ih =>
    obtain ⟨hc, hv⟩ := rxByte_cut h w fun i hi => bytesSampled_within w q hi
    have hw := memWrite_cut hc hv (bytesSampled_written w q)
    rw [← Nat.succ_mul] at hw
    have := ih hw
    rwa [Nat.succ_add, ← Nat.add_succ] at this

/-! ### Frames -/

theorem identifyFrame_cut {P : Nat → Nat → Prop} {s t : State} {us : Nat → State} {m q : Nat} (h : CutRun P s t us m q)
    (hp : ∀ i, i ≤ 16 → P (m + i) q) :
    CutRun P s (identifyFrame t).2 (fun k => (identifyFrame (us k)).2) (m + 16) q := by
  have h := dummy_cut (sendByte_cut (chipSelect_cut h true) opReadId) 8
  have h := rxByte1_cut h fun i hi => hp i (by omega)
  have h := rxByte1_cut h fun i hi => by rw [Nat.add_assoc]; exact hp (8 + i) (by omega)
  have h := chipSelect_cut h false
  simpa only [identifyFrame] using h

theorem loadFrame_cut {P : Nat → Nat → Prop} {s t : State} {us : Nat → State} {m q : Nat} (h : CutRun P s t us m q)
    (row : BitVec 24) : CutRun P s (loadFrame row t) (fun k => loadFrame row (us k)) m q := by
  have h := chipSelect_cut (sendByte_cut (sendByte_cut (sendByte_cut (sendByte_cut (chipSelect_cut h true)
    opPageReadToCache) (rowByte2 row)) (rowByte1 row)) (rowByte0 row)) false
  simp only [loadFrame]
  simp only [h.cfg_cut]
  exact delay_cut h _

theorem quadReadFrame_cut {s t : State} {us : Nat → State} (h : CutRun (BytesSampled .x4) s t us 0 0)
    (col l : BitVec 16) : CutRun (BytesSampled .x4) s (quadReadFrame col l t).2
      (fun k => (quadReadFrame col l (us k)).2) (clampLen l s.cfg * pulsesPerByte .x4) (clampLen l s.cfg) := by
  have h := dummy_cut (sendByte_cut (sendByte_cut (sendByte_cut (chipSelect_cut h true) opFastReadQuad)
    (colByte1 col)) (colByte0 col)) 8
  have e := h.cfg_cut
  have e' := h.cfg
  simp only [quadReadFrame, e, e']
  have h := chipSelect_cut (rxInto_cut (q := 0) .x4 (by rwa [Nat.zero_mul]) (clampLen l s.cfg)) false
  rwa [Nat.zero_add] at h

end Sys2Proof.Machine
end

