-- ==== Sys2Proof/Laws/Encoding.lean ====
section
/-! SUPPORT. The bits of a command word, and when a word made of fields matches a row of the opcode table. -/

namespace Sys2Proof

/-- Every bit of a command word is a bit of one of its fields, or 0. -/
theorem cmdWord_getLsbD (op : BitVec 8) (wc : BitVec 2) (len : BitVec 16) (arg : BitVec 32) (i : Nat) :
    (cmdWord op wc len arg).getLsbD i =
      if i < 32 then arg.getLsbD i else if i < 48 then len.getLsbD (i - 32) else if i < 54 then false
      else if i < 56 then wc.getLsbD (i - 54) else op.getLsbD (i - 56) := by
  have : (cmdWord op wc len arg).getLsbD i =
    BitVec.getLsbD (w := 8 + 2 + 6 + 16 + 32) (op ++ wc ++ 0#6 ++ len ++ arg) i := rfl
  rw [this]
  simp only [BitVec.getLsbD_append, BitVec.getLsbD_zero]
  repeat' split
  all_goals first | (exfalso; omega) | rfl

@[simp] theorem fieldLen_cmdWord (op : BitVec 8) (wc : BitVec 2) (len : BitVec 16) (arg : BitVec 32) :
    fieldLen (cmdWord op wc len arg) = len := by
  apply BitVec.eq_of_getLsbD_eq
  intro i hi
  simp [fieldLen, hi, cmdWord_getLsbD]
  omega

@[simp] theorem fieldArg_cmdWord (op : BitVec 8) (wc : BitVec 2) (len : BitVec 16) (arg : BitVec 32) :
    fieldArg (cmdWord op wc len arg) = arg := by
  apply BitVec.eq_of_getLsbD_eq
  intro i hi
  simp [fieldArg, hi, cmdWord_getLsbD]

/-- A word made of fields matches a mask and a fixed value if each field does. -/
theorem cmdWord_matches {m f : CmdWord} {op : BitVec 8} {wc : BitVec 2} {len : BitVec 16} {arg : BitVec 32}
    (ho : op &&& m.extractLsb' 56 8 = f.extractLsb' 56 8) (hw : wc &&& m.extractLsb' 54 2 = f.extractLsb' 54 2)
    (hr : f.extractLsb' 48 6 = 0) (hl : len &&& m.extractLsb' 32 16 = f.extractLsb' 32 16)
    (ha : arg &&& m.extractLsb' 0 32 = f.extractLsb' 0 32) : cmdWord op wc len arg &&& m = f := by
  apply BitVec.eq_of_getLsbD_eq
  intro i hi
  have bit {n : Nat} {a b : BitVec n} (h : a = b) (k : Nat) : a.getLsbD k = b.getLsbD k := by rw [h]
  rw [BitVec.getLsbD_and, cmdWord_getLsbD]
  split
  · rename_i h; simpa [h] using bit ha i
  split
  · simpa [show i - 32 < 16 by omega, show 32 + (i - 32) = i by omega] using bit hl (i - 32)
  split
  · simpa [show i - 48 < 6 by omega, show 48 + (i - 48) = i by omega] using (bit hr (i - 48)).symm
  split
  · simpa [show i - 54 < 2 by omega, show 54 + (i - 54) = i by omega] using bit hw (i - 54)
  · simpa [show i - 56 < 8 by omega, show 56 + (i - 56) = i by omega] using bit ho (i - 56)

/-- An operand at the low end of ARG sets no bit of a mask that leaves its bits out. -/
theorem argLow_masked {n : Nat} {m : BitVec 32} (v : BitVec n) (h : ∀ i < n, m.getLsbD i = false) :
    v.setWidth 32 &&& m = 0 := by
  apply BitVec.eq_of_getLsbD_eq
  intro i hi
  by_cases k : i < n
  · simp [h i k]
  · simp [BitVec.getLsbD_of_ge v i (by omega)]

end Sys2Proof
end

