-- ==== Sys2Proof/Laws/Moves.lean ====
section
/-! SUPPORT. What every sequence and every command keeps, whether or not a reset cuts it: the trace only grows, the
lines follow its events, the buffer keeps its form and nothing else of the state moves. -/

namespace Sys2Proof.Machine

open Sys2Proof

/-- An event a command may append: it sets CLK and CS to nothing but OUT (10_state.md R103), and it is no reset and no
environment step. -/
def coreEvent : Event → Prop
  | .dir S m => Line.clk ∈ S ∨ Line.cs ∈ S → m = .out
  | .rst => False
  | .env _ => False
  | _ => True

/-- A part of a command leads from `s` to `t`. -/
structure Moves (s t : State) : Prop where
  events : ∃ es, t.trace = s.trace ++ es ∧ t.lines = replay s.lines es ∧ ∀ e ∈ es, coreEvent e
  result : t.result = s.result
  count : t.count = s.count
  status : t.status = s.status
  badcmd : t.badcmd = s.badcmd
  cfg : t.cfg = s.cfg
  inbox : t.inbox = s.inbox
  replies : t.replies = s.replies
  bufOutside : ∀ j, s.cfg.bufCap ≤ j → t.buf.read j = s.buf.read j
  bufWf : s.buf.wf = true → t.buf.wf = true
  bufWithin : s.buf.within s.cfg.bufCap = true → t.buf.within s.cfg.bufCap = true
  pending : t.resetAfter = none ↔ s.resetAfter = none

theorem Moves.refl (s : State) : Moves s s where
  events := ⟨[], by simp⟩
  result := rfl
  count := rfl
  status := rfl
  badcmd := rfl
  cfg := rfl
  inbox := rfl
  replies := rfl
  bufOutside _ _ := rfl
  bufWf := id
  bufWithin := id
  pending := Iff.rfl

theorem Moves.trans {s t u : State} (h : Moves s t) (k : Moves t u) : Moves s u where
  events := by
    obtain ⟨es, h₁, h₂, h₃⟩ := h.events
    obtain ⟨fs, k₁, k₂, k₃⟩ := k.events
    refine ⟨es ++ fs, by simp [h₁, k₁], by simp [h₂, k₂], ?_⟩
    intro e he
    rcases List.mem_append.1 he with he | he
    · exact h₃ e he
    · exact k₃ e he
  result := k.result.trans h.result
  count := k.count.trans h.count
  status := k.status.trans h.status
  badcmd := k.badcmd.trans h.badcmd
  cfg := k.cfg.trans h.cfg
  inbox := k.inbox.trans h.inbox
  replies := k.replies.trans h.replies
  bufOutside j hj := (k.bufOutside j (h.cfg ▸ hj)).trans (h.bufOutside j hj)
  bufWf hs := k.bufWf (h.bufWf hs)
  bufWithin hs := by have := h.bufWithin hs; rw [← h.cfg] at this ⊢; exact k.bufWithin this
  pending := k.pending.trans h.pending

/-- An action that a reset may cut: it is done, or nothing is. -/
theorem act_moves {f : State → State} (hf : ∀ s, Moves s (f s)) (s : State) : Moves s (act f s) := by
  unfold act
  split
  · exact hf s
  · exact Moves.refl s
  · rename_i k hk
    have := hf { s with resetAfter := some k }
    exact ⟨this.events, this.result, this.count, this.status, this.badcmd, this.cfg, this.inbox, this.replies,
      this.bufOutside, this.bufWf, this.bufWithin, this.pending.trans (by simp [hk])⟩

/-- Appending an event whose effect on the lines is taken. -/
theorem emit_moves (e : Event) (he : coreEvent e) (s : State) (as : List Levels) :
    Moves s (emit e { s with lines := eventLines s.lines e, answers := as }) where
  events := ⟨[e], rfl, rfl, by simpa using he⟩
  result := rfl
  count := rfl
  status := rfl
  badcmd := rfl
  cfg := rfl
  inbox := rfl
  replies := rfl
  bufOutside _ _ := rfl
  bufWf := id
  bufWithin := id
  pending := Iff.rfl

theorem setDir_moves (S : List Line) (m : Mode) (h : Line.clk ∈ S ∨ Line.cs ∈ S → m = .out) (s : State) :
    Moves s (setDir S m s) := act_moves (fun s => emit_moves (.dir S m) h s s.answers) s

theorem drive_moves (v : LineBits) (s : State) : Moves s (drive v s) :=
  act_moves (fun s => emit_moves (.drv v) trivial s s.answers) s

theorem delay_moves (t : Nat) (s : State) : Moves s (delay t s) :=
  act_moves (fun s => emit_moves (.wait t) trivial s s.answers) s

theorem sampleAction_moves (S : List Line) (s : State) : Moves s (sampleAction S s) :=
  act_moves (fun s => emit_moves (.smp ((presented S s).restrict S)) trivial s s.answers.tail) s

/-- A command's buffer write is below C. -/
theorem memWrite_moves {i : Nat} (v : Byte) (s : State) (hi : i < s.cfg.bufCap) : Moves s (memWrite i v s) := by
  have key : ∀ t : State, i < t.cfg.bufCap → Moves t { t with buf := t.buf.write i v } := fun t ht =>
    { events := ⟨[], by simp⟩, result := rfl, count := rfl, status := rfl, badcmd := rfl, cfg := rfl, inbox := rfl,
      replies := rfl, pending := Iff.rfl,
      bufOutside := fun j hj => by
        show (t.buf.write i v).read j = _
        rw [Memory.read_write, if_neg (by omega)],
      bufWf := fun h => Memory.write_wf h i v, bufWithin := fun h => Memory.write_within h ht v }
  unfold memWrite act
  split
  · exact key s hi
  · exact Moves.refl s
  · rename_i k hk
    have := key { s with resetAfter := some k } hi
    exact ⟨this.events, this.result, this.count, this.status, this.badcmd, this.cfg, this.inbox, this.replies,
      this.bufOutside, this.bufWf, this.bufWithin, this.pending.trans (by simp [hk])⟩

theorem chipSelect_moves (a : Bool) (s : State) : Moves s (chipSelect a s) :=
  ((setDir_moves [.clk, .cs] .out (fun _ => rfl) s).trans (drive_moves _ _)).trans (drive_moves _ _)

theorem clockPulse_moves (s : State) : Moves s (clockPulse s) :=
  (((drive_moves _ s).trans (delay_moves _ _)).trans (drive_moves _ _)).trans (delay_moves _ _)

theorem writeSet_free (w : LaneWidth) (m : Mode) : Line.clk ∈ writeSet w ∨ Line.cs ∈ writeSet w → m = .out := by
  cases w <;> simp [writeSet]

theorem readSet_free (w : LaneWidth) (m : Mode) : Line.clk ∈ readSet w ∨ Line.cs ∈ readSet w → m = .out := by
  cases w <;> simp [readSet]

theorem activeSet_free (w : LaneWidth) (m : Mode) : Line.clk ∈ activeSet w ∨ Line.cs ∈ activeSet w → m = .out := by
  cases w <;> simp [activeSet]

theorem pulseWrite_moves (w : LaneWidth) (v : BitVec 4) (s : State) : Moves s (pulseWrite w v s) :=
  ((setDir_moves _ _ (writeSet_free w _) s).trans (drive_moves _ _)).trans (clockPulse_moves _)

theorem pulseRead_moves (w : LaneWidth) (s : State) : Moves s (pulseRead w s).2 :=
  ((setDir_moves _ _ (readSet_free w _) s).trans (sampleAction_moves _ _)).trans (clockPulse_moves _)

theorem pulseFullDuplex_moves (w : LaneWidth) (v : BitVec 4) (s : State) : Moves s (pulseFullDuplex w v s).2 :=
  (((((((setDir_moves _ _ (writeSet_free w _) s).trans (drive_moves _ _)).trans (drive_moves _ _)).trans
    (delay_moves _ _)).trans (setDir_moves _ _ (activeSet_free w _) _)).trans (drive_moves _ _)).trans
    (sampleAction_moves _ _)).trans (delay_moves _ _)

theorem clockPulses_moves (n : Nat) (s : State) : Moves s (clockPulses n s) := by
  induction n generalizing s with
  | zero => exact Moves.refl s
  | succ n ih => exact (clockPulse_moves s).trans (ih _)

theorem dummy_moves (n : Nat) (s : State) : Moves s (dummy n s) :=
  (setDir_moves _ _ (by simp [Line.data]) s).trans (clockPulses_moves n _)

theorem sendByte_moves (b : Byte) (s : State) : Moves s (sendByte b s) := by
  have : ∀ k s, Moves s (sendBits b k s) := by
    intro k
    induction k with
    | zero => exact Moves.refl
    | succ k ih => exact fun s => (pulseWrite_moves _ _ s).trans (ih _)
  exact this 8 s

theorem rxBits_moves (k : Nat) (r : Byte) (s : State) : Moves s (rxBits k r s).2 := by
  induction k generalizing r s with
  | zero => exact Moves.refl s
  | succ k ih => exact (pulseRead_moves .x1 s).trans (ih _ _)

theorem rxPairs_moves (k : Nat) (r : Byte) (s : State) : Moves s (rxPairs k r s).2 := by
  induction k generalizing r s with
  | zero => exact Moves.refl s
  | succ k ih => exact (pulseRead_moves .x2 s).trans (ih _ _)

theorem rxByte1_moves (s : State) : Moves s (rxByte1 s).2 := rxBits_moves 8 0 s

theorem rxByte2_moves (s : State) : Moves s (rxByte2 s).2 := rxPairs_moves 4 0 s

theorem rxByte4_moves (s : State) : Moves s (rxByte4 s).2 :=
  (pulseRead_moves .x4 s).trans (pulseRead_moves .x4 _)

theorem rxByte_moves (w : LaneWidth) (s : State) : Moves s (rxByte w s).2 := by
  cases w
  · exact rxByte1_moves s
  · exact rxByte2_moves s
  · exact rxByte4_moves s

theorem rxInto_moves (w : LaneWidth) (n i : Nat) (s : State) (h : i + n ≤ s.cfg.bufCap) :
    Moves s (rxInto w n i s) := by
  induction n generalizing i s with
  | zero => exact Moves.refl s
  | succ n ih =>
    have h₁ := rxByte_moves w s
    have h₂ := memWrite_moves (i := i) (rxByte w s).1 (rxByte w s).2 (by rw [h₁.cfg]; omega)
    refine (h₁.trans h₂).trans (ih (i + 1) _ ?_)
    rw [(h₁.trans h₂).cfg]; omega

theorem clampLen_le (l : BitVec 16) (cfg : Config) : clampLen l cfg ≤ cfg.bufCap := Nat.min_le_right _ _

theorem rxBulk_moves (w : LaneWidth) (l : BitVec 16) (s : State) : Moves s (rxBulk w l s).2 :=
  rxInto_moves w _ 0 s (by simpa using clampLen_le l s.cfg)

theorem identifyFrame_moves (s : State) : Moves s (identifyFrame s).2 := by
  have h := ((chipSelect_moves true s).trans (sendByte_moves opReadId _)).trans (dummy_moves 8 _)
  simp only [identifyFrame]
  generalize dummy 8 (sendByte opReadId (chipSelect true s)) = t at h ⊢
  have h₁ := rxByte1_moves t
  generalize rxByte1 t = r₁ at h₁ ⊢
  have h₂ := rxByte1_moves r₁.2
  generalize rxByte1 r₁.2 = r₂ at h₂ ⊢
  exact ((h.trans h₁).trans h₂).trans (chipSelect_moves false _)

theorem loadFrame_moves (row : BitVec 24) (s : State) : Moves s (loadFrame row s) :=
  ((((((chipSelect_moves _ s).trans (sendByte_moves _ _)).trans (sendByte_moves _ _)).trans
    (sendByte_moves _ _)).trans (sendByte_moves _ _)).trans (chipSelect_moves _ _)).trans (delay_moves _ _)

theorem quadReadFrame_moves (col l : BitVec 16) (s : State) : Moves s (quadReadFrame col l s).2 :=
  ((((((chipSelect_moves _ s).trans (sendByte_moves _ _)).trans (sendByte_moves _ _)).trans
    (sendByte_moves _ _)).trans (dummy_moves _ _)).trans
    (rxInto_moves .x4 _ 0 _ (by simpa using clampLen_le l _))).trans (chipSelect_moves _ _)

/-! ### Commands -/

/-- Writing RESULT moves RESULT only. -/
theorem writeResult_eq (v : Half) (s : State) : ∃ r, writeResult v s = { s with result := r } := by
  unfold writeResult
  split
  · exact ⟨v, rfl⟩
  · exact ⟨s.result, rfl⟩

/-- Writing COUNT moves COUNT only. -/
theorem writeCount_eq (v : Half) (s : State) : ∃ c, (c = v ∨ c = s.count) ∧ writeCount v s = { s with count := c } := by
  unfold writeCount
  split
  · exact ⟨v, .inl rfl, rfl⟩
  · exact ⟨s.count, .inr rfl, rfl⟩

/-- The command writes RESULT (10_state.md R111). -/
def writesResult : Instr → Bool
  | .pulserX1 | .pulserX2 | .pulserX4 | .pulsefdX1 _ | .pulsefdX2 _ | .pulsefdX4 _
  | .readbyte | .readdualbyte | .readquadbyte | .identify => true
  | _ => false

/-- The command writes COUNT (R112). -/
def writesCount : Instr → Bool
  | .readbytes _ | .readdualbytes _ | .readquadbytes _ | .qread _ _ => true
  | _ => false

/-- What every command does: it moves the state as its sequence does, and then writes RESULT or COUNT if it is a
writer of it. -/
theorem exec_moves (i : Instr) (s : State) :
    ∃ t r c, Moves s t ∧ exec i s = .next { t with result := r, count := c } ∧
      (writesResult i = false → r = s.result) ∧ (writesCount i = false → c = s.count) ∧
      (c.toNat ≤ s.cfg.bufCap ∨ c = s.count) := by
  have plain : ∀ t, Moves s t → exec i s = .next t → ∃ t r c, Moves s t ∧
      exec i s = .next { t with result := r, count := c } ∧ (writesResult i = false → r = s.result) ∧
      (writesCount i = false → c = s.count) ∧ (c.toNat ≤ s.cfg.bufCap ∨ c = s.count) := fun t ht he =>
    ⟨t, t.result, t.count, ht, he, fun _ => ht.result, fun _ => ht.count, .inr ht.count⟩
  have res : ∀ t v, Moves s t → exec i s = .next (writeResult v t) → writesResult i = true → ∃ t r c, Moves s t ∧
      exec i s = .next { t with result := r, count := c } ∧ (writesResult i = false → r = s.result) ∧
      (writesCount i = false → c = s.count) ∧ (c.toNat ≤ s.cfg.bufCap ∨ c = s.count) := fun t v ht he hw => by
    obtain ⟨r, hr⟩ := writeResult_eq v t
    exact ⟨t, r, t.count, ht, by rw [he, hr], by simp [hw], fun _ => ht.count, .inr ht.count⟩
  have cnt : ∀ t (n : Nat), Moves s t → exec i s = .next (writeCount (BitVec.ofNat 16 n) t) → n ≤ s.cfg.bufCap →
      writesCount i = true → ∃ t r c, Moves s t ∧
      exec i s = .next { t with result := r, count := c } ∧ (writesResult i = false → r = s.result) ∧
      (writesCount i = false → c = s.count) ∧ (c.toNat ≤ s.cfg.bufCap ∨ c = s.count) := fun t n ht he hn hw => by
    obtain ⟨c, hc, hr⟩ := writeCount_eq (BitVec.ofNat 16 n) t
    refine ⟨t, t.result, c, ht, by rw [he, hr], fun _ => ht.result, by simp [hw], ?_⟩
    rcases hc with rfl | rfl
    · exact .inl ((by simpa using Nat.mod_le n 65536 : _ ≤ n).trans hn)
    · exact .inr ht.count
  cases i with
  | setcs a => exact plain _ (chipSelect_moves a s) rfl
  | pulsewX1 v => exact plain _ (pulseWrite_moves .x1 _ s) rfl
  | pulsewX2 v => exact plain _ (pulseWrite_moves .x2 _ s) rfl
  | pulsewX4 v => exact plain _ (pulseWrite_moves .x4 v s) rfl
  | pulserX1 => exact res _ _ (pulseRead_moves .x1 s) rfl rfl
  | pulserX2 => exact res _ _ (pulseRead_moves .x2 s) rfl rfl
  | pulserX4 => exact res _ _ (pulseRead_moves .x4 s) rfl rfl
  | pulsefdX1 v => exact res _ _ (pulseFullDuplex_moves .x1 _ s) rfl rfl
  | pulsefdX2 v => exact res _ _ (pulseFullDuplex_moves .x2 _ s) rfl rfl
  | pulsefdX4 v => exact res _ _ (pulseFullDuplex_moves .x4 v s) rfl rfl
  | dummy n => exact plain _ (dummy_moves n.toNat s) rfl
  | sendcmd b => exact plain _ (sendByte_moves b s) rfl
  | readbyte => exact res _ _ (rxByte1_moves s) rfl rfl
  | readdualbyte => exact res _ _ (rxByte2_moves s) rfl rfl
  | readquadbyte => exact res _ _ (rxByte4_moves s) rfl rfl
  | readbytes l => exact cnt _ _ (rxBulk_moves .x1 l s) rfl (clampLen_le l _) rfl
  | readdualbytes l => exact cnt _ _ (rxBulk_moves .x2 l s) rfl (clampLen_le l _) rfl
  | readquadbytes l => exact cnt _ _ (rxBulk_moves .x4 l s) rfl (clampLen_le l _) rfl
  | identify => exact res _ _ (identifyFrame_moves s) rfl rfl
  | loadpage row => exact plain _ (loadFrame_moves row s) rfl
  | qread col l =>
    refine cnt _ (quadReadFrame col l s).1 (quadReadFrame_moves col l s) rfl ?_ rfl
    have hc := (((((chipSelect_moves true s).trans (sendByte_moves opFastReadQuad _)).trans
      (sendByte_moves (colByte1 col) _)).trans (sendByte_moves (colByte0 col) _)).trans (dummy_moves 8 _)).cfg
    simp only [quadReadFrame]
    rw [hc]
    exact clampLen_le l _

end Sys2Proof.Machine
end

