-- ==== Sys2Proof/Laws/PerInstr.lean ====
section
/-! SUPPORT. For every instruction: the word the encoder writes matches its row of the opcode table, and the row builds
the instruction back from the word. -/

namespace Sys2Proof.Laws.WordMatchesItsRow

open Sys2Proof

/-- The place of an instruction's row in spec/opcode_table.json, counted from 0. -/
def rowOf : Instr → Nat
  | .setcs _ => 0
  | .pulsewX1 _ => 1
  | .pulsewX2 _ => 2
  | .pulsewX4 _ => 3
  | .pulserX1 => 4
  | .pulserX2 => 5
  | .pulserX4 => 6
  | .pulsefdX1 _ => 7
  | .pulsefdX2 _ => 8
  | .pulsefdX4 _ => 9
  | .dummy _ => 10
  | .sendcmd _ => 11
  | .readbyte => 12
  | .readdualbyte => 13
  | .readquadbyte => 14
  | .readbytes _ => 15
  | .readdualbytes _ => 16
  | .readquadbytes _ => 17
  | .identify => 18
  | .loadpage _ => 19
  | .qread _ _ => 20

/-- The word of an instruction matches the instruction's row (30_encoding.md R304, R308), and the row reads the
instruction from it. -/
def Statement (i : Instr) : Prop :=
  ∃ r, opcodeTable[rowOf i]? = some r ∧ encode i &&& r.mask = r.fixed ∧ r.build (encode i) = i

theorem setcs (a : Bool) : Statement (.setcs a) := by
  refine ⟨_, rfl, ?_, ?_⟩
  · cases a <;> decide
  · cases a <;> decide

theorem pulsewX1 (v : BitVec 1) : Statement (.pulsewX1 v) := by
  refine ⟨_, rfl, ?_, ?_⟩
  · exact cmdWord_matches (by decide) (by decide) (by decide) (by decide) (argLow_masked v (by decide))
  · simp [encode, argLow]

theorem pulsewX2 (v : BitVec 2) : Statement (.pulsewX2 v) := by
  refine ⟨_, rfl, ?_, ?_⟩
  · exact cmdWord_matches (by decide) (by decide) (by decide) (by decide) (argLow_masked v (by decide))
  · simp [encode, argLow]

theorem pulsewX4 (v : BitVec 4) : Statement (.pulsewX4 v) := by
  refine ⟨_, rfl, ?_, ?_⟩
  · exact cmdWord_matches (by decide) (by decide) (by decide) (by decide) (argLow_masked v (by decide))
  · simp [encode, argLow]

theorem pulserX1 : Statement (.pulserX1) := by
  refine ⟨_, rfl, ?_, ?_⟩
  · decide
  · rfl

theorem pulserX2 : Statement (.pulserX2) := by
  refine ⟨_, rfl, ?_, ?_⟩
  · decide
  · rfl

theorem pulserX4 : Statement (.pulserX4) := by
  refine ⟨_, rfl, ?_, ?_⟩
  · decide
  · rfl

theorem pulsefdX1 (v : BitVec 1) : Statement (.pulsefdX1 v) := by
  refine ⟨_, rfl, ?_, ?_⟩
  · exact cmdWord_matches (by decide) (by decide) (by decide) (by decide) (argLow_masked v (by decide))
  · simp [encode, argLow]

theorem pulsefdX2 (v : BitVec 2) : Statement (.pulsefdX2 v) := by
  refine ⟨_, rfl, ?_, ?_⟩
  · exact cmdWord_matches (by decide) (by decide) (by decide) (by decide) (argLow_masked v (by decide))
  · simp [encode, argLow]

theorem pulsefdX4 (v : BitVec 4) : Statement (.pulsefdX4 v) := by
  refine ⟨_, rfl, ?_, ?_⟩
  · exact cmdWord_matches (by decide) (by decide) (by decide) (by decide) (argLow_masked v (by decide))
  · simp [encode, argLow]

theorem dummy (n : BitVec 16) : Statement (.dummy n) := by
  refine ⟨_, rfl, ?_, ?_⟩
  · exact cmdWord_matches (by decide) (by decide) (by decide) (BitVec.and_zero) (by decide)
  · simp [encode]

theorem sendcmd (b : Byte) : Statement (.sendcmd b) := by
  refine ⟨_, rfl, ?_, ?_⟩
  · exact cmdWord_matches (by decide) (by decide) (by decide) (by decide) (argLow_masked b (by decide))
  · simp [encode, argLow]

theorem readbyte : Statement (.readbyte) := by
  refine ⟨_, rfl, ?_, ?_⟩
  · decide
  · rfl

theorem readdualbyte : Statement (.readdualbyte) := by
  refine ⟨_, rfl, ?_, ?_⟩
  · decide
  · rfl

theorem readquadbyte : Statement (.readquadbyte) := by
  refine ⟨_, rfl, ?_, ?_⟩
  · decide
  · rfl

theorem readbytes (l : BitVec 16) : Statement (.readbytes l) := by
  refine ⟨_, rfl, ?_, ?_⟩
  · exact cmdWord_matches (by decide) (by decide) (by decide) (BitVec.and_zero) (by decide)
  · simp [encode]

theorem readdualbytes (l : BitVec 16) : Statement (.readdualbytes l) := by
  refine ⟨_, rfl, ?_, ?_⟩
  · exact cmdWord_matches (by decide) (by decide) (by decide) (BitVec.and_zero) (by decide)
  · simp [encode]

theorem readquadbytes (l : BitVec 16) : Statement (.readquadbytes l) := by
  refine ⟨_, rfl, ?_, ?_⟩
  · exact cmdWord_matches (by decide) (by decide) (by decide) (BitVec.and_zero) (by decide)
  · simp [encode]

theorem identify : Statement (.identify) := by
  refine ⟨_, rfl, ?_, ?_⟩
  · decide
  · rfl

theorem loadpage (row : BitVec 24) : Statement (.loadpage row) := by
  refine ⟨_, rfl, ?_, ?_⟩
  · exact cmdWord_matches (by decide) (by decide) (by decide) (by decide) (argLow_masked row (by decide))
  · simp [encode, argLow]

theorem qread (col l : BitVec 16) : Statement (.qread col l) := by
  refine ⟨_, rfl, ?_, ?_⟩
  · exact cmdWord_matches (by decide) (by decide) (by decide) (BitVec.and_zero) (argLow_masked col (by decide))
  · simp [encode, argLow]

end Sys2Proof.Laws.WordMatchesItsRow
end

