-- ==== Sys2Proof/Laws/Step.lean ====
section
/-! SUPPORT. What a step can do, said once: the inversion lemma of `step`. -/

namespace Sys2Proof.Machine

open Sys2Proof

/-- Accepting a word: the command it spells, or the exception. -/
theorem accept_cases (w : CmdWord) (s : State) : (∃ i, decode w = .ok i ∧ accept w s = exec i s) ∨ (∃ c, decode w = .error c ∧ accept w s = .next (raiseIllegal c w s)) := by
  unfold accept
  cases decode w with
  | ok i => exact .inl ⟨i, rfl, rfl⟩
  | error c => exact .inr ⟨c, rfl, rfl⟩

/-- What a command leaves, from the state it answers. -/
theorem exec_next_moves {i : Instr} {s t : State} (h : exec i s = .next t) : ∃ u r c, Moves s u ∧ t = { u with result := r, count := c } ∧ (c.toNat ≤ s.cfg.bufCap ∨ c = s.count) := by
  obtain ⟨u, r, c, hm, he, -, -, hc⟩ := exec_moves i s
  rw [he] at h; injection h with h
  exact ⟨u, r, c, hm, h.symm, hc⟩

/-- A step is one of: idle; a command; an illegal word; either of them cut by a reset; a reply to the host; a host
write; nothing but the request taken; a reset; an environment step. -/
theorem step_cases {s t : State} (h : step s = .next t) :
    (s.inbox = [] ∧ t = s) ∨ ∃ rest, s.inbox = (s.inbox.head?.getD .reset) :: rest ∧
      ((∃ w i u, s.inbox.head? = some (.command w) ∧ decode w = .ok i ∧ exec i { s with inbox := rest, resetAfter := none } = .next u ∧ t = reply .completed u) ∨
       (∃ w c, s.inbox.head? = some (.command w) ∧ decode w = .error c ∧ t = reply .completed (raiseIllegal c w { s with inbox := rest, resetAfter := none })) ∨
       (∃ w k i u, s.inbox.head? = some (.commandThenReset w k) ∧ decode w = .ok i ∧ exec i { s with inbox := rest, resetAfter := some k } = .next u ∧ t = applyReset u) ∨
       (∃ w k c, s.inbox.head? = some (.commandThenReset w k) ∧ decode w = .error c ∧ t = applyReset (raiseIllegal c w { s with inbox := rest, resetAfter := some k })) ∨
       (∃ r, t = reply r { s with inbox := rest }) ∨
       (∃ i v, i < s.cfg.bufCap ∧ t = { s with inbox := rest, buf := s.buf.write i v }) ∨
       t = { s with inbox := rest } ∨
       t = applyReset { s with inbox := rest } ∨
       (∃ set, t = environmentStep set { s with inbox := rest })) := by
  unfold step at h
  split at h
  · rename_i hs; injection h with h; exact .inl ⟨hs, h.symm⟩
  · rename_i r rest hs
    right; refine ⟨rest, by simp [hs], ?_⟩
    cases r with
    | command w =>
      simp only [serve] at h
      rcases accept_cases w { s with inbox := rest, resetAfter := none } with ⟨i, hd, hi⟩ | ⟨c, hd, hi⟩
      · obtain ⟨u, r, c, hm, hx, -⟩ := exec_moves i { s with inbox := rest, resetAfter := none }
        rw [hi, hx] at h; injection h with h
        exact .inl ⟨w, i, _, by simp [hs], hd, hx, h.symm⟩
      · rw [hi] at h; injection h with h
        exact .inr (.inl ⟨w, c, by simp [hs], hd, h.symm⟩)
    | commandThenReset w k =>
      simp only [serve] at h
      rcases accept_cases w { s with inbox := rest, resetAfter := some k } with ⟨i, hd, hi⟩ | ⟨c, hd, hi⟩
      · obtain ⟨u, r, c, hm, hx, -⟩ := exec_moves i { s with inbox := rest, resetAfter := some k }
        rw [hi, hx] at h; injection h with h
        exact .inr (.inr (.inl ⟨w, k, i, _, by simp [hs], hd, hx, h.symm⟩))
      · rw [hi] at h; injection h with h
        exact .inr (.inr (.inr (.inl ⟨w, k, c, by simp [hs], hd, h.symm⟩)))
    | readReg r => injection h with h; exact .inr (.inr (.inr (.inr (.inl ⟨_, h.symm⟩))))
    | readBuf i =>
      simp only [serve, hostReadBuf] at h
      split at h
      · split at h
        · injection h with h; exact .inr (.inr (.inr (.inr (.inl ⟨_, h.symm⟩))))
        · cases h
      · injection h with h; exact .inr (.inr (.inr (.inr (.inl ⟨_, h.symm⟩))))
    | writeBuf i v =>
      injection h with h
      by_cases hi : i < s.cfg.bufCap
      · exact .inr (.inr (.inr (.inr (.inr (.inl ⟨i, v, hi, by rw [← h]; simp [hostWriteBuf, hi]⟩)))))
      · exact .inr (.inr (.inr (.inr (.inr (.inr (.inl (by rw [← h]; simp [hostWriteBuf, hi])))))))
    | reset => injection h with h; exact .inr (.inr (.inr (.inr (.inr (.inr (.inr (.inl h.symm)))))))
    | env set =>
      injection h with h
      exact .inr (.inr (.inr (.inr (.inr (.inr (.inr (.inr ⟨set, h.symm⟩)))))))

end Sys2Proof.Machine
end

