-- ==== Sys2Proof/Tests/Slice0.lean ====
section
/-! SUPPORT. Tests of the model against values the spec writes out (95_test_vectors.md and the examples of 30 to 43), the
ill-formed statements the assembler refuses, and for every statement with hypotheses a state and operands that meet
them. Expected values come from the spec's text, not from the model. -/

namespace Sys2Proof.Tests

open Sys2Proof Sys2Proof.Machine

set_option maxRecDepth 100000

/-! ### Helpers -/

/-- The power-on reset state with C = 256 and P = 2048 (95_test_vectors.md section 2). -/
def start : State := { State.reset with cfg := Config.scenario }

/-- `start` with another buffer capacity. -/
def startCap (C : Nat) : State := { start with cfg := { Config.scenario with bufCap := C } }

/-- The levels whose IO3 to IO0 are the bits of a nibble. -/
def quadLevels (n : Nat) : Levels :=
  { clk := false, cs := false, io0 := n.testBit 0, io1 := n.testBit 1, io2 := n.testBit 2, io3 := n.testBit 3 }

/-- The levels whose IO1 is a bit. -/
def oneLevels (b : Nat) : Levels := quadLevels (2 * b)

/-- A state in which the outside presents these levels to the next samples. -/
def presenting (lvs : List Levels) (s : State) : State := { s with answers := lvs }

/-- A check of the state an outcome answers; a fault or a refusal fails it. -/
def post (o : Host.Outcome State Fault Refusal) (p : State → Bool) : Bool :=
  match o with
  | .next t => p t
  | _ => false

/-- One step on a command word. -/
def runWord (s : State) (w : Nat) : Host.Outcome State Fault Refusal := step (s.withFetchWord 64 w)

/-- A state after one more step on a command word, for the start of the next. -/
def afterWord (s : State) (w : Nat) : State :=
  match runWord s w with
  | .next t => t
  | _ => s

/-! ### Well-formedness: an ill-formed statement for each check -/

theorem smoke_setcs : (Stmt.setcs 1).wellFormed = true ∧ (Stmt.setcs 2).wellFormed = false := by decide
theorem smoke_pulsew : (Stmt.pulsew .x1 2).wellFormed = false ∧ (Stmt.pulsew .x2 4).wellFormed = false ∧
    (Stmt.pulsew .x4 15).wellFormed = true ∧ (Stmt.pulsew .x4 16).wellFormed = false := by decide
theorem smoke_pulsefd : (Stmt.pulsefd .x1 2).wellFormed = false ∧ (Stmt.pulsefd .x2 3).wellFormed = true ∧
    (Stmt.pulsefd .x4 16).wellFormed = false := by decide
theorem smoke_dummy : (Stmt.dummy 65535).wellFormed = true ∧ (Stmt.dummy 65536).wellFormed = false := by decide
theorem smoke_sendcmd : (Stmt.sendcmd 255).wellFormed = true ∧ (Stmt.sendcmd 256).wellFormed = false := by decide
theorem smoke_bulk : (Stmt.readbytes 65536).wellFormed = false ∧ (Stmt.readdualbytes 65536).wellFormed = false ∧
    (Stmt.readquadbytes 65536).wellFormed = false := by decide
theorem smoke_loadpage : (Stmt.loadpage 16777215).wellFormed = true ∧ (Stmt.loadpage 16777216).wellFormed = false ∧
    (Stmt.pageread 16777216).wellFormed = false := by decide
theorem smoke_qread : (Stmt.qread 65536 1).wellFormed = false ∧ (Stmt.qread 0 65536).wellFormed = false := by decide
theorem smoke_sendaddr : (Stmt.sendaddr24 16777216).wellFormed = false ∧
    (Stmt.sendaddr16 65536).wellFormed = false := by decide

/-! ### Decoding: a word of every row, written out from 30_encoding.md R301 and R308

OP is bits 63:56, WC bits 55:54, RSV bits 53:48, LEN bits 47:32, ARG bits 31:0. -/

theorem test_decode_setcs : decode 0x0100000000000001 = .ok (.setcs true) ∧
    decode 0x0100000000000000 = .ok (.setcs false) := by decide
theorem test_decode_pulsew : decode 0x0200000000000001 = .ok (.pulsewX1 1) ∧
    decode 0x0240000000000002 = .ok (.pulsewX2 2) ∧ decode 0x028000000000000A = .ok (.pulsewX4 0xA) := by decide
theorem test_decode_pulser : decode 0x0300000000000000 = .ok .pulserX1 ∧
    decode 0x0340000000000000 = .ok .pulserX2 ∧ decode 0x0380000000000000 = .ok .pulserX4 := by decide
theorem test_decode_pulsefd : decode 0x0400000000000001 = .ok (.pulsefdX1 1) ∧
    decode 0x0440000000000003 = .ok (.pulsefdX2 3) ∧ decode 0x0480000000000005 = .ok (.pulsefdX4 5) := by decide
theorem test_decode_dummy : decode 0x0500000800000000 = .ok (.dummy 8) ∧
    decode 0x0500FFFF00000000 = .ok (.dummy 65535) := by decide
theorem test_decode_sendcmd : decode 0x100000000000009F = .ok (.sendcmd 0x9F) := by decide
theorem test_decode_readbyte : decode 0x1100000000000000 = .ok .readbyte ∧
    decode 0x1140000000000000 = .ok .readdualbyte ∧ decode 0x1180000000000000 = .ok .readquadbyte := by decide
theorem test_decode_bulk : decode 0x1200012C00000000 = .ok (.readbytes 300) ∧
    decode 0x1240000300000000 = .ok (.readdualbytes 3) ∧
    decode 0x1280000500000000 = .ok (.readquadbytes 5) := by decide
theorem test_decode_frames : decode 0x2000000000000000 = .ok .identify ∧
    decode 0x2100000000000040 = .ok (.loadpage 0x000040) ∧
    decode 0x2200010000000700 = .ok (.qread 1792 256) := by decide

/-- The same bit by bit: OP 0010_0010, WC 00, RSV 000000, LEN 0x0003, ARG bits 15:0 = 0x8001. -/
theorem test_decode_qread_bits :
    decode 0b0010001000000000000000000000001100000000000000001000000000000001 = .ok (.qread 0x8001 3) := by decide

/-- Illegal words: V-LD4, V-BB4, V-BB5, V-BB14, V-LT4, V-LT16, V-LT17, V-NP6, V-NP11, V-IL1, V-IL2, V-IL3, V-IL7,
V-IL8, V-IL9. -/
theorem test_decode_illegal :
    decode 0x0100000000000002 = .error .reservedBitSet ∧ decode 0x0200000000000002 = .error .reservedBitSet ∧
    decode 0x02C0000000000000 = .error .reservedLaneWidth ∧ decode 0x0500000800000001 = .error .reservedBitSet ∧
    decode 0x1000000000000100 = .error .reservedBitSet ∧ decode 0x11C0000000000000 = .error .reservedLaneWidth ∧
    decode 0x1200000100000001 = .error .reservedBitSet ∧ decode 0x2100000001000000 = .error .reservedBitSet ∧
    decode 0x2240000100000000 = .error .reservedBitSet ∧ decode 0x0000000000000000 = .error .unknownOp ∧
    decode 0xFFFFFFFFFFFFFFFF = .error .unknownOp ∧ decode 0x03C0000000000001 = .error .reservedLaneWidth ∧
    decode 0x0600000000000000 = .error .unknownOp ∧ decode 0x0001000000000000 = .error .unknownOp ∧
    decode 0x0101000000000000 = .error .reservedBitSet := by decide

/-- No two rows of the table overlap. -/
theorem test_rows_disjoint :
    opcodeTable.Pairwise fun a b => (a.fixed ^^^ b.fixed) &&& a.mask &&& b.mask ≠ 0 := by decide

/-! ### Effects: the spec's vectors -/

/-- V-LD1. -/
theorem test_setcs : post (runWord start 0x0100000000000001) (fun t =>
    t.lines.cs == ⟨.out, false⟩ && t.lines.clk == ⟨.out, false⟩ &&
    newEvents start t == [.dir [.clk, .cs] .out, .drv [(.clk, false)], .drv [(.cs, false)]]) = true := by decide

/-- V-LD3: CLK (IN, 1) and CS (IN, 0): the two DRV events are a falling edge and a deassertion edge. -/
theorem test_setcs_shared :
    let s := { start with lines := { start.lines with clk := ⟨.inp, true⟩, cs := ⟨.inp, false⟩ } }
    post (runWord s 0x0100000000000000) (fun t =>
      countEdges .clk false s.lines (newEvents s t) == 1 && deassertions s.lines (newEvents s t) == 1 &&
      t.lines.clk == ⟨.out, false⟩ && t.lines.cs == ⟨.out, true⟩) = true := by decide

/-- V-BB1, V-BB2, V-BB3. -/
theorem test_pulsew : post (runWord start 0x0200000000000001) (fun t =>
      t.lines.io0 == ⟨.out, true⟩ && t.lines.io1 == ⟨.inPu, true⟩ && risingEdges start.lines (newEvents start t) == 1 &&
      (newEvents start t).length == 6) = true ∧
    post (runWord start 0x0240000000000002) (fun t =>
      t.lines.io1 == ⟨.out, true⟩ && t.lines.io0 == ⟨.out, false⟩) = true ∧
    post (runWord start 0x028000000000000A) (fun t =>
      t.lines.io3 == ⟨.out, true⟩ && t.lines.io2 == ⟨.out, false⟩ && t.lines.io1 == ⟨.out, true⟩ &&
      t.lines.io0 == ⟨.out, false⟩) = true := by decide

/-- V-BB6 after V-BB1; V-BB7; V-BB8. -/
theorem test_pulser :
    post (runWord (presenting [oneLevels 1] (afterWord start 0x0200000000000001)) 0x0300000000000000) (fun t =>
      t.result == 0x0001 && t.lines.io1 == ⟨.inp, true⟩ && t.lines.io0 == ⟨.out, true⟩) = true ∧
    post (runWord (presenting [quadLevels 2] start) 0x0340000000000000) (fun t =>
      t.result == 0x0002 && t.lines.io0.mode == .inp && t.lines.io1.mode == .inp) = true ∧
    post (runWord (presenting [quadLevels 15] start) 0x0380000000000000) (fun t => t.result == 0x000F) = true := by
  decide

/-- V-BB9: the eight events in order. V-BB10. -/
theorem test_pulsefd :
    post (runWord (presenting [quadLevels 1] start) 0x0440000000000003) (fun t => t.result == 0x0001 &&
      newEvents start t == [.dir [.io0, .io1] .out, .drv [(.io0, true), (.io1, true)], .drv [(.clk, true)],
        .wait start.cfg.tBit, .dir [.io0, .io1] .inp, .drv [(.clk, false)], .smp [(.io0, true), (.io1, false)],
        .wait start.cfg.tBit]) = true ∧
    post (runWord (presenting [oneLevels 0] start) 0x0400000000000001) (fun t =>
      t.result == 0x0000 && t.lines.io0.mode == .inp && t.lines.io1.mode == .inp) = true := by decide

/-- V-BB11 after V-BB3; V-BB12. -/
theorem test_dummy :
    post (runWord (afterWord start 0x028000000000000A) 0x0500000000000000) (fun t =>
      t.lines.io3 == ⟨.inPu, true⟩ && t.lines.io2 == ⟨.inPu, false⟩ && t.lines.io1 == ⟨.inPu, true⟩ &&
      t.lines.io0 == ⟨.inPu, false⟩) = true ∧
    post (runWord start 0x0500000800000000) (fun t =>
      (newEvents start t).length == 33 && risingEdges start.lines (newEvents start t) == 8) = true := by decide

/-- V-LT3: IO0 at the eight rising edges. -/
theorem test_sendcmd : post (runWord start 0x100000000000006B) (fun t =>
    latchAtRises .io0 start.lines (newEvents start t) == [false, true, true, false, true, false, true, true] &&
    t.lines.io0 == ⟨.out, true⟩) = true := by decide

/-- 42_lane_transfer.md R520's example. -/
theorem test_readbyte :
    post (runWord (presenting ([0, 0, 1, 0, 1, 1, 0, 0].map oneLevels) start) 0x1100000000000000) (fun t =>
      t.result == 0x002C && t.lines.io0 == ⟨.inPu, true⟩) = true := by decide

/-- R521's example. -/
theorem test_readdualbyte :
    post (runWord (presenting ([2, 3, 0, 1].map quadLevels) start) 0x1140000000000000) (fun t =>
      t.result == 0x00B1) = true := by decide

/-- V-LT10 and R522's example. -/
theorem test_readquadbyte :
    post (runWord (presenting ([0xF, 0x0].map quadLevels) start) 0x1180000000000000) (fun t =>
      t.result == 0x00F0) = true ∧
    post (runWord (presenting ([0xA, 0x5].map quadLevels) start) 0x1180000000000000) (fun t =>
      t.result == 0x00A5) = true := by decide

/-- V-LT15 from a state with RESULT 0x000F; V-LT11. -/
theorem test_readbytes :
    post (runWord (presenting ([0, 0, 0, 0, 0, 1, 1, 1].map oneLevels) { start with result := 0x000F })
      0x1200000100000000) (fun t => t.buf.read 0 == some 0x07 && t.count == 1 && t.result == 0x000F) = true ∧
    post (runWord { start with count := 7 } 0x1200000000000000) (fun t =>
      t.count == 0 && newEvents start t == [] && t.buf == []) = true := by decide

/-- V-LT18: C = 1. -/
theorem test_readdualbytes :
    post (runWord (presenting ([2, 2, 2, 2].map quadLevels) (startCap 1)) 0x1240000200000000) (fun t =>
      t.count == 1 && t.buf == [(0, 0xAA)]) = true := by decide

/-- P5, step 1: C = 4. -/
theorem test_readquadbytes :
    post (runWord (presenting ([1, 2, 3, 4, 5, 6, 7, 8].map quadLevels) (startCap 4)) 0x1280000600000000) (fun t =>
      t.count == 4 && t.buf == [(0, 0x12), (1, 0x34), (2, 0x56), (3, 0x78)] && (newEvents start t).length == 48) = true := by
  decide

/-- V-NP1, S4, S5. -/
theorem test_identify :
    post (runWord (presenting ([0, 0, 1, 0, 1, 1, 0, 0, 0, 0, 0, 1, 0, 0, 0, 1].map oneLevels) start)
      0x2000000000000000) (fun t => t.result == 0x2C11 && (newEvents start t).length == 183 &&
        assertions start.lines (newEvents start t) == 1 && deassertions start.lines (newEvents start t) == 1 &&
        t.lines == { clk := ⟨.out, false⟩, cs := ⟨.out, true⟩, io0 := ⟨.inPu, true⟩, io1 := ⟨.inp, true⟩,
                     io2 := ⟨.inPu, true⟩, io3 := ⟨.inPu, true⟩ }) = true := by decide

/-- V-NP3: after SETCS 1 the frame has no assertion edge. -/
theorem test_identify_after_setcs :
    let s := afterWord start 0x0100000000000001
    post (runWord s 0x2000000000000000) (fun t =>
      assertions s.lines (newEvents s t) == 0 && deassertions s.lines (newEvents s t) == 1) = true := by decide

/-- V-NP4, and V-NP5's last line. -/
theorem test_loadpage :
    post (runWord start 0x2100000000FFFFFF) (fun t => (newEvents start t).length == 199 &&
      (newEvents start t).getLast? == some (.wait start.cfg.tLoad) && t.lines.io0 == ⟨.out, true⟩ &&
      latchAtRises .io0 start.lines (newEvents start t) ==
        [false, false, false, true, false, false, true, true] ++ List.replicate 24 true) = true ∧
    post (runWord start 0x2100000000000000) (fun t => t.lines.io0 == ⟨.out, false⟩) = true := by decide

/-- V-NP8. -/
theorem test_qread :
    post (runWord (presenting ([0xA, 0x5, 0x3, 0xC].map quadLevels) start) 0x2200000200000000) (fun t =>
      t.buf == [(0, 0xA5), (1, 0x3C)] && t.count == 2 && t.lines.io3.mode == .inp) = true := by decide

/-- V-NP7: no byte. -/
theorem test_qread_none :
    post (runWord start 0x2200000000000000) (fun t => t.count == 0 && t.buf == [] && t.lines.io0.mode == .inPu &&
      (newEvents start t).length == 183) = true := by decide

/-- V-IL1, V-IL3, V-IL4. -/
theorem test_illegal :
    post (runWord start 0x0000000000000000) (fun t => t.status == 0x03 && t.badcmd == 0) = true ∧
    post (runWord (afterWord start 0x03C0000000000001) 0x0100000000000000) (fun t =>
      t.status == 0x05 && t.badcmd == 0x03C0000000000001) = true := by decide

/-- V-IL5 then V-IL6. -/
theorem test_reset :
    let s := afterWord (afterWord start 0x03C0000000000001) 0x0100000000000002
    (s.status = 0x07 ∧ s.badcmd = 0x0100000000000002) ∧
    post (step { s with inbox := [.reset] }) (fun t =>
      t.status == 0x00 && t.badcmd == 0 && t.lines == start.lines && t.trace == [.rst, .rst]) = true := by decide

/-- A reset 50 actions into a SENDCMD of 48 events and 3 into it (70_reset_and_hazards.md R801). -/
theorem test_reset_within :
    post (step { start with inbox := [.commandThenReset 0x100000000000009F 50] }) (fun t =>
      t.trace.length == 50 && t.lines == resetLines) = true ∧
    post (step { start with inbox := [.commandThenReset 0x100000000000009F 3] }) (fun t =>
      t.trace == [.rst, .dir [.io0] .out, .drv [(.io0, true)], .drv [(.clk, true)], .rst] &&
      t.replies == []) = true := by decide

/-- R801: of a QREAD of two bytes, cut one action before and right after the first byte's write, and an illegal word cut by
a reset. The buffer keeps what was written before the cut. -/
theorem test_reset_within_bulk :
    let s := presenting ([0xA, 0x5, 0x3, 0xC].map quadLevels) { start with buf := [(0, 0x11), (1, 0x22)] }
    post (step { s with inbox := [.commandThenReset 0x2200000200000000 192] }) (fun t =>
      t.buf == [(0, 0x11), (1, 0x22)] && t.count == 0) = true ∧
    post (step { s with inbox := [.commandThenReset 0x2200000200000000 193] }) (fun t =>
      t.buf == [(0, 0xA5), (1, 0x22)] && t.count == 0) = true ∧
    post (step { s with inbox := [.commandThenReset 0x0600000000000000 1] }) (fun t =>
      t.status == 0x00 && t.badcmd == 0 && t.trace == [.rst, .rst] && t.replies == []) = true := by decide

/-- P6, step 1, and step 2's edges: CLK is an input, so no clock reaches the device. -/
theorem test_environment :
    let sh : PerLine Bool := { clk := true, cs := false, io0 := true, io1 := false, io2 := false, io3 := false }
    let s := { start with cfg := { Config.scenario with shared := sh } }
    let set : PerLine (Option LineState) :=
      { clk := some ⟨.inp, false⟩, cs := some ⟨.inp, false⟩, io0 := some ⟨.out, false⟩, io1 := none, io2 := none, io3 := none }
    post (step { s with inbox := [.env set] }) (fun t =>
      t.lines.clk == ⟨.inp, false⟩ && t.lines.io0 == ⟨.out, false⟩ && t.lines.cs == ⟨.out, true⟩ &&
      t.trace == [.rst, .env [.clk, .io0]] &&
      post (runWord t 0x0200000000000001) (fun u =>
        u.lines.io0 == ⟨.out, true⟩ && countEdges .clk true t.lines (newEvents t u) == 0)) = true := by decide

/-- 60_exceptions.md R740: `ENV` names the lines changed: not IO0, set to the mode and latch it had, and no line at all
where nothing changes. -/
theorem test_environment_changed :
    let sh : PerLine Bool := { clk := true, cs := false, io0 := true, io1 := false, io2 := false, io3 := false }
    let s := { start with cfg := { Config.scenario with shared := sh } }
    let set : PerLine (Option LineState) :=
      { clk := some ⟨.inp, true⟩, cs := none, io0 := some ⟨.inPu, true⟩, io1 := none, io2 := none, io3 := none }
    post (step { s with inbox := [.env set] }) (fun t => t.trace == [.rst, .env [.clk]]) = true ∧
    post (step { s with inbox := [.env { set with clk := none }] }) (fun t =>
      t.trace == [.rst, .env []] && t.lines == s.lines) = true := by decide

/-! ### Host programs and the assembler -/

/-- S6: 8 quad reads at columns 0 to 1792. -/
theorem test_chunks_scenario : chunks 2048 256 =
    [(0, 256), (256, 256), (512, 256), (768, 256), (1024, 256), (1280, 256), (1536, 256), (1792, 256)] := by decide

/-- V-NP12, V-NP13, V-NP14. -/
theorem test_chunks : (chunks 2048 300 =
      [(0, 300), (300, 300), (600, 300), (900, 300), (1200, 300), (1500, 300), (1800, 248)]) ∧
    chunks 100 256 = [(0, 100)] ∧ chunks 65536 65535 = [(0, 65535), (65535, 1)] := by decide

/-- 30_encoding.md R331: SENDADDR24 is three SENDCMDs. -/
theorem test_sendaddr : sendAddr24 0x123456 = [.sendcmd 0x12, .sendcmd 0x34, .sendcmd 0x56] ∧
    sendAddr16 0x0700 = [.sendcmd 0x07, .sendcmd 0x00] := by decide

/-- A source text: hex, decimal, widths, a comment, a blank line. -/
theorem test_assemble_text :
    assembleText Config.scenario "SETCS 1 ; assert\n\nPULSEW x4, 0xA\nQREAD 1792, 256\nRAWIDENTIFY" =
      some [.command 0x0100000000000001, .command 0x028000000000000A, .command 0x2200010000000700,
        .command 0x0100000000000001, .command 0x100000000000009F, .command 0x0500000800000000,
        .command 0x1100000000000000, .command 0x1100000000000000, .command 0x0100000000000000] := by decide

/-- An operand that does not fit its field, an unknown width, a missing operand. -/
theorem test_assemble_refuses : assembleText Config.scenario "SENDCMD 256" = none ∧
    assembleText Config.scenario "PULSER x3" = none ∧ assembleText Config.scenario "QREAD 1" = none := by decide

/-! ### Witnesses: a state and operands that meet each statement's hypotheses -/

/-- For every statement whose one premise on the state is `s.resetAfter = none`, and for those that also ask for an idle
clock: SetcsDrivesClockLowAndChipSelect, SetcsTwiceIsIdempotentOnLines, PulsewWritesOnePulse, PulserSamplesThenClocks,
PulsefdDrivesReleasesThenSamples, DummyReleasesThenClocks, SendcmdWritesEightPulses,
SendcmdReproducesTheByteMsbFirst, ReadbyteReceivesEightBitsMsbFirst, ReaddualbyteReceivesFourPairsMsbFirst,
ReadquadbyteReceivesHighNibbleFirst, ReadbytesFillsTheBufferFromZero, ReaddualbytesFillsTheBufferFromZero,
ReadquadbytesFillsTheBufferFromZero, IdentifyReturnsSixteenBitsMsbFirst, LoadpageSendsTheRowThenWaits,
QreadFillsTheBufferFromZero, FramesSendOpcodeAndAddressMsbFirst, RawIdentifyHasTheTraceOfIdentify,
SendaddrSendsTheAddressMsbFirst, EveryCommandHasItsPulseCount, EveryCommandHoldsTwoWaitsAPulse,
AnswersDoNotSteerTheCore. The tests above run each command from this state. -/
theorem witness_idle_state : start.resetAfter = none ∧ start.lines.clk = ⟨.out, false⟩ := by decide

/-- The levels a receiving statement speaks of: those that wait in the state are presented. -/
theorem witness_mayPresent : mayPresent (presenting ([0xA, 0x5].map quadLevels) start) 2 ([0xA, 0x5].map quadLevels) := by
  refine ⟨rfl, ?_⟩
  exact List.prefix_refl _

theorem witness_EncodeOfDecodeIsTheWord : decode 0x2200FFFF0000FFFF = .ok (.qread 0xFFFF 0xFFFF) := by decide

/-- Rows 18 and 20 at their boundary words, and a word no row matches. -/
theorem witness_AtMostOneRowMatchesAWord :
    (∃ r, opcodeTable[18]? = some r ∧ r ∈ opcodeTable ∧ 0x2000000000000000#64 &&& r.mask = r.fixed) ∧
    (∃ r, opcodeTable[20]? = some r ∧ r ∈ opcodeTable ∧ 0x2200FFFF0000FFFF#64 &&& r.mask = r.fixed) ∧
    ∀ r ∈ opcodeTable, 0x2000000000000001#64 &&& r.mask ≠ r.fixed := by
  refine ⟨⟨_, rfl, by simp [opcodeTable, rowsOfPulses, rowsOfTransfers, rowsOfFrames], by decide⟩,
    ⟨_, rfl, by simp [opcodeTable, rowsOfPulses, rowsOfTransfers, rowsOfFrames], by decide⟩, by decide⟩

/-- One word for each cause. -/
theorem witness_IllegalWordHasTheFirstCauseThatHolds :
    (∀ r ∈ opcodeTable, 0x0600000000000000#64 &&& r.mask ≠ r.fixed) ∧
    (∀ r ∈ opcodeTable, 0x03C0000000000001#64 &&& r.mask ≠ r.fixed) ∧
    (∀ r ∈ opcodeTable, 0x0101000000000000#64 &&& r.mask ≠ r.fixed) ∧
    ∃ s : State, s.inbox = [.command 0x0600000000000000] ∧ s.resetAfter = none :=
  ⟨by decide, by decide, by decide, { start with inbox := [.command 0x0600000000000000] }, rfl, rfl⟩

theorem witness_StepRunsTheDecodedCommand :
    (∃ s : State, s.inbox = [.command 0x0100000000000001] ∧ decode 0x0100000000000001 = .ok (.setcs true)) ∧
    (0x2200FFFF0000FFFF < 2 ^ 64 ∧ decodeTableWord 64 0x2200FFFF0000FFFF = some (.qread 0xFFFF 0xFFFF)) :=
  ⟨⟨{ start with inbox := [.command 0x0100000000000001] }, rfl, by decide⟩, by decide, by decide⟩

theorem witness_IllegalWordSetsStatusAndBadcmdOnly :
    ∃ s : State, s.inbox = [.command 0x02C0000000000000] ∧ s.resetAfter = none ∧
      decode 0x02C0000000000000 = .error .reservedLaneWidth :=
  ⟨{ start with inbox := [.command 0x02C0000000000000] }, rfl, rfl, by decide⟩

theorem witness_IdleCoreHoldsItsState : start.inbox = [] := rfl

/-- A state whose step goes and one whose step stops: both sides of the statement occur. -/
theorem witness_StepGoesExactlyWhenReadsAreOfWrittenBytes :
    step { start with inbox := [.readBuf 0], buf := [(0, 0x5A)] } =
      .next { start with inbox := [], buf := [(0, 0x5A)], replies := [.byte 0 0x5A] } ∧
    step { start with inbox := [.readBuf 255] } = .fault .bufferByteHoldsNoValue := by
  constructor <;> rfl

/-- TraceIsAppendOnly and ConfigurationNeverChanges: a step that runs a command. -/
theorem witness_step_answers : ∃ t, step (start.withFetchWord 64 0x0100000000000001) = .next t := ⟨_, rfl⟩

/-- EveryStepKeepsTheInvariant: a state with the invariant, with bytes in the buffer and a bad command behind it, and a
step from it. -/
theorem witness_EveryStepKeepsTheInvariant :
    let s := { start with buf := [(0, 0xA5), (255, 0x01)], count := 2, status := 0x03, inbox := [.writeBuf 7 0xFF] }
    s.Inv ∧ ∃ t, step s = .next t := by
  refine ⟨⟨by decide, by decide, by decide, by decide, .inr ⟨.unknownOp, by decide, by decide⟩, fun _ => rfl, fun _ => rfl,
    rfl, rfl⟩, _, rfl⟩

theorem witness_ResetSetsLinesAndRegisters : ∃ s : State, s.inbox = [.reset] := ⟨{ start with inbox := [.reset] }, rfl⟩

/-- A QREAD of two bytes cut right after its first byte's last event (3 + 3 * 48 + 33 + 12 = 192 actions) and right after
that byte's write; a command that writes no byte; an illegal word. -/
theorem witness_ResetCutsACommandAfterAPrefix :
    (∀ k ∈ [192, 193], ∃ s : State, s.inbox = [.commandThenReset 0x2200000200000000 k] ∧
      decode 0x2200000200000000 = .ok (.qread 0 2) ∧ bulkRead s.cfg.bufCap (.qread 0 2) = some (.x4, 2)) ∧
    (∃ s : State, s.inbox = [.commandThenReset 0x2000000000000000 0] ∧
      decode 0x2000000000000000 = .ok .identify ∧ bulkRead s.cfg.bufCap .identify = none) ∧
    ∃ s : State, s.inbox = [.commandThenReset 0x0600000000000000 1] ∧
      decode 0x0600000000000000 = .error .unknownOp :=
  ⟨fun k _ => ⟨{ start with inbox := [.commandThenReset 0x2200000200000000 k] }, rfl, by decide, rfl⟩,
    ⟨{ start with inbox := [.commandThenReset 0x2000000000000000 0] }, rfl, by decide, by decide⟩,
    { start with inbox := [.commandThenReset 0x0600000000000000 1] }, rfl, by decide⟩

/-- At both ends of the range of `j`: the empty prefix and all three events. -/
theorem witness_ResetMayCutAfterAnyPrefix :
    decode 0x0100000000000001 = .ok (.setcs true) ∧
    ∃ t, exec (.setcs true) { start with inbox := [], resetAfter := none } = .next t ∧
      0 ≤ (newEvents start t).length ∧ 3 ≤ (newEvents start t).length :=
  ⟨by decide, _, rfl, by decide, by decide⟩

theorem witness_HostReadsARegister : ∃ s : State, s.inbox = [.readReg .status] :=
  ⟨{ start with inbox := [.readReg .status] }, rfl⟩

/-- The last index of the buffer with a value and without one, and the first index outside it. -/
theorem witness_HostReadsABufferByte :
    (∃ s : State, s.inbox = [.readBuf 255] ∧ 255 < s.cfg.bufCap ∧ s.buf.read 255 = some 0x5A) ∧
    (∃ s : State, s.inbox = [.readBuf 255] ∧ 255 < s.cfg.bufCap ∧ s.buf.read 255 = none) ∧
    ∃ s : State, s.inbox = [.readBuf 256] ∧ s.cfg.bufCap ≤ 256 :=
  ⟨⟨{ start with inbox := [.readBuf 255], buf := [(255, 0x5A)] }, rfl, by decide, by decide⟩,
   ⟨{ start with inbox := [.readBuf 255] }, rfl, by decide, by decide⟩,
   { start with inbox := [.readBuf 256] }, rfl, by decide⟩

theorem witness_HostWritesABufferByte :
    (∃ s : State, s.inbox = [.writeBuf 255 0x5A] ∧ 255 < s.cfg.bufCap) ∧
    ∃ s : State, s.inbox = [.writeBuf 256 0x5A] ∧ s.cfg.bufCap ≤ 256 :=
  ⟨⟨{ start with inbox := [.writeBuf 255 0x5A] }, rfl, by decide⟩,
   { start with inbox := [.writeBuf 256 0x5A] }, rfl, by decide⟩

theorem witness_EnvironmentStepSetsSharedLinesOnly : ∃ s : State, s.cfg.shared.clk = true ∧
    s.inbox = [.env { clk := some ⟨.inp, true⟩, cs := none, io0 := none, io1 := none, io2 := none, io3 := none }] :=
  ⟨{ start with
      cfg := { Config.scenario with shared := { Config.scenario.shared with clk := true } }
      inbox := [.env { clk := some ⟨.inp, true⟩, cs := none, io0 := none, io1 := none, io2 := none, io3 := none }] },
    rfl, rfl⟩

theorem witness_ErrStaysSetUntilReset :
    ({ start with status := 0x03 } : State).status.getLsbD 0 = true ∧
      ∃ t, step { start with status := 0x03, inbox := [.command 0x0100000000000001] } = .next t := ⟨by decide, _, rfl⟩

/-- OnlyWritersChangeResultAndCount, NoCommandReleasesClockOrChipSelect, LinesFollowTheEvents: a command's run, whole and
cut. -/
theorem witness_exec_answers : (∃ t, exec (.dummy 1) { start with result := 5, count := 6 } = .next t) ∧
    ∃ t, exec (.qread 0 1) { start with resetAfter := some 170 } = .next t := ⟨⟨_, rfl⟩, _, rfl⟩

theorem witness_NoCommandWritesPastTheBuffer :
    (∃ t, exec (.readquadbytes 2) (startCap 1) = .next t) ∧ (startCap 1).cfg.bufCap ≤ 1 := ⟨⟨_, rfl⟩, by decide⟩

/-- EachFrameAssertsAndDeassertsOnce, FramesLeaveTheBusIdle: each of the three frames. -/
theorem witness_frames : start.resetAfter = none ∧
    ∀ i ∈ [Instr.identify, .loadpage 0x000040, .qread 0 4],
      i = .identify ∨ (∃ row, i = .loadpage row) ∨ ∃ col l, i = .qread col l := by
  refine ⟨rfl, fun i hi => ?_⟩
  simp only [List.mem_cons, List.not_mem_nil, or_false] at hi
  rcases hi with rfl | rfl | rfl
  · exact .inl rfl
  · exact .inr (.inl ⟨_, rfl⟩)
  · exact .inr (.inr ⟨_, _, rfl⟩)

/-- At the ends of both ranges, and a chunk index in range. -/
theorem witness_PageReadChunksCoverThePage : 1 ≤ 1 ∧ 1 ≤ 65535 ∧ 1 < (65536 + 65535 - 1) / 65535 ∧
    (65535, 1) ∈ chunks 65536 65535 := by decide

theorem witness_EveryCommandHasItsPulseCount : ∃ s : State, s.inbox = [.command 0x0600000000000000] ∧
    decode 0x0600000000000000 = .error .unknownOp ∧ ∃ t, step s = .next t :=
  ⟨{ start with inbox := [.command 0x0600000000000000] }, rfl, by decide, _, rfl⟩

theorem witness_DataChangesOnlyWhileTheClockIsLow : start.resetAfter = none ∧ start.lines.clk.lat = false ∧
    ∃ t, exec (.pulsewX1 1) start = .next t ∧
      newEvents start t = [.dir [.io0] .out] ++ .drv [(.io0, true)] :: evClock start.cfg.tBit ∧
      drivesData (.drv [(.io0, true)]) = true := ⟨rfl, rfl, _, rfl, rfl, by decide⟩

/-- A read pulse's sample and a full-duplex pulse's. -/
theorem witness_SamplesPrecedeTheRisingEdge : start.resetAfter = none ∧
    (∃ t v, exec .pulserX1 start = .next t ∧
      newEvents start t = [.dir [.io1] .inp] ++ .smp v :: evClock start.cfg.tBit) ∧
    ∃ t v, exec (.pulsefdX1 1) start = .next t ∧
      newEvents start t = [.dir [.io0] .out, .drv [(.io0, true)], .drv [(.clk, true)], .wait start.cfg.tBit,
        .dir [.io0, .io1] .inp, .drv [(.clk, false)]] ++ .smp v :: [.wait start.cfg.tBit] :=
  ⟨rfl, ⟨_, _, rfl, rfl⟩, _, _, rfl, rfl⟩

theorem witness_RawPulsesOnAReleasedClockGiveNoEdge :
    ∃ s : State, s.resetAfter = none ∧ s.lines.clk.mode ≠ .out ∧ s.lines.clk.lat = true :=
  ⟨{ start with lines := { start.lines with clk := ⟨.inp, true⟩ } }, rfl, by decide, rfl⟩

end Sys2Proof.Tests
end

section
/-! PROOFS. The scope: what the primitives do to the lines is what their events say (00_scope.md R19). -/

namespace Sys2Proof.Machine

open Sys2Proof

/-- The events between the two states of a move are the events it appended, so they carry its lines. -/
theorem Moves.lines_eq_replay {s t : State} (h : Moves s t) : t.lines = replay s.lines (newEvents s t) := by
  obtain ⟨es, htrace, hlines, -⟩ := h.events
  rw [newEvents_eq htrace, hlines]

/-- Settles O57: every command is a move, whole or cut, followed by writes of RESULT and COUNT, which touch neither
the lines nor the trace. -/
theorem linesFollowTheEvents : Obligations.LinesFollowTheEvents := by
  intro i s t h
  obtain ⟨u, r, c, hmoves, rfl, -⟩ := exec_next_moves h
  exact hmoves.lines_eq_replay

end Sys2Proof.Machine
end

section
/-! PROOFS. 10_state.md: the trace grows and the configuration stays (R120, R132); the clock and the chip-select stay
driven (R103); STATUS and BADCMD do not steer a command (R113, R114); the writers of RESULT and COUNT (R111, R112); and
the invariant of the core. -/

namespace Sys2Proof.Machine

open Sys2Proof

/-! ### What every step leaves: the configuration and the trace so far -/

/-- From `s` to `t` the configuration has stayed and the trace has only grown. -/
def Extends (s t : State) : Prop := t.cfg = s.cfg ∧ s.trace <+: t.trace

theorem Extends.refl (s : State) : Extends s s := ⟨rfl, List.prefix_rfl⟩

theorem Extends.trans {s t u : State} (h : Extends s t) (k : Extends t u) : Extends s u :=
  ⟨k.1.trans h.1, h.2.trans k.2⟩

theorem environmentStep_extends (set : PerLine (Option LineState)) (s : State) : Extends s (environmentStep set s) :=
  ⟨rfl, List.prefix_append _ _⟩

theorem applyReset_extends (s : State) : Extends s (applyReset s) := ⟨rfl, List.prefix_append _ _⟩

theorem exec_extends {i : Instr} {s t : State} (h : exec i s = .next t) : Extends s t := by
  obtain ⟨u, r, c, hmoves, rfl, -⟩ := exec_next_moves h
  obtain ⟨es, htrace, -⟩ := hmoves.events
  exact ⟨hmoves.cfg, es, htrace.symm⟩

/-- `Extends` reads the configuration and the trace only, so a step that takes a request, replies or writes a register or
a buffer byte is no move at all for it: what remains is a command, a reset and an environment step. -/
theorem step_extends {s t : State} (h : step s = .next t) : Extends s t := by
  rcases step_cases h with ⟨-, rfl⟩ | ⟨rest, -, hserve⟩
  · exact Extends.refl _
  · rcases hserve with ⟨w, i, u, -, -, hexec, rfl⟩ | ⟨w, c, -, -, rfl⟩ | ⟨w, k, i, u, -, -, hexec, rfl⟩ |
      ⟨w, k, c, -, -, rfl⟩ | ⟨r, rfl⟩ | ⟨i, v, -, rfl⟩ | rfl | rfl | ⟨set, rfl⟩
    · exact (exec_extends hexec :)
    · exact Extends.refl s
    · exact ((exec_extends hexec).trans (applyReset_extends u) :)
    · exact (applyReset_extends (raiseIllegal c w { s with inbox := rest, resetAfter := some k }) :)
    · exact Extends.refl s
    · exact Extends.refl s
    · exact Extends.refl s
    · exact (applyReset_extends { s with inbox := rest } :)
    · exact (environmentStep_extends set { s with inbox := rest } :)

/-- Settles O12: every step extends the state. -/
theorem traceIsAppendOnly : Obligations.TraceIsAppendOnly :=
  fun _ _ h => (step_extends h).2

/-- Settles O13: every step extends the state. -/
theorem configurationNeverChanges : Obligations.ConfigurationNeverChanges :=
  fun _ _ h => (step_extends h).1

/-! ### The modes of CLK and CS (10_state.md R103) -/

theorem setModes_get (S : List Line) (m : Mode) (ls : Lines) (l : Line) :
    (ls.setModes S m).get l = if l ∈ S then { ls.get l with mode := m } else ls.get l := by
  cases l <;> rfl

theorem setLats_get (v : LineBits) (ls : Lines) (l : Line) :
    (ls.setLats v).get l = { ls.get l with lat := (bitOf v l).getD (ls.get l).lat } := by
  cases l <;> simp only [PerLine.setLats, PerLine.mapWith, PerLine.get] <;> split <;> simp [*]

/-- An event of a command leaves the mode of CLK or of CS, or makes it OUT. -/
theorem eventLines_mode {e : Event} (he : coreEvent e) {l : Line} (hl : l = .clk ∨ l = .cs) (ls : Lines) :
    ((eventLines ls e).get l).mode = (ls.get l).mode ∨ ((eventLines ls e).get l).mode = .out := by
  cases e with
  | dir S m =>
    rw [eventLines_dir, setModes_get]
    split
    · next hmem => exact .inr (he (by rcases hl with rfl | rfl <;> simp [hmem]))
    · exact .inl rfl
  | drv v => rw [eventLines_drv, setLats_get]; exact .inl rfl
  | smp _ => exact .inl rfl
  | wait _ => exact .inl rfl
  | rst => exact he.elim
  | env _ => exact he.elim

theorem replay_mode {es : List Event} (hes : ∀ e ∈ es, coreEvent e) {l : Line} (hl : l = .clk ∨ l = .cs) (ls : Lines) :
    ((replay ls es).get l).mode = (ls.get l).mode ∨ ((replay ls es).get l).mode = .out := by
  induction es generalizing ls with
  | nil => exact .inl rfl
  | cons e es ih =>
    rw [List.forall_mem_cons] at hes
    rw [replay_cons]
    rcases ih hes.2 (eventLines ls e) with hkept | hout
    · rw [hkept]; exact eventLines_mode hes.1 hl ls
    · exact .inr hout

/-- A part of a command leaves the mode of CLK and of CS, or makes it OUT, whether or not a reset cuts it. -/
theorem Moves.mode {s t : State} (h : Moves s t) {l : Line} (hl : l = .clk ∨ l = .cs) :
    (t.lines.get l).mode = (s.lines.get l).mode ∨ (t.lines.get l).mode = .out := by
  obtain ⟨es, -, hlines, hes⟩ := h.events
  rw [hlines]
  exact replay_mode hes hl s.lines

theorem Moves.coreEvent_of_mem {s t : State} (h : Moves s t) {e : Event} (he : e ∈ newEvents s t) : coreEvent e := by
  obtain ⟨es, htrace, -, hes⟩ := h.events
  rw [newEvents_eq htrace] at he
  exact hes e he

/-- Settles O55: a command is a move, and every event of a move is a core event. -/
theorem noCommandReleasesClockOrChipSelect : Obligations.NoCommandReleasesClockOrChipSelect := by
  intro i s t h
  obtain ⟨u, r, c, hmoves, rfl, -⟩ := exec_next_moves h
  exact ⟨fun S m he => hmoves.coreEvent_of_mem he, hmoves.mode (.inl rfl), hmoves.mode (.inr rfl)⟩

/-! ### The writers of RESULT and COUNT (10_state.md R111, R112) -/

/-- Settles O26: `exec_moves` says which register a command may write. -/
theorem onlyWritersChangeResultAndCount : Obligations.OnlyWritersChangeResultAndCount := by
  intro i s t h
  obtain ⟨u, r, c, -, hexec, hresult, hcount, -⟩ := exec_moves i s
  rw [hexec] at h
  cases h
  constructor
  · cases i with
    | pulserX1 | pulserX2 | pulserX4 | pulsefdX1 | pulsefdX2 | pulsefdX4 | readbyte | readdualbyte | readquadbyte
    | identify => trivial
    | _ => exact hresult rfl
  · cases i with
    | readbytes | readdualbytes | readquadbytes | qread => trivial
    | _ => exact hcount rfl

/-! ### Commands do not read STATUS and BADCMD (10_state.md R113, R114) -/

/-- `s` with other values of STATUS and BADCMD. -/
def State.withStatus (s : State) (st : BitVec 8) (bad : CmdWord) : State := { s with status := st, badcmd := bad }

section Blind

variable (s : State) (st : BitVec 8) (bad : CmdWord)

@[simp] theorem withStatus_cfg : (s.withStatus st bad).cfg = s.cfg := rfl
@[simp] theorem withStatus_resetAfter : (s.withStatus st bad).resetAfter = s.resetAfter := rfl
@[simp] theorem presented_withStatus (S : List Line) : presented S (s.withStatus st bad) = presented S s := rfl

variable {st bad} in
theorem act_withStatus {f : State → State} (hf : ∀ s, f (s.withStatus st bad) = (f s).withStatus st bad) :
    act f (s.withStatus st bad) = (act f s).withStatus st bad := by
  unfold act
  rw [withStatus_resetAfter]
  split
  · exact hf s
  · rfl
  · exact hf { s with resetAfter := _ }

@[simp] theorem setDir_withStatus (S : List Line) (m : Mode) :
    setDir S m (s.withStatus st bad) = (setDir S m s).withStatus st bad := act_withStatus s fun _ => rfl

@[simp] theorem drive_withStatus (v : LineBits) : drive v (s.withStatus st bad) = (drive v s).withStatus st bad :=
  act_withStatus s fun _ => rfl

@[simp] theorem delay_withStatus (t : Nat) : delay t (s.withStatus st bad) = (delay t s).withStatus st bad :=
  act_withStatus s fun _ => rfl

@[simp] theorem sampleAction_withStatus (S : List Line) :
    sampleAction S (s.withStatus st bad) = (sampleAction S s).withStatus st bad := act_withStatus s fun _ => rfl

@[simp] theorem memWrite_withStatus (i : Nat) (v : Byte) :
    memWrite i v (s.withStatus st bad) = (memWrite i v s).withStatus st bad := act_withStatus s fun _ => rfl

@[simp] theorem writeResult_withStatus (v : Half) :
    writeResult v (s.withStatus st bad) = (writeResult v s).withStatus st bad := by
  unfold writeResult
  rw [withStatus_resetAfter]
  split <;> rfl

@[simp] theorem writeCount_withStatus (v : Half) :
    writeCount v (s.withStatus st bad) = (writeCount v s).withStatus st bad := by
  unfold writeCount
  rw [withStatus_resetAfter]
  split <;> rfl

@[simp] theorem chipSelect_withStatus (a : Bool) :
    chipSelect a (s.withStatus st bad) = (chipSelect a s).withStatus st bad := by simp [chipSelect]

@[simp] theorem clockPulse_withStatus : clockPulse (s.withStatus st bad) = (clockPulse s).withStatus st bad := by
  simp [clockPulse]

@[simp] theorem pulseWrite_withStatus (w : LaneWidth) (v : BitVec 4) :
    pulseWrite w v (s.withStatus st bad) = (pulseWrite w v s).withStatus st bad := by simp [pulseWrite]

/-- What a receiving sequence answers, with other values of STATUS and BADCMD in its state. -/
def answerWithStatus {α : Type} (r : α × State) : α × State := (r.1, r.2.withStatus st bad)

@[simp] theorem answerWithStatus_fst {α : Type} (r : α × State) : (answerWithStatus st bad r).1 = r.1 := rfl
@[simp] theorem answerWithStatus_snd {α : Type} (r : α × State) :
    (answerWithStatus st bad r).2 = r.2.withStatus st bad := rfl

@[simp] theorem pulseRead_withStatus (w : LaneWidth) :
    pulseRead w (s.withStatus st bad) = answerWithStatus st bad (pulseRead w s) := by
  simp [pulseRead, sample, answerWithStatus]

@[simp] theorem pulseFullDuplex_withStatus (w : LaneWidth) (v : BitVec 4) :
    pulseFullDuplex w v (s.withStatus st bad) = answerWithStatus st bad (pulseFullDuplex w v s) := by
  simp [pulseFullDuplex, sample, answerWithStatus]

@[simp] theorem clockPulses_withStatus (n : Nat) :
    clockPulses n (s.withStatus st bad) = (clockPulses n s).withStatus st bad := by
  induction n generalizing s with
  | zero => rfl
  | succ n ih => simp [clockPulses, ih]

@[simp] theorem dummy_withStatus (n : Nat) : dummy n (s.withStatus st bad) = (dummy n s).withStatus st bad := by
  simp [dummy]

@[simp] theorem sendBits_withStatus (b : Byte) (k : Nat) :
    sendBits b k (s.withStatus st bad) = (sendBits b k s).withStatus st bad := by
  induction k generalizing s with
  | zero => rfl
  | succ k ih => simp [sendBits, ih]

@[simp] theorem sendByte_withStatus (b : Byte) : sendByte b (s.withStatus st bad) = (sendByte b s).withStatus st bad :=
  sendBits_withStatus s st bad b 8

@[simp] theorem rxBits_withStatus (k : Nat) (r : Byte) :
    rxBits k r (s.withStatus st bad) = answerWithStatus st bad (rxBits k r s) := by
  induction k generalizing r s with
  | zero => rfl
  | succ k ih => simp [rxBits, ih]

@[simp] theorem rxPairs_withStatus (k : Nat) (r : Byte) :
    rxPairs k r (s.withStatus st bad) = answerWithStatus st bad (rxPairs k r s) := by
  induction k generalizing r s with
  | zero => rfl
  | succ k ih => simp [rxPairs, ih]

@[simp] theorem rxByte1_withStatus : rxByte1 (s.withStatus st bad) = answerWithStatus st bad (rxByte1 s) :=
  rxBits_withStatus s st bad 8 0

@[simp] theorem rxByte2_withStatus : rxByte2 (s.withStatus st bad) = answerWithStatus st bad (rxByte2 s) :=
  rxPairs_withStatus s st bad 4 0

@[simp] theorem rxByte4_withStatus : rxByte4 (s.withStatus st bad) = answerWithStatus st bad (rxByte4 s) := by
  simp [rxByte4, answerWithStatus]

@[simp] theorem rxByte_withStatus (w : LaneWidth) :
    rxByte w (s.withStatus st bad) = answerWithStatus st bad (rxByte w s) := by
  cases w
  · exact rxByte1_withStatus s st bad
  · exact rxByte2_withStatus s st bad
  · exact rxByte4_withStatus s st bad

@[simp] theorem rxInto_withStatus (w : LaneWidth) (n i : Nat) :
    rxInto w n i (s.withStatus st bad) = (rxInto w n i s).withStatus st bad := by
  induction n generalizing i s with
  | zero => rfl
  | succ n ih => simp [rxInto, ih]

@[simp] theorem rxBulk_withStatus (w : LaneWidth) (l : BitVec 16) :
    rxBulk w l (s.withStatus st bad) = answerWithStatus st bad (rxBulk w l s) := by
  simp [rxBulk, answerWithStatus]

@[simp] theorem identifyFrame_withStatus :
    identifyFrame (s.withStatus st bad) = answerWithStatus st bad (identifyFrame s) := by
  simp [identifyFrame, answerWithStatus]

@[simp] theorem loadFrame_withStatus (row : BitVec 24) :
    loadFrame row (s.withStatus st bad) = (loadFrame row s).withStatus st bad := by simp [loadFrame]

@[simp] theorem quadReadFrame_withStatus (col l : BitVec 16) :
    quadReadFrame col l (s.withStatus st bad) = answerWithStatus st bad (quadReadFrame col l s) := by
  simp [quadReadFrame, answerWithStatus]

/-- A command runs the same whatever STATUS and BADCMD hold, whether or not a reset cuts it. -/
theorem exec_withStatus (i : Instr) :
    exec i (s.withStatus st bad) = andThen (exec i s) fun t => t.withStatus st bad := by
  cases i with
  | setcs | pulsewX1 | pulsewX2 | pulsewX4 | dummy | sendcmd | loadpage =>
    simp [exec, execSetcs, execPulsewX1, execPulsewX2, execPulsewX4, execDummy, execSendcmd, execLoadpage, andThen]
  | pulserX1 | pulserX2 | pulserX4 =>
    simp [exec, execPulserX1, execPulserX2, execPulserX4, pulseResult, andThen]
  | pulsefdX1 | pulsefdX2 | pulsefdX4 =>
    simp [exec, execPulsefdX1, execPulsefdX2, execPulsefdX4, pulseResult, andThen]
  | readbyte | readdualbyte | readquadbyte =>
    simp [exec, execReadbyte, execReaddualbyte, execReadquadbyte, byteResult, andThen]
  | readbytes | readdualbytes | readquadbytes =>
    simp [exec, execReadbytes, execReaddualbytes, execReadquadbytes, bulkCount, andThen]
  | identify => simp [exec, execIdentify, identifyResult, andThen]
  | qread => simp [exec, execQread, bulkCount, andThen]

end Blind

/-- Settles O24: a command is a move, which keeps the two registers, and it commutes with setting them. -/
theorem legalCommandsIgnoreAndKeepStatus : Obligations.LegalCommandsIgnoreAndKeepStatus := by
  intro i s st bad
  obtain ⟨u, r, c, hmoves, hexec, -⟩ := exec_moves i s
  refine ⟨_, hexec, hmoves.status, hmoves.badcmd, ?_⟩
  have hblind := exec_withStatus s st bad i
  rw [hexec] at hblind
  exact hblind

/-! ### The invariant: what outlives a reset -/

/-- The clauses of the invariant that a reset does not itself establish. -/
structure Durable (cfg : Config) (buf : Memory) (trace : List Event) : Prop where
  cfgLegal : cfg.legal = true
  bufCanonical : buf.wf = true
  bufWithin : buf.within cfg.bufCap = true
  traceBegins : trace.head? = some .rst

/-- Every clause but those on the lines, the registers and the pending reset. -/
theorem State.Inv.durable {s : State} (h : s.Inv) : Durable s.cfg s.buf s.trace :=
  ⟨h.cfgLegal, h.bufCanonical, h.bufWithin, h.traceBegins⟩

/-- A part of a command keeps these clauses, whether or not a reset cuts it. -/
theorem Moves.durable {s t : State} (hmoves : Moves s t) (h : Durable s.cfg s.buf s.trace) :
    Durable t.cfg t.buf t.trace where
  cfgLegal := hmoves.cfg ▸ h.cfgLegal
  bufCanonical := hmoves.bufWf h.bufCanonical
  bufWithin := hmoves.cfg ▸ hmoves.bufWithin h.bufWithin
  traceBegins := by
    obtain ⟨es, htrace, -⟩ := hmoves.events
    simp [htrace, h.traceBegins]

theorem exec_durable {i : Instr} {s t : State} (hexec : exec i s = .next t) (h : Durable s.cfg s.buf s.trace) :
    Durable t.cfg t.buf t.trace := by
  obtain ⟨u, r, c, hmoves, rfl, -⟩ := exec_next_moves hexec
  exact (hmoves.durable h :)

/-- A reset sets the lines, the registers and the pending reset as the invariant asks (70_reset_and_hazards.md R800). -/
theorem applyReset_inv {s : State} (h : Durable s.cfg s.buf s.trace) : (applyReset s).Inv where
  cfgLegal := h.cfgLegal
  bufCanonical := h.bufCanonical
  bufWithin := h.bufWithin
  countWithin := Nat.zero_le _
  statusLegal := .inl ⟨rfl, rfl⟩
  clockIdle _ := rfl
  csOutput _ := rfl
  traceBegins := by simp [h.traceBegins]
  idle := rfl

theorem board_legal : Config.board.legal = true := by
  unfold Config.board
  split
  · assumption
  · decide

/-- Settles O15: the configuration is legal, and every other clause reads off the reset values. -/
theorem invariantHoldsAtReset : Obligations.InvariantHoldsAtReset where
  cfgLegal := board_legal
  bufCanonical := rfl
  bufWithin := rfl
  countWithin := Nat.zero_le _
  statusLegal := .inl ⟨rfl, rfl⟩
  clockIdle _ := rfl
  csOutput _ := rfl
  traceBegins := rfl
  idle := rfl

/-! ### The invariant: each kind of step -/

/-- Taking a request from the queue. -/
theorem takeRequest_inv {s : State} (h : s.Inv) (rest : List Request) : State.Inv { s with inbox := rest } :=
  { h with }

theorem reply_inv {s : State} (h : s.Inv) (r : Reply) : (reply r s).Inv :=
  { h with }

/-- The exception of an illegal word leaves STATUS describing that word (60_exceptions.md R710). -/
theorem raiseIllegal_inv {s : State} (h : s.Inv) {c : Cause} {w : CmdWord} (hw : decode w = .error c) :
    (raiseIllegal c w s).Inv :=
  { h with statusLegal := .inr ⟨c, hw, rfl⟩ }

/-- A host write inside the buffer. -/
theorem bufWrite_inv {s : State} (h : s.Inv) {i : Nat} (hi : i < s.cfg.bufCap) (v : Byte) :
    State.Inv { s with buf := s.buf.write i v } :=
  { h with
    bufCanonical := Memory.write_wf h.bufCanonical i v
    bufWithin := Memory.write_within h.bufWithin hi v }

theorem envLines_unshared (set : PerLine (Option LineState)) (s : State) {l : Line} (hl : s.cfg.shared.get l = false) :
    (envLines set s).get l = s.lines.get l := by
  simp [envLines_get, hl]

/-- The environment step leaves every unshared line (60_exceptions.md R740). -/
theorem environmentStep_inv {s : State} (h : s.Inv) (set : PerLine (Option LineState)) :
    (environmentStep set s).Inv :=
  { h with
    clockIdle := fun hl => (envLines_unshared set s (l := .clk) hl).trans (h.clockIdle hl)
    csOutput := fun hl => (congrArg LineState.mode (envLines_unshared set s (l := .cs) hl)).trans (h.csOutput hl)
    traceBegins := by simp [h.traceBegins] }

/-- A command that no reset cuts leaves an idle clock idle. -/
theorem exec_clockIdle {i : Instr} {s t : State} (hs : s.resetAfter = none) (hclk : ClockIdle s.lines)
    (h : exec i s = .next t) : ClockIdle t.lines := by
  obtain ⟨lvs, m, r, c, -, hexec, -⟩ := exec_idle i hs
  rw [hexec] at h
  cases h
  exact clockIdle_commandEvents hclk s.cfg i lvs

/-- A whole command: a move that ends with the clock idle, and a COUNT within the buffer. -/
theorem exec_inv {i : Instr} {s t : State} (h : s.Inv) (hexec : exec i s = .next t) : t.Inv := by
  have hclk : ClockIdle s.lines → ClockIdle t.lines := fun hs => exec_clockIdle h.idle hs hexec
  obtain ⟨cfgLegal, bufCanonical, bufWithin, traceBegins⟩ := exec_durable hexec h.durable
  obtain ⟨u, r, c, hmoves, rfl, hcount⟩ := exec_next_moves hexec
  have hcfg : u.cfg = s.cfg := hmoves.cfg
  refine ⟨cfgLegal, bufCanonical, bufWithin, ?countWithin, ?statusLegal, ?clockIdle, ?csOutput, traceBegins,
    hmoves.pending.2 h.idle⟩
  case countWithin =>
    show c.toNat ≤ u.cfg.bufCap
    rw [hcfg]
    rcases hcount with hle | rfl
    · exact hle
    · exact h.countWithin
  case statusLegal => simpa [StatusDescribesBadcmd, hmoves.status, hmoves.badcmd] using h.statusLegal
  case clockIdle => exact fun hl => hclk (h.clockIdle (hcfg ▸ hl))
  case csOutput =>
    intro hl
    rcases hmoves.mode (l := .cs) (.inr rfl) with hkept | hout
    · exact hkept.trans (h.csOutput (hcfg ▸ hl))
    · exact hout

/-- The invariant is kept by every step, case by case: a command run to completion keeps it, and a command that a reset
cuts has it again by the reset. -/
theorem step_keeps_inv {s t : State} (h : s.Inv) (hstep : step s = .next t) : t.Inv := by
  rcases step_cases hstep with ⟨-, rfl⟩ | ⟨rest, -, hserve⟩
  · exact h
  · have htaken : State.Inv { s with inbox := rest } := takeRequest_inv h rest
    have hready : State.Inv { s with inbox := rest, resetAfter := none } := by rwa [h.idle] at htaken
    rcases hserve with ⟨w, i, u, -, -, hexec, rfl⟩ | ⟨w, c, -, hw, rfl⟩ | ⟨w, k, i, u, -, -, hexec, rfl⟩ |
      ⟨w, k, c, -, -, rfl⟩ | ⟨r, rfl⟩ | ⟨i, v, hi, rfl⟩ | rfl | rfl | ⟨set, rfl⟩
    · exact reply_inv (exec_inv hready hexec) .completed
    · exact reply_inv (raiseIllegal_inv hready hw) .completed
    · exact applyReset_inv (exec_durable hexec h.durable)
    · exact applyReset_inv (s := raiseIllegal c w { s with inbox := rest, resetAfter := some k }) h.durable
    · exact reply_inv htaken r
    · exact bufWrite_inv htaken hi v
    · exact htaken
    · exact applyReset_inv htaken.durable
    · exact environmentStep_inv htaken set

/-- Settles O14, by cases on what the step serves. -/
theorem everyStepKeepsTheInvariant : Obligations.EveryStepKeepsTheInvariant :=
  fun _ _ h hstep => step_keeps_inv h hstep

end Sys2Proof.Machine
end

section
/-! PROOFS. 20_memory.md: the host's buffer port (R204, R205) and the one stop of a step; no command writes past the
buffer (R206) or reads it (R203); the frames send opcode and address most significant bit first (R220, R221). -/

namespace Sys2Proof.Machine

open Sys2Proof

/-! ### The host's buffer port (20_memory.md R204, R205) -/

theorem step_of_inbox {s : State} {r : Request} {rest : List Request} (h : s.inbox = r :: rest) :
    step s = serve r { s with inbox := rest } := by
  simp only [step, h]

theorem hostReadBuf_value {s : State} {i : Nat} {v : Byte} (hi : i < s.cfg.bufCap) (hv : s.buf.read i = some v) :
    hostReadBuf i s = .next (reply (.byte i v) s) := by
  simp only [hostReadBuf, if_pos hi, hv]

theorem hostReadBuf_noValue {s : State} {i : Nat} (hi : i < s.cfg.bufCap) (hv : s.buf.read i = none) :
    hostReadBuf i s = .fault .bufferByteHoldsNoValue := by
  simp only [hostReadBuf, if_pos hi, hv]

theorem hostReadBuf_outside {s : State} {i : Nat} (hi : s.cfg.bufCap ≤ i) :
    hostReadBuf i s = .next (reply (.byte i (Config.freeByte s.replies.length i)) s) :=
  if_neg (Nat.not_lt.2 hi)

theorem hostWriteBuf_inside {s : State} {i : Nat} (hi : i < s.cfg.bufCap) (v : Byte) :
    hostWriteBuf i v s = { s with buf := s.buf.write i v } :=
  if_pos hi

theorem hostWriteBuf_outside {s : State} {i : Nat} (hi : s.cfg.bufCap ≤ i) (v : Byte) : hostWriteBuf i v s = s :=
  if_neg (Nat.not_lt.2 hi)

/-- Settles O21: the three cases of the host's read, which sees the buffer as it was before the request was taken. -/
theorem hostReadsABufferByte : Obligations.HostReadsABufferByte := by
  intro s i rest hs
  have hstep : step s = hostReadBuf i { s with inbox := rest } := step_of_inbox hs
  rw [hstep]
  exact ⟨fun v hi hv => hostReadBuf_value (s := { s with inbox := rest }) hi hv,
    fun hi hv => hostReadBuf_noValue (s := { s with inbox := rest }) hi hv,
    fun hi => ⟨_, hostReadBuf_outside (s := { s with inbox := rest }) hi⟩⟩

/-- Settles O22: inside the buffer the write is one `Memory.write`, outside it is nothing. -/
theorem hostWritesABufferByte : Obligations.HostWritesABufferByte := by
  intro s i v rest hs
  have hstep : step s = .next (hostWriteBuf i v { s with inbox := rest }) := step_of_inbox hs
  rw [hstep]
  constructor
  · intro hi
    rw [hostWriteBuf_inside (s := { s with inbox := rest }) hi]
    exact ⟨s.buf.write i v, rfl, fun j => Memory.read_write s.buf i j v⟩
  · intro hi
    rw [hostWriteBuf_outside (s := { s with inbox := rest }) hi]

/-! ### The one stop of a step (20_memory.md R204; 60_exceptions.md R701, R721) -/

theorem accept_goes (w : CmdWord) (s : State) : ∃ t, accept w s = .next t := by
  rcases accept_cases w s with ⟨i, -, haccept⟩ | ⟨c, -, haccept⟩
  · obtain ⟨u, r, c, -, hexec, -⟩ := exec_moves i s
    exact ⟨_, haccept.trans hexec⟩
  · exact ⟨_, haccept⟩

/-- Every request but a host read of a buffer byte is served. -/
theorem serve_goes {r : Request} (hr : ∀ i, r ≠ .readBuf i) (s : State) : ∃ t, serve r s = .next t := by
  cases r with
  | command w =>
    obtain ⟨t, ht⟩ := accept_goes w { s with resetAfter := none }
    exact ⟨_, congrArg (andThen · _) ht⟩
  | commandThenReset w k =>
    obtain ⟨t, ht⟩ := accept_goes w { s with resetAfter := some k }
    exact ⟨_, congrArg (andThen · _) ht⟩
  | readBuf i => exact absurd rfl (hr i)
  | readReg | writeBuf | reset | env => exact ⟨_, rfl⟩

/-- A step goes and meets no read of a byte without a value, or it meets one and faults. -/
theorem step_goes_or_faults (s : State) :
    (Goes s ∧ ReadsWritten s) ∨ (step s = .fault .bufferByteHoldsNoValue ∧ ¬ ReadsWritten s) := by
  cases hs : s.inbox with
  | nil => exact .inl ⟨⟨s, by simp only [step, hs]⟩, fun i rest h => by simp [hs] at h⟩
  | cons r rest =>
    have hserve := step_of_inbox hs
    by_cases hr : ∃ i, r = .readBuf i
    · obtain ⟨i, rfl⟩ := hr
      have hreads : ReadsWritten s ↔ (i < s.cfg.bufCap → (s.buf.read i).isSome = true) := by
        simp [ReadsWritten, hs]
      obtain ⟨hvalue, hnone, houtside⟩ := hostReadsABufferByte s i rest hs
      rcases Nat.lt_or_ge i s.cfg.bufCap with hi | hi
      · cases hv : s.buf.read i with
        | some v => exact .inl ⟨⟨_, hvalue v hi hv⟩, hreads.2 fun _ => by simp [hv]⟩
        | none => exact .inr ⟨hnone hi hv, fun h => by simpa [hv] using hreads.1 h hi⟩
      · obtain ⟨v, hv⟩ := houtside hi
        exact .inl ⟨⟨_, hv⟩, hreads.2 fun hlt => absurd hlt (Nat.not_lt.2 hi)⟩
    · obtain ⟨t, ht⟩ := serve_goes (not_exists.1 hr) { s with inbox := rest }
      exact .inl ⟨⟨t, hserve.trans ht⟩, fun i rest' h => absurd ⟨i, (List.cons.inj (hs.symm.trans h)).1⟩ hr⟩

/-- Settles O11: going and faulting exclude each other, and neither is a refusal. -/
theorem stepGoesExactlyWhenReadsAreOfWrittenBytes : Obligations.StepGoesExactlyWhenReadsAreOfWrittenBytes := by
  intro s
  rcases step_goes_or_faults s with ⟨hgoes, hreads⟩ | ⟨hfault, hreads⟩
  · obtain ⟨t, ht⟩ := hgoes
    exact ⟨iff_of_true ⟨t, ht⟩ hreads, by simp [ht]⟩
  · exact ⟨iff_of_false (by simp [Goes, hfault]) hreads, by simp [hfault]⟩

/-! ### What commands do with the buffer (20_memory.md R203, R206) -/

/-- Settles O41: every command is a move, whole or cut, and a move leaves the indices from C up. -/
theorem noCommandWritesPastTheBuffer : Obligations.NoCommandWritesPastTheBuffer := by
  intro i s t j hexec hj
  obtain ⟨u, r, c, hmoves, rfl, -⟩ := exec_next_moves hexec
  exact hmoves.bufOutside j hj

/-- `t` is `s` but for what the buffer holds. -/
def SameButBuf (s t : State) : Prop := ∃ m, t = { s with buf := m }

/-- Two answers of a receiving sequence: the same value, and the same state but for the buffer. -/
def SameAnswer {α : Type} (p q : α × State) : Prop := p.1 = q.1 ∧ SameButBuf p.2 q.2

section Blind

variable {s t : State}

theorem SameButBuf.cfg (h : SameButBuf s t) : t.cfg = s.cfg := by
  obtain ⟨m, rfl⟩ := h; rfl

theorem SameAnswer.pair {α : Type} {a b : α} (hvalue : a = b) (h : SameButBuf s t) : SameAnswer (a, s) (b, t) :=
  ⟨hvalue, h⟩

/-- An action that does not read the buffer is performed in both runs or cut in both. -/
theorem act_sameButBuf {f : State → State} (hf : ∀ {s t}, SameButBuf s t → SameButBuf (f s) (f t))
    (h : SameButBuf s t) : SameButBuf (act f s) (act f t) := by
  obtain ⟨m, rfl⟩ := h
  unfold act
  dsimp only
  split
  · exact hf ⟨m, rfl⟩
  · exact ⟨m, rfl⟩
  · exact hf ⟨m, rfl⟩

theorem setDir_sameButBuf (S : List Line) (d : Mode) (h : SameButBuf s t) : SameButBuf (setDir S d s) (setDir S d t) :=
  act_sameButBuf (fun ⟨m, hm⟩ => ⟨m, by rw [hm]; rfl⟩) h

theorem drive_sameButBuf (v : LineBits) (h : SameButBuf s t) : SameButBuf (drive v s) (drive v t) :=
  act_sameButBuf (fun ⟨m, hm⟩ => ⟨m, by rw [hm]; rfl⟩) h

theorem delay_sameButBuf (d : Nat) (h : SameButBuf s t) : SameButBuf (delay d s) (delay d t) :=
  act_sameButBuf (fun ⟨m, hm⟩ => ⟨m, by rw [hm]; rfl⟩) h

theorem bitDelay_sameButBuf (h : SameButBuf s t) : SameButBuf (delay s.cfg.tBit s) (delay t.cfg.tBit t) := by
  rw [h.cfg]; exact delay_sameButBuf _ h

theorem sample_sameAnswer (S : List Line) (h : SameButBuf s t) : SameAnswer (sample S s) (sample S t) := by
  have hlevels : presented S s = presented S t := by obtain ⟨m, rfl⟩ := h; rfl
  exact .pair hlevels (act_sameButBuf (fun ⟨m, hm⟩ => ⟨m, by rw [hm]; rfl⟩) h)

/-- A write of the same byte at the same index: the buffers may still differ elsewhere. -/
theorem memWrite_sameButBuf (i : Nat) (v : Byte) (h : SameButBuf s t) :
    SameButBuf (memWrite i v s) (memWrite i v t) :=
  act_sameButBuf (fun ⟨m, hm⟩ => ⟨m.write i v, by rw [hm]⟩) h

theorem writeResult_sameButBuf (v : Half) (h : SameButBuf s t) : SameButBuf (writeResult v s) (writeResult v t) := by
  obtain ⟨m, rfl⟩ := h
  refine ⟨m, ?_⟩
  unfold writeResult
  dsimp only
  split <;> rfl

theorem writeCount_sameButBuf (v : Half) (h : SameButBuf s t) : SameButBuf (writeCount v s) (writeCount v t) := by
  obtain ⟨m, rfl⟩ := h
  refine ⟨m, ?_⟩
  unfold writeCount
  dsimp only
  split <;> rfl

theorem chipSelect_sameButBuf (a : Bool) (h : SameButBuf s t) : SameButBuf (chipSelect a s) (chipSelect a t) :=
  drive_sameButBuf _ (drive_sameButBuf _ (setDir_sameButBuf _ _ h))

theorem clockPulse_sameButBuf (h : SameButBuf s t) : SameButBuf (clockPulse s) (clockPulse t) :=
  bitDelay_sameButBuf (drive_sameButBuf _ (bitDelay_sameButBuf (drive_sameButBuf _ h)))

theorem pulseWrite_sameButBuf (w : LaneWidth) (v : BitVec 4) (h : SameButBuf s t) :
    SameButBuf (pulseWrite w v s) (pulseWrite w v t) :=
  clockPulse_sameButBuf (drive_sameButBuf _ (setDir_sameButBuf _ _ h))

theorem pulseRead_sameAnswer (w : LaneWidth) (h : SameButBuf s t) : SameAnswer (pulseRead w s) (pulseRead w t) := by
  obtain ⟨hlevels, hstate⟩ := sample_sameAnswer (readSet w) (setDir_sameButBuf (readSet w) .inp h)
  exact .pair (congrArg (unmap w) hlevels) (clockPulse_sameButBuf hstate)

theorem pulseFullDuplex_sameAnswer (w : LaneWidth) (v : BitVec 4) (h : SameButBuf s t) :
    SameAnswer (pulseFullDuplex w v s) (pulseFullDuplex w v t) := by
  have hrisen := bitDelay_sameButBuf (drive_sameButBuf [(.clk, true)] (drive_sameButBuf (laneMap w v)
    (setDir_sameButBuf (writeSet w) .out h)))
  obtain ⟨hlevels, hstate⟩ := sample_sameAnswer (readSet w)
    (drive_sameButBuf [(.clk, false)] (setDir_sameButBuf (activeSet w) .inp hrisen))
  exact .pair (congrArg (unmap w) hlevels) (bitDelay_sameButBuf hstate)

theorem clockPulses_sameButBuf (n : Nat) (h : SameButBuf s t) : SameButBuf (clockPulses n s) (clockPulses n t) := by
  induction n generalizing s t with
  | zero => exact h
  | succ n ih => exact ih (clockPulse_sameButBuf h)

theorem dummy_sameButBuf (n : Nat) (h : SameButBuf s t) : SameButBuf (dummy n s) (dummy n t) :=
  clockPulses_sameButBuf n (setDir_sameButBuf _ _ h)

theorem sendBits_sameButBuf (b : Byte) (k : Nat) (h : SameButBuf s t) :
    SameButBuf (sendBits b k s) (sendBits b k t) := by
  induction k generalizing s t with
  | zero => exact h
  | succ k ih => exact ih (pulseWrite_sameButBuf _ _ h)

theorem sendByte_sameButBuf (b : Byte) (h : SameButBuf s t) : SameButBuf (sendByte b s) (sendByte b t) :=
  sendBits_sameButBuf b 8 h

theorem rxBits_sameAnswer (k : Nat) (r : Byte) (h : SameButBuf s t) : SameAnswer (rxBits k r s) (rxBits k r t) := by
  induction k generalizing r s t with
  | zero => exact .pair rfl h
  | succ k ih =>
    obtain ⟨hvalue, hstate⟩ := pulseRead_sameAnswer .x1 h
    simp only [rxBits, hvalue]
    exact ih _ hstate

theorem rxPairs_sameAnswer (k : Nat) (r : Byte) (h : SameButBuf s t) :
    SameAnswer (rxPairs k r s) (rxPairs k r t) := by
  induction k generalizing r s t with
  | zero => exact .pair rfl h
  | succ k ih =>
    obtain ⟨hvalue, hstate⟩ := pulseRead_sameAnswer .x2 h
    simp only [rxPairs, hvalue]
    exact ih _ hstate

theorem rxByte1_sameAnswer (h : SameButBuf s t) : SameAnswer (rxByte1 s) (rxByte1 t) := rxBits_sameAnswer 8 0 h

theorem rxByte2_sameAnswer (h : SameButBuf s t) : SameAnswer (rxByte2 s) (rxByte2 t) := rxPairs_sameAnswer 4 0 h

theorem rxByte4_sameAnswer (h : SameButBuf s t) : SameAnswer (rxByte4 s) (rxByte4 t) := by
  obtain ⟨hhi, hstate⟩ := pulseRead_sameAnswer .x4 h
  obtain ⟨hlo, hstate⟩ := pulseRead_sameAnswer .x4 hstate
  exact .pair (congrArg₂ joinNibbles hhi hlo) hstate

theorem rxByte_sameAnswer (w : LaneWidth) (h : SameButBuf s t) : SameAnswer (rxByte w s) (rxByte w t) := by
  cases w with
  | x1 => exact rxByte1_sameAnswer h
  | x2 => exact rxByte2_sameAnswer h
  | x4 => exact rxByte4_sameAnswer h

theorem rxInto_sameButBuf (w : LaneWidth) (n i : Nat) (h : SameButBuf s t) :
    SameButBuf (rxInto w n i s) (rxInto w n i t) := by
  induction n generalizing i s t with
  | zero => exact h
  | succ n ih =>
    obtain ⟨hbyte, hstate⟩ := rxByte_sameAnswer w h
    simp only [rxInto, hbyte]
    exact ih _ (memWrite_sameButBuf i _ hstate)

theorem rxBulk_sameAnswer (w : LaneWidth) (l : BitVec 16) (h : SameButBuf s t) :
    SameAnswer (rxBulk w l s) (rxBulk w l t) := by
  simp only [rxBulk, h.cfg]
  exact .pair rfl (rxInto_sameButBuf w _ 0 h)

theorem identifyFrame_sameAnswer (h : SameButBuf s t) : SameAnswer (identifyFrame s) (identifyFrame t) := by
  simp only [identifyFrame]
  have hsent := dummy_sameButBuf 8 (sendByte_sameButBuf opReadId (chipSelect_sameButBuf true h))
  obtain ⟨hb0, hstate⟩ := rxByte1_sameAnswer hsent
  obtain ⟨hb1, hstate⟩ := rxByte1_sameAnswer hstate
  exact .pair (congrArg₂ joinBytes hb0 hb1) (chipSelect_sameButBuf false hstate)

theorem loadFrame_sameButBuf (row : BitVec 24) (h : SameButBuf s t) :
    SameButBuf (loadFrame row s) (loadFrame row t) := by
  have hsent := sendByte_sameButBuf (rowByte0 row) (sendByte_sameButBuf (rowByte1 row) (sendByte_sameButBuf
    (rowByte2 row) (sendByte_sameButBuf opPageReadToCache (chipSelect_sameButBuf true h))))
  have hended := chipSelect_sameButBuf false hsent
  simp only [loadFrame, hended.cfg]
  exact delay_sameButBuf _ hended

theorem quadReadFrame_sameAnswer (col l : BitVec 16) (h : SameButBuf s t) :
    SameAnswer (quadReadFrame col l s) (quadReadFrame col l t) := by
  have hsent := dummy_sameButBuf 8 (sendByte_sameButBuf (colByte0 col) (sendByte_sameButBuf (colByte1 col)
    (sendByte_sameButBuf opFastReadQuad (chipSelect_sameButBuf true h))))
  simp only [quadReadFrame, hsent.cfg]
  exact .pair rfl (chipSelect_sameButBuf false (rxInto_sameButBuf .x4 _ 0 hsent))

theorem pulseResult_sameButBuf {p q : BitVec 4 × State} (h : SameAnswer p q) :
    SameButBuf (pulseResult p) (pulseResult q) := by
  simp only [pulseResult, h.1]; exact writeResult_sameButBuf _ h.2

theorem byteResult_sameButBuf {p q : Byte × State} (h : SameAnswer p q) :
    SameButBuf (byteResult p) (byteResult q) := by
  simp only [byteResult, h.1]; exact writeResult_sameButBuf _ h.2

theorem identifyResult_sameButBuf {p q : Half × State} (h : SameAnswer p q) :
    SameButBuf (identifyResult p) (identifyResult q) := by
  simp only [identifyResult, h.1]; exact writeResult_sameButBuf _ h.2

theorem bulkCount_sameButBuf {p q : Nat × State} (h : SameAnswer p q) :
    SameButBuf (bulkCount p) (bulkCount q) := by
  simp only [bulkCount, h.1]; exact writeCount_sameButBuf _ h.2

/-- Every command answers in both runs, and the states it leaves are the same but for the buffer. -/
theorem exec_sameButBuf (i : Instr) (h : SameButBuf s t) :
    ∃ u v, exec i s = .next u ∧ exec i t = .next v ∧ SameButBuf u v := by
  cases i with
  | setcs a => exact ⟨_, _, rfl, rfl, chipSelect_sameButBuf a h⟩
  | pulsewX1 | pulsewX2 | pulsewX4 => exact ⟨_, _, rfl, rfl, pulseWrite_sameButBuf _ _ h⟩
  | pulserX1 | pulserX2 | pulserX4 => exact ⟨_, _, rfl, rfl, pulseResult_sameButBuf (pulseRead_sameAnswer _ h)⟩
  | pulsefdX1 | pulsefdX2 | pulsefdX4 =>
    exact ⟨_, _, rfl, rfl, pulseResult_sameButBuf (pulseFullDuplex_sameAnswer _ _ h)⟩
  | dummy n => exact ⟨_, _, rfl, rfl, dummy_sameButBuf n.toNat h⟩
  | sendcmd b => exact ⟨_, _, rfl, rfl, sendByte_sameButBuf b h⟩
  | readbyte => exact ⟨_, _, rfl, rfl, byteResult_sameButBuf (rxByte1_sameAnswer h)⟩
  | readdualbyte => exact ⟨_, _, rfl, rfl, byteResult_sameButBuf (rxByte2_sameAnswer h)⟩
  | readquadbyte => exact ⟨_, _, rfl, rfl, byteResult_sameButBuf (rxByte4_sameAnswer h)⟩
  | readbytes l | readdualbytes l | readquadbytes l =>
    exact ⟨_, _, rfl, rfl, bulkCount_sameButBuf (rxBulk_sameAnswer _ l h)⟩
  | identify => exact ⟨_, _, rfl, rfl, identifyResult_sameButBuf (identifyFrame_sameAnswer h)⟩
  | loadpage row => exact ⟨_, _, rfl, rfl, loadFrame_sameButBuf row h⟩
  | qread col l => exact ⟨_, _, rfl, rfl, bulkCount_sameButBuf (quadReadFrame_sameAnswer col l h)⟩

end Blind

/-- Settles O58: from states that are the same but for the buffer, a command leaves such states. -/
theorem noCommandReadsTheBuffer : Obligations.NoCommandReadsTheBuffer := by
  intro i s m
  obtain ⟨u, v, hu, hv, m', rfl⟩ := exec_sameButBuf i (s := s) ⟨m, rfl⟩
  exact ⟨u, m', hu, hv⟩

/-! ### Opcode and address on the wire (20_memory.md R220, R221) -/

/-- The bits of a vector, the most significant first (R220). -/
def bitsMsbFirst {n : Nat} (x : BitVec n) : List Bool := (List.range n).map fun k => x.getLsbD (n - 1 - k)

@[simp] theorem length_bitsMsbFirst {n : Nat} (x : BitVec n) : (bitsMsbFirst x).length = n := by simp [bitsMsbFirst]

theorem bitsMsbFirst_append {m n : Nat} (x : BitVec m) (y : BitVec n) :
    bitsMsbFirst (x ++ y) = bitsMsbFirst x ++ bitsMsbFirst y := by
  simp only [bitsMsbFirst, List.range_add, List.map_append, List.map_map]
  congr 1
  · refine List.map_congr_left fun k hk => ?_
    have hk := List.mem_range.1 hk
    rw [BitVec.getLsbD_append, if_neg (by omega)]
    congr 1; omega
  · refine List.map_congr_left fun k hk => ?_
    have hk := List.mem_range.1 hk
    rw [Function.comp, BitVec.getLsbD_append, if_pos (by omega)]
    congr 1; omega

/-- A row is its three bytes, the most significant first (R221). -/
theorem bitsMsbFirst_row (row : BitVec 24) :
    bitsMsbFirst row = bitsMsbFirst (rowByte2 row) ++ (bitsMsbFirst (rowByte1 row) ++ bitsMsbFirst (rowByte0 row)) := by
  have hrow : rowByte2 row ++ (rowByte1 row ++ rowByte0 row) = row := by
    rw [rowByte2, rowByte1, rowByte0,
      BitVec.extractLsb'_append_extractLsb'_eq_extractLsb' (show 8 = 0 + 8 from rfl),
      BitVec.extractLsb'_append_extractLsb'_eq_extractLsb' (show 16 = 0 + (8 + 8) from rfl)]
    exact BitVec.extractLsb'_eq_self
  rw [← bitsMsbFirst_append, ← bitsMsbFirst_append, hrow]

/-- A column is its two bytes, the most significant first (R221). -/
theorem bitsMsbFirst_col (col : BitVec 16) :
    bitsMsbFirst col = bitsMsbFirst (colByte1 col) ++ bitsMsbFirst (colByte0 col) := by
  have hcol : colByte1 col ++ colByte0 col = col := by
    rw [colByte1, colByte0, BitVec.extractLsb'_append_extractLsb'_eq_extractLsb' (show 8 = 0 + 8 from rfl)]
    exact BitVec.extractLsb'_eq_self
  rw [← bitsMsbFirst_append, hcol]

/-- The eight pulses of a byte carry its bits on IO0, whatever the data lines were. -/
theorem latchAtRises_evSend {ls : Lines} (h : ClockIdle ls) (T : Nat) (b : Byte) :
    latchAtRises .io0 ls (evSend T b) = bitsMsbFirst b := by
  have gen : ∀ (ks : List Nat) (ls : Lines), ClockIdle ls →
      latchAtRises .io0 ls (ks.flatMap fun k => evWrite T .x1 (nibble false false false (b.getLsbD k))) =
        ks.map b.getLsbD := by
    intro ks
    induction ks with
    | nil => exact fun ls _ => rfl
    | cons k ks ih =>
      intro ls h
      rw [List.flatMap_cons, latchAtRises_append, latchAtRises_evWrite h, ih _ (pulses_evWrite h T .x1 _).2]
      rfl
  exact gen [7, 6, 5, 4, 3, 2, 1, 0] ls h

/-- The latches of IO0 while bytes are sent one after another, and then those of what follows. -/
theorem latchAtRises_evSends {ls : Lines} (h : ClockIdle ls) (T : Nat) (bs : List Byte) (es : List Event) :
    ∃ ls', latchAtRises .io0 ls (bs.flatMap (evSend T) ++ es) =
      bs.flatMap bitsMsbFirst ++ latchAtRises .io0 ls' es := by
  induction bs generalizing ls with
  | nil => exact ⟨ls, rfl⟩
  | cons b bs ih =>
    obtain ⟨ls', hrest⟩ := ih (pulses_evSend h T b).2
    refine ⟨ls', ?_⟩
    rw [List.flatMap_cons, List.append_assoc, latchAtRises_append, latchAtRises_evSend h, hrest, List.flatMap_cons,
      List.append_assoc]

/-- The head of a frame: chip-select idles the clock from any lines, and the bytes follow. -/
theorem latchAtRises_frame (ls : Lines) (T : Nat) (bs : List Byte) (es : List Event) :
    ∃ ls', latchAtRises .io0 ls (evChipSelect true ++ (bs.flatMap (evSend T) ++ es)) =
      bs.flatMap bitsMsbFirst ++ latchAtRises .io0 ls' es := by
  rw [latchAtRises_append, latchAtRises_evChipSelect]
  exact latchAtRises_evSends (pulses_evChipSelect ls true).2 T bs es

theorem evLoad_eq (T Tload : Nat) (row : BitVec 24) : evLoad T Tload row = evChipSelect true ++
    ([opPageReadToCache, rowByte2 row, rowByte1 row, rowByte0 row].flatMap (evSend T) ++
      (evChipSelect false ++ [.wait Tload])) := by
  simp [evLoad, opPageReadToCache, rowByte2, rowByte1, rowByte0]

theorem evQuadRead_eq (T : Nat) (col : BitVec 16) (lvs : List Levels) : evQuadRead T col lvs = evChipSelect true ++
    ([opFastReadQuad, colByte1 col, colByte0 col].flatMap (evSend T) ++
      (evDummy T 8 ++ evReads T .x4 lvs ++ evChipSelect false)) := by
  simp [evQuadRead, opFastReadQuad, colByte1, colByte0]

/-- LOADPAGE on IO0: opcode and row, and no rising edge after them. -/
theorem latchAtRises_evLoad (ls : Lines) (T Tload : Nat) (row : BitVec 24) :
    latchAtRises .io0 ls (evLoad T Tload row) = bitsMsbFirst (opPageReadToCache ++ row) := by
  obtain ⟨ls', hframe⟩ := latchAtRises_frame ls T [opPageReadToCache, rowByte2 row, rowByte1 row, rowByte0 row]
    (evChipSelect false ++ [.wait Tload])
  have hend : latchAtRises .io0 ls' (evChipSelect false ++ [.wait Tload]) = [] := by
    rw [latchAtRises_append, latchAtRises_evChipSelect]; rfl
  rw [evLoad_eq, hframe, hend, bitsMsbFirst_append, bitsMsbFirst_row]
  simp

/-- QREAD on IO0: opcode and column, and then the dummy pulses and the reads. -/
theorem latchAtRises_evQuadRead (ls : Lines) (T : Nat) (col : BitVec 16) (lvs : List Levels) :
    bitsMsbFirst (opFastReadQuad ++ col) <+: latchAtRises .io0 ls (evQuadRead T col lvs) := by
  obtain ⟨ls', hframe⟩ := latchAtRises_frame ls T [opFastReadQuad, colByte1 col, colByte0 col]
    (evDummy T 8 ++ evReads T .x4 lvs ++ evChipSelect false)
  rw [evQuadRead_eq, hframe, bitsMsbFirst_append, bitsMsbFirst_col]
  simp

/-- Settles O47: the events of the two frames are known, so the latches at their rising edges are. -/
theorem framesSendOpcodeAndAddressMsbFirst : Obligations.FramesSendOpcodeAndAddressMsbFirst := by
  intro s hs
  constructor
  · intro row
    obtain ⟨lvs, m, r, c, -, hexec, -⟩ := exec_idle (.loadpage row) hs
    refine ⟨_, hexec, ?_⟩
    rw [newEvents_eq (es := evLoad s.cfg.tBit s.cfg.tLoad row) rfl]
    exact latchAtRises_evLoad _ _ _ row
  · intro col l
    obtain ⟨lvs, m, r, c, -, hexec, -⟩ := exec_idle (.qread col l) hs
    refine ⟨_, hexec, ?_⟩
    rw [newEvents_eq (es := evQuadRead s.cfg.tBit col lvs) rfl]
    have hhead := List.prefix_iff_eq_take.1 (latchAtRises_evQuadRead s.lines s.cfg.tBit col lvs)
    rw [length_bitsMsbFirst] at hhead
    exact hhead.symm

end Sys2Proof.Machine
end

section
/-! PROOFS. 30_encoding.md: the rows of the opcode table are disjoint (R304) and say which fields of a word an op uses
(R305), so decode and encode are inverse to each other; illegal words (R306); the opcode map (R308); the assembler
(R330). -/

namespace Sys2Proof

open Machine

/-! ### The rows of the opcode table (30_encoding.md R304) -/

/-- Two rows of the table fix a bit that both masks name at different values. -/
theorem opcodeTable_clashes : opcodeTable.Pairwise fun r q => r.fixed &&& q.mask ≠ q.fixed &&& r.mask := by decide

/-- A word that matches two rows has the fixed bits of both, so the rows do not clash. -/
theorem fixed_and_mask_of_matches {w : CmdWord} {r q : Row} (hr : w &&& r.mask = r.fixed)
    (hq : w &&& q.mask = q.fixed) : r.fixed &&& q.mask = q.fixed &&& r.mask := by
  rw [← hr, ← hq, BitVec.and_assoc, BitVec.and_assoc, BitVec.and_comm r.mask]

theorem row_index_unique {w : CmdWord} {m n : Nat} {r q : Row} (hm : opcodeTable[m]? = some r)
    (hn : opcodeTable[n]? = some q) (hr : w &&& r.mask = r.fixed) (hq : w &&& q.mask = q.fixed) : m = n := by
  obtain ⟨hmlt, rfl⟩ := List.getElem?_eq_some_iff.1 hm
  obtain ⟨hnlt, rfl⟩ := List.getElem?_eq_some_iff.1 hn
  have hclash := List.pairwise_iff_getElem.1 opcodeTable_clashes
  rcases Nat.lt_trichotomy m n with hlt | heq | hgt
  · exact absurd (fixed_and_mask_of_matches hr hq) (hclash m n hmlt hnlt hlt)
  · exact heq
  · exact absurd (fixed_and_mask_of_matches hq hr) (hclash n m hnlt hmlt hgt)

theorem row_unique {w : CmdWord} {r q : Row} (hr : r ∈ opcodeTable) (hq : q ∈ opcodeTable)
    (hwr : w &&& r.mask = r.fixed) (hwq : w &&& q.mask = q.fixed) : r = q := by
  obtain ⟨m, hm⟩ := List.mem_iff_getElem?.1 hr
  obtain ⟨n, hn⟩ := List.mem_iff_getElem?.1 hq
  cases row_index_unique hm hn hwr hwq
  exact Option.some.inj (hm.symm.trans hn)

@[simp] theorem Row.hits_iff (r : Row) (w : CmdWord) : r.hits w = true ↔ w &&& r.mask = r.fixed := by
  simp [Row.hits]

/-! ### The decoder, by the row that matches -/

theorem decode_of_matches {w : CmdWord} {r : Row} (hr : r ∈ opcodeTable) (hw : w &&& r.mask = r.fixed) :
    decode w = .ok (r.build w) := by
  have hsome : (opcodeTable.find? fun q => q.hits w).isSome := List.find?_isSome.2 ⟨r, hr, (r.hits_iff w).2 hw⟩
  obtain ⟨q, hfind⟩ := Option.isSome_iff_exists.1 hsome
  have hq : w &&& q.mask = q.fixed := (q.hits_iff w).1 (List.find?_some (p := fun q : Row => q.hits w) hfind)
  cases row_unique (List.mem_of_find?_eq_some hfind) hr hq hw
  simp [decode, spells, hfind]

theorem decode_of_matchesNone {w : CmdWord} (h : ∀ r ∈ opcodeTable, w &&& r.mask ≠ r.fixed) :
    decode w = .error (illegalCause w) := by
  have hfind : opcodeTable.find? (fun r => r.hits w) = none :=
    List.find?_eq_none.2 fun r hr => mt (r.hits_iff w).1 (h r hr)
  simp [decode, spells, hfind]

/-- The words that spell a command: those that match a row, and the row builds the command. -/
theorem decode_eq_ok_iff {w : CmdWord} {i : Instr} :
    decode w = .ok i ↔ ∃ r ∈ opcodeTable, w &&& r.mask = r.fixed ∧ r.build w = i := by
  constructor
  · intro h
    by_cases hnone : ∀ r ∈ opcodeTable, w &&& r.mask ≠ r.fixed
    · rw [decode_of_matchesNone hnone] at h
      cases h
    · push Not at hnone
      obtain ⟨r, hr, hw⟩ := hnone
      rw [decode_of_matches hr hw] at h
      exact ⟨r, hr, hw, Except.ok.inj h⟩
  · rintro ⟨r, hr, hw, rfl⟩
    exact decode_of_matches hr hw

/-- Settles O3: the rows clash pairwise, so the first row that matches is the only one. -/
theorem atMostOneRowMatchesAWord : Obligations.AtMostOneRowMatchesAWord :=
  ⟨fun _ _ _ _ _ hm hn hr hq => row_index_unique hm hn hr hq,
    fun _ _ hr hw => decode_of_matches hr hw,
    fun w h => ⟨illegalCause w, decode_of_matchesNone h⟩⟩

/-! ### Decoding an encoded command (R304, R308) -/

open Laws.WordMatchesItsRow in
/-- The word of every command matches the command's row. -/
theorem encode_matches_rowOf (i : Instr) : Statement i := by
  cases i with
  | setcs a => exact setcs a
  | pulsewX1 v => exact pulsewX1 v
  | pulsewX2 v => exact pulsewX2 v
  | pulsewX4 v => exact pulsewX4 v
  | pulserX1 => exact pulserX1
  | pulserX2 => exact pulserX2
  | pulserX4 => exact pulserX4
  | pulsefdX1 v => exact pulsefdX1 v
  | pulsefdX2 v => exact pulsefdX2 v
  | pulsefdX4 v => exact pulsefdX4 v
  | dummy n => exact dummy n
  | sendcmd b => exact sendcmd b
  | readbyte => exact readbyte
  | readdualbyte => exact readdualbyte
  | readquadbyte => exact readquadbyte
  | readbytes l => exact readbytes l
  | readdualbytes l => exact readdualbytes l
  | readquadbytes l => exact readquadbytes l
  | identify => exact identify
  | loadpage row => exact loadpage row
  | qread col l => exact qread col l

/-- Settles O1: the word of a command matches the command's row, which builds the command back. -/
theorem decodeOfEncodeIsTheCommand : Obligations.DecodeOfEncodeIsTheCommand := by
  intro i
  obtain ⟨r, hrow, hmatch, hbuild⟩ := encode_matches_rowOf i
  exact decode_eq_ok_iff.2 ⟨r, List.mem_of_getElem? hrow, hmatch, hbuild⟩

/-! ### The fields of a word (30_encoding.md R301) -/

theorem toNat_append_eq_add {m n : Nat} (x : BitVec m) (y : BitVec n) :
    (x ++ y).toNat = x.toNat * 2 ^ n + y.toNat := by
  rw [BitVec.toNat_append, ← Nat.shiftLeft_add_eq_or_of_lt y.isLt, Nat.shiftLeft_eq]

theorem toNat_cmdWord (op : BitVec 8) (wc : BitVec 2) (len : BitVec 16) (arg : BitVec 32) :
    (cmdWord op wc len arg).toNat = op.toNat * 2 ^ 56 + wc.toNat * 2 ^ 54 + len.toNat * 2 ^ 32 + arg.toNat := by
  have happend : (cmdWord op wc len arg).toNat = (op ++ wc ++ 0#6 ++ len ++ arg).toNat := rfl
  simp only [happend, toNat_append_eq_add, BitVec.toNat_zero]
  ring

@[simp] theorem toNat_fieldOp (w : CmdWord) : (fieldOp w).toNat = w.toNat / 2 ^ 56 := by
  rw [fieldOp, BitVec.extractLsb'_toNat, Nat.shiftRight_eq_div_pow]
  omega

@[simp] theorem toNat_fieldWc (w : CmdWord) : (fieldWc w).toNat = w.toNat / 2 ^ 54 % 4 := by
  rw [fieldWc, BitVec.extractLsb'_toNat, Nat.shiftRight_eq_div_pow]

@[simp] theorem toNat_fieldRsv (w : CmdWord) : (fieldRsv w).toNat = w.toNat / 2 ^ 48 % 64 := by
  rw [fieldRsv, BitVec.extractLsb'_toNat, Nat.shiftRight_eq_div_pow]

@[simp] theorem toNat_fieldLen (w : CmdWord) : (fieldLen w).toNat = w.toNat / 2 ^ 32 % 65536 := by
  rw [fieldLen, BitVec.extractLsb'_toNat, Nat.shiftRight_eq_div_pow]

@[simp] theorem toNat_fieldArg (w : CmdWord) : (fieldArg w).toNat = w.toNat % 2 ^ 32 := by
  rw [fieldArg, BitVec.extractLsb'_toNat, Nat.shiftRight_zero]

/-- A word whose reserved bits are 0 is the word of its fields. -/
theorem eq_cmdWord_iff {w : CmdWord} {op : BitVec 8} {wc : BitVec 2} {len : BitVec 16} {arg : BitVec 32} :
    w = cmdWord op wc len arg ↔
      fieldOp w = op ∧ fieldWc w = wc ∧ fieldRsv w = 0 ∧ fieldLen w = len ∧ fieldArg w = arg := by
  simp only [← BitVec.toNat_inj, toNat_cmdWord, toNat_fieldOp, toNat_fieldWc, toNat_fieldRsv, toNat_fieldLen,
    toNat_fieldArg, BitVec.ofNat_eq_ofNat, BitVec.toNat_zero]
  omega

/-! ### The form of a row: the fields its op uses (R305, R308) -/

/-- The bits of a word that a row fixes: all but the low `l` bits of LEN and the low `n` bits of ARG. -/
def opMask (l n : Nat) : CmdWord :=
  ~~~cmdWord 0 0 (~~~(BitVec.allOnes 16 <<< l)) (~~~(BitVec.allOnes 32 <<< n))

/-- What a word of an op holds in its fields: OP and WC fixed, RSV zero, an operand of `l` bits in LEN and one of `n`
bits in ARG, every other bit zero (R305). -/
structure HasFields (op : BitVec 8) (wc : BitVec 2) (l n : Nat) (w : CmdWord) : Prop where
  op : fieldOp w = op
  wc : fieldWc w = wc
  rsv : fieldRsv w = 0
  len : (fieldLen w).toNat < 2 ^ l
  arg : (fieldArg w).toNat < 2 ^ n

theorem and_allOnes_shiftLeft_eq_zero_iff {k : Nat} (x : BitVec k) (n : Nat) :
    x &&& (BitVec.allOnes k <<< n) = 0 ↔ x.toNat < 2 ^ n := by
  constructor
  · intro h
    refine Nat.lt_pow_two_of_testBit _ fun i hi => ?_
    have hbit : (x &&& BitVec.allOnes k <<< n).getLsbD i = false := by rw [h]; simp
    rw [BitVec.testBit_toNat]
    rcases Nat.lt_or_ge i k with hik | hik
    · have hin : ¬ i < n := by omega
      have hink : i - n < k := by omega
      simpa [hik, hin, hink] using hbit
    · exact BitVec.getLsbD_of_ge x i hik
  · intro h
    refine BitVec.eq_of_getLsbD_eq fun i hi => ?_
    by_cases hin : i < n
    · simp [hin]
    · have : x.getLsbD i = false := Nat.testBit_lt_two_pow (h.trans_le (Nat.pow_le_pow_right (by decide) (by omega)))
      simp [this]

theorem extractLsb'_and_not {k start len : Nat} (h : start + len ≤ k) (x y : BitVec k) :
    (x &&& ~~~y).extractLsb' start len = x.extractLsb' start len &&& ~~~y.extractLsb' start len := by
  ext i hi
  have hik : start + i < k := by omega
  simp [hik]

theorem fieldOp_and_not (w v : CmdWord) : fieldOp (w &&& ~~~v) = fieldOp w &&& ~~~fieldOp v :=
  extractLsb'_and_not (by decide) w v
theorem fieldWc_and_not (w v : CmdWord) : fieldWc (w &&& ~~~v) = fieldWc w &&& ~~~fieldWc v :=
  extractLsb'_and_not (by decide) w v
theorem fieldRsv_and_not (w v : CmdWord) : fieldRsv (w &&& ~~~v) = fieldRsv w &&& ~~~fieldRsv v :=
  extractLsb'_and_not (by decide) w v
theorem fieldLen_and_not (w v : CmdWord) : fieldLen (w &&& ~~~v) = fieldLen w &&& ~~~fieldLen v :=
  extractLsb'_and_not (by decide) w v
theorem fieldArg_and_not (w v : CmdWord) : fieldArg (w &&& ~~~v) = fieldArg w &&& ~~~fieldArg v :=
  extractLsb'_and_not (by decide) w v

/-- A word matches a row exactly when its fields are those of the row's op (R304, R305). -/
theorem matches_opMask_iff {op : BitVec 8} {wc : BitVec 2} {l n : Nat} {w : CmdWord} :
    w &&& opMask l n = cmdWord op wc 0 0 ↔ HasFields op wc l n w := by
  obtain ⟨hop, hwc, hrsv, hlen, harg⟩ := eq_cmdWord_iff.1 (Eq.refl
    (cmdWord 0 0 (~~~(BitVec.allOnes 16 <<< l)) (~~~(BitVec.allOnes 32 <<< n))))
  rw [eq_cmdWord_iff, opMask, fieldOp_and_not, fieldWc_and_not, fieldRsv_and_not, fieldLen_and_not, fieldArg_and_not,
    hop, hwc, hrsv, hlen, harg, BitVec.not_not, BitVec.not_not, and_allOnes_shiftLeft_eq_zero_iff,
    and_allOnes_shiftLeft_eq_zero_iff]
  simp only [BitVec.ofNat_eq_ofNat, BitVec.not_zero, BitVec.and_allOnes]
  exact ⟨fun ⟨hop, hwc, hrsv, hlen, harg⟩ => ⟨hop, hwc, hrsv, hlen, harg⟩,
    fun ⟨hop, hwc, hrsv, hlen, harg⟩ => ⟨hop, hwc, hrsv, hlen, harg⟩⟩

/-! ### Encoding a decoded word (R305, R307) -/

section Operands

variable {op : BitVec 8} {wc : BitVec 2} {l n : Nat} {w : CmdWord}

/-- The operand in ARG is all of ARG, in a word that has no other bit there. -/
theorem HasFields.setWidth_argLow (h : HasFields op wc l n w) : (argLow n w).setWidth 32 = fieldArg w := by
  apply BitVec.eq_of_toNat_eq
  rw [argLow, BitVec.toNat_setWidth, BitVec.toNat_setWidth, Nat.mod_eq_of_lt h.arg, Nat.mod_eq_of_lt (fieldArg w).isLt]

theorem HasFields.fieldArg_eq_zero (h : HasFields op wc l 0 w) : fieldArg w = 0 :=
  BitVec.eq_of_toNat_eq (Nat.lt_one_iff.1 h.arg)

theorem HasFields.fieldLen_eq_zero (h : HasFields op wc 0 n w) : fieldLen w = 0 :=
  BitVec.eq_of_toNat_eq (Nat.lt_one_iff.1 h.len)

theorem cmdWord_of_matches_noOperand (h : w &&& opMask 0 0 = cmdWord op wc 0 0) : cmdWord op wc 0 0 = w := by
  have hf := matches_opMask_iff.1 h
  exact (eq_cmdWord_iff.2 ⟨hf.op, hf.wc, hf.rsv, hf.fieldLen_eq_zero, hf.fieldArg_eq_zero⟩).symm

theorem cmdWord_of_matches_arg (n : Nat) (h : w &&& opMask 0 n = cmdWord op wc 0 0) :
    cmdWord op wc 0 ((argLow n w).setWidth 32) = w := by
  have hf := matches_opMask_iff.1 h
  exact (eq_cmdWord_iff.2 ⟨hf.op, hf.wc, hf.rsv, hf.fieldLen_eq_zero, hf.setWidth_argLow.symm⟩).symm

theorem cmdWord_of_matches_len (h : w &&& opMask 16 0 = cmdWord op wc 0 0) : cmdWord op wc (fieldLen w) 0 = w := by
  have hf := matches_opMask_iff.1 h
  exact (eq_cmdWord_iff.2 ⟨hf.op, hf.wc, hf.rsv, rfl, hf.fieldArg_eq_zero⟩).symm

theorem cmdWord_of_matches_len_arg (n : Nat) (h : w &&& opMask 16 n = cmdWord op wc 0 0) :
    cmdWord op wc (fieldLen w) ((argLow n w).setWidth 32) = w := by
  have hf := matches_opMask_iff.1 h
  exact (eq_cmdWord_iff.2 ⟨hf.op, hf.wc, hf.rsv, rfl, hf.setWidth_argLow.symm⟩).symm

end Operands

/-- The operand of SETCS is the low bit of ARG (R302). -/
theorem encode_setcs_getLsbD (x : BitVec 32) :
    encode (.setcs (x.getLsbD 0)) = cmdWord 0x01 0 0 ((x.setWidth 1).setWidth 32) := by
  rw [BitVec.setWidth_one]; rfl

/-- Row by row: the mask of a row leaves free exactly the bits that the row's command reads its operands from. -/
theorem encode_build_of_matches {w : CmdWord} {r : Row} (hr : r ∈ opcodeTable) (hw : w &&& r.mask = r.fixed) :
    encode (r.build w) = w := by
  simp only [opcodeTable, rowsOfPulses, rowsOfTransfers, rowsOfFrames, List.cons_append, List.nil_append,
    List.mem_cons, List.not_mem_nil, or_false] at hr
  rcases hr with rfl | rfl | rfl | rfl | rfl | rfl | rfl | rfl | rfl | rfl | rfl |
    rfl | rfl | rfl | rfl | rfl | rfl | rfl | rfl | rfl | rfl
  -- the Line Driver and the Bit-Bang Engine
  · exact (encode_setcs_getLsbD _).trans (cmdWord_of_matches_arg 1 hw)
  · exact cmdWord_of_matches_arg 1 hw
  · exact cmdWord_of_matches_arg 2 hw
  · exact cmdWord_of_matches_arg 4 hw
  · exact cmdWord_of_matches_noOperand hw
  · exact cmdWord_of_matches_noOperand hw
  · exact cmdWord_of_matches_noOperand hw
  · exact cmdWord_of_matches_arg 1 hw
  · exact cmdWord_of_matches_arg 2 hw
  · exact cmdWord_of_matches_arg 4 hw
  · exact cmdWord_of_matches_len hw
  -- the Lane Transfer Layer
  · exact cmdWord_of_matches_arg 8 hw
  · exact cmdWord_of_matches_noOperand hw
  · exact cmdWord_of_matches_noOperand hw
  · exact cmdWord_of_matches_noOperand hw
  · exact cmdWord_of_matches_len hw
  · exact cmdWord_of_matches_len hw
  · exact cmdWord_of_matches_len hw
  -- the NAND Command Protocol
  · exact cmdWord_of_matches_noOperand hw
  · exact cmdWord_of_matches_arg 24 hw
  · exact cmdWord_of_matches_len_arg 16 hw

/-- Settles O2: the row that a legal word matches leaves no bit of it out of the operands. -/
theorem encodeOfDecodeIsTheWord : Obligations.EncodeOfDecodeIsTheWord := by
  intro w i h
  obtain ⟨r, hr, hw, rfl⟩ := decode_eq_ok_iff.1 h
  exact encode_build_of_matches hr hw

/-! ### Legal words (R305) -/

/-- The form of each row: OP, WC, and the bits of its operands in LEN and in ARG (R308). -/
def rowForms : List (BitVec 8 × BitVec 2 × Nat × Nat) :=
  [ (0x01, 0, 0, 1),
    (0x02, 0, 0, 1), (0x02, 1, 0, 2), (0x02, 2, 0, 4),
    (0x03, 0, 0, 0), (0x03, 1, 0, 0), (0x03, 2, 0, 0),
    (0x04, 0, 0, 1), (0x04, 1, 0, 2), (0x04, 2, 0, 4),
    (0x05, 0, 16, 0),
    (0x10, 0, 0, 8),
    (0x11, 0, 0, 0), (0x11, 1, 0, 0), (0x11, 2, 0, 0),
    (0x12, 0, 16, 0), (0x12, 1, 16, 0), (0x12, 2, 16, 0),
    (0x20, 0, 0, 0), (0x21, 0, 0, 24), (0x22, 0, 16, 16) ]

theorem opcodeTable_forms : (opcodeTable.map fun r => (r.mask, r.fixed)) =
    rowForms.map fun F => (opMask F.2.2.1 F.2.2.2, cmdWord F.1 F.2.1 0 0) := by decide

/-- A word is legal exactly when its fields are of the form of some row. -/
theorem decode_ok_iff_hasFields (w : CmdWord) :
    (∃ i, decode w = .ok i) ↔ ∃ F ∈ rowForms, HasFields F.1 F.2.1 F.2.2.1 F.2.2.2 w := by
  calc (∃ i, decode w = .ok i)
      ↔ ∃ p ∈ opcodeTable.map fun r => (r.mask, r.fixed), w &&& p.1 = p.2 := by
        simp only [decode_eq_ok_iff, List.mem_map, exists_exists_and_eq_and]
        exact ⟨fun ⟨_, r, hr, hw, _⟩ => ⟨r, hr, hw⟩, fun ⟨r, hr, hw⟩ => ⟨_, r, hr, hw, rfl⟩⟩
    _ ↔ ∃ F ∈ rowForms, HasFields F.1 F.2.1 F.2.2.1 F.2.2.2 w := by
        simp only [opcodeTable_forms, List.mem_map, exists_exists_and_eq_and, matches_opMask_iff]

theorem hasFields_iff_toNat {op : BitVec 8} {wc : BitVec 2} {l n : Nat} {w : CmdWord} :
    HasFields op wc l n w ↔ w.toNat / 2 ^ 56 = op.toNat ∧ w.toNat / 2 ^ 54 % 4 = wc.toNat ∧
      w.toNat / 2 ^ 48 % 64 = 0 ∧ w.toNat / 2 ^ 32 % 65536 < 2 ^ l ∧ w.toNat % 2 ^ 32 < 2 ^ n := by
  rw [← toNat_fieldOp, ← toNat_fieldWc, ← toNat_fieldRsv, ← toNat_fieldLen, ← toNat_fieldArg, BitVec.toNat_inj,
    BitVec.toNat_inj]
  exact ⟨fun h => ⟨h.op, h.wc, congrArg BitVec.toNat h.rsv, h.len, h.arg⟩,
    fun ⟨hop, hwc, hrsv, hlen, harg⟩ => ⟨hop, hwc, BitVec.eq_of_toNat_eq hrsv, hlen, harg⟩⟩

/-- Settles O4, op by op: the rows of an op, taken together, are the op's clause. -/
theorem legalWordsHaveZeroReservedBits : Obligations.LegalWordsHaveZeroReservedBits := by
  intro w
  have hwc : w.toNat / 2 ^ 54 % 4 < 4 := Nat.mod_lt _ (by decide)
  have hlen : w.toNat / 2 ^ 32 % 65536 < 65536 := Nat.mod_lt _ (by decide)
  simp only [decode_ok_iff_hasFields, hasFields_iff_toNat, rowForms, List.mem_cons, List.not_mem_nil, or_false,
    exists_eq_or_imp, exists_eq_left]
  generalize w.toNat / 2 ^ 56 = op, w.toNat / 2 ^ 54 % 4 = wc, w.toNat / 2 ^ 48 % 64 = rsv,
    w.toNat / 2 ^ 32 % 65536 = len, w.toNat % 2 ^ 32 = arg at hwc hlen ⊢
  by_cases hop : op ∈ [0x01, 0x02, 0x03, 0x04, 0x05, 0x10, 0x11, 0x12, 0x20, 0x21, 0x22]
  · simp only [List.mem_cons, List.not_mem_nil, or_false] at hop
    rcases hop with rfl | rfl | rfl | rfl | rfl | rfl | rfl | rfl | rfl | rfl | rfl <;> simp <;> omega
  · simp only [List.mem_cons, List.not_mem_nil, or_false, not_or] at hop
    simp [hop]

/-! ### Illegal words (R306) -/

theorem fieldOp_mem_iff (w : CmdWord) (ops : List (BitVec 8)) :
    fieldOp w ∈ ops ↔ w.toNat / 2 ^ 56 ∈ ops.map BitVec.toNat := by
  rw [← toNat_fieldOp, List.mem_map_of_injective fun _ _ => BitVec.eq_of_toNat_eq]

/-- The three tests of R306, on the fields read by division and remainder. -/
theorem illegalCause_eq (w : CmdWord) : illegalCause w =
    if w.toNat / 2 ^ 56 ∉ [0x01, 0x02, 0x03, 0x04, 0x05, 0x10, 0x11, 0x12, 0x20, 0x21, 0x22] then .unknownOp
    else if w.toNat / 2 ^ 56 ∈ [0x02, 0x03, 0x04, 0x11, 0x12] ∧ w.toNat / 2 ^ 54 % 4 = 3 then .reservedLaneWidth
    else .reservedBitSet := by
  have hassigned : opAssigned (fieldOp w) = true ↔
      w.toNat / 2 ^ 56 ∈ [0x01, 0x02, 0x03, 0x04, 0x05, 0x10, 0x11, 0x12, 0x20, 0x21, 0x22] := by
    rw [opAssigned, decide_eq_true_iff, fieldOp_mem_iff]; rfl
  have hwidth : opTakesWidth (fieldOp w) = true ↔ w.toNat / 2 ^ 56 ∈ [0x02, 0x03, 0x04, 0x11, 0x12] := by
    rw [opTakesWidth, decide_eq_true_iff, fieldOp_mem_iff]; rfl
  have hwc : (fieldWc w == 3#2) = true ↔ w.toNat / 2 ^ 54 % 4 = 3 := by
    rw [beq_iff_eq, ← toNat_fieldWc, ← BitVec.toNat_inj]; rfl
  simp only [illegalCause, Bool.not_eq_true', ← Bool.not_eq_true, Bool.and_eq_true, hassigned, hwidth, hwc]

/-- A step on an illegal word: the exception, and then the completion (60_exceptions.md R710). -/
theorem step_of_illegal {s : State} {w : CmdWord} {c : Cause} {rest : List Request} (hw : decode w = .error c)
    (hinbox : s.inbox = .command w :: rest) (hs : s.resetAfter = none) :
    step s = .next (reply .completed (raiseIllegal c w { s with inbox := rest })) := by
  have htake : ({ s with inbox := rest, resetAfter := none } : State) = { s with inbox := rest } := by rw [← hs]
  simp only [step_of_inbox hinbox, serve, htake, accept, hw, andThen]

/-- Settles O5: the decoder's tests are those of R306, and the step raises the exception. -/
theorem illegalWordHasTheFirstCauseThatHolds : Obligations.IllegalWordHasTheFirstCauseThatHolds := by
  intro w hnone
  have hdecode := decode_of_matchesNone hnone
  exact ⟨hdecode.trans (congrArg _ (illegalCause_eq w)),
    fun s rest hinbox hs => ⟨_, step_of_illegal hdecode hinbox hs⟩⟩

/-! ### The opcode map (R308) -/

/-- The word of a command is its fixed value with the operands at their bits. -/
theorem cmdWord_eq_or (op : BitVec 8) (wc : BitVec 2) (len : BitVec 16) (arg : BitVec 32) :
    cmdWord op wc len arg = cmdWord op wc 0 0 ||| len.setWidth 64 <<< 32 ||| arg.setWidth 64 := by
  refine BitVec.eq_of_getLsbD_eq fun i hi => ?_
  simp only [BitVec.getLsbD_or, cmdWord_getLsbD, BitVec.getLsbD_shiftLeft, BitVec.getLsbD_setWidth]
  by_cases harg : i < 32
  · simp [harg, hi]
  have hnoArg : arg.getLsbD i = false := BitVec.getLsbD_of_ge arg i (by omega)
  by_cases hlen : i < 48
  · have : i - 32 < 64 := by omega
    simp [harg, hlen, hi, hnoArg, this]
  · have hnoLen : len.getLsbD (i - 32) = false := BitVec.getLsbD_of_ge len (i - 32) (by omega)
    simp [harg, hlen, hnoArg, hnoLen]

theorem cmdWord_operands_eq_or (op : BitVec 8) (wc : BitVec 2) (len : BitVec 16) {n : Nat} (hn : n ≤ 32)
    (v : BitVec n) :
    cmdWord op wc len (v.setWidth 32) = cmdWord op wc 0 0 ||| len.setWidth 64 <<< 32 ||| v.setWidth 64 := by
  rw [cmdWord_eq_or, BitVec.setWidth_setWidth (by omega)]

theorem cmdWord_arg_eq_or (op : BitVec 8) (wc : BitVec 2) {n : Nat} (hn : n ≤ 32) (v : BitVec n) :
    cmdWord op wc 0 (v.setWidth 32) = cmdWord op wc 0 0 ||| v.setWidth 64 := by
  rw [cmdWord_operands_eq_or op wc 0 hn]
  simp

theorem cmdWord_len_eq_or (op : BitVec 8) (wc : BitVec 2) (len : BitVec 16) :
    cmdWord op wc len 0 = cmdWord op wc 0 0 ||| len.setWidth 64 <<< 32 := by
  rw [cmdWord_eq_or]
  simp

/-- Settles O6: for each row the fixed value is the row's OP and WC, and the operands are or-ed in at their bits. -/
theorem encodeFollowsTheOpcodeMap : Obligations.EncodeFollowsTheOpcodeMap := by
  refine ⟨?setcs, ?pulseX1, ?pulseX2, ?pulseX4, by decide, ?dummy, ?sendcmd, by decide, ?bulk, by decide, ?loadpage,
    ?qread⟩
  case setcs => decide
  case pulseX1 =>
    exact fun v => ⟨cmdWord_arg_eq_or 0x02 (wcOf .x1) (by decide) v, cmdWord_arg_eq_or 0x04 (wcOf .x1) (by decide) v⟩
  case pulseX2 =>
    exact fun v => ⟨cmdWord_arg_eq_or 0x02 (wcOf .x2) (by decide) v, cmdWord_arg_eq_or 0x04 (wcOf .x2) (by decide) v⟩
  case pulseX4 =>
    exact fun v => ⟨cmdWord_arg_eq_or 0x02 (wcOf .x4) (by decide) v, cmdWord_arg_eq_or 0x04 (wcOf .x4) (by decide) v⟩
  case dummy => exact cmdWord_len_eq_or 0x05 0
  case sendcmd => exact cmdWord_arg_eq_or 0x10 0 (by decide)
  case bulk =>
    exact fun l => ⟨cmdWord_len_eq_or 0x12 (wcOf .x1) l, cmdWord_len_eq_or 0x12 (wcOf .x2) l,
      cmdWord_len_eq_or 0x12 (wcOf .x4) l⟩
  case loadpage => exact cmdWord_arg_eq_or 0x21 0 (by decide)
  case qread => exact fun col l => cmdWord_operands_eq_or 0x22 0 l (by decide) col

/-! ### The assembler (R330) -/

/-- A statement that stands for one command is that command's word, or is refused. -/
theorem assemble_command {cfg : Config} {st : Stmt} {i : Instr} {N : Nat} {fits : Prop} [Decidable fits]
    (hfits : st.wellFormed = true ↔ fits) (hexpand : expand cfg st = [issue i])
    (hword : fits → (encode i).toNat = N) :
    assemble cfg st = if fits then some [.command (BitVec.ofNat 64 N)] else none := by
  unfold assemble
  by_cases h : fits
  · rw [if_pos (hfits.2 h), if_pos h, hexpand, issue, ← hword h, BitVec.ofNat_toNat, BitVec.setWidth_eq]
  · rw [if_neg (mt hfits.1 h), if_neg h]

@[simp] theorem fitsField_iff (w v : Nat) : fitsField w v = true ↔ v < 2 ^ w := by simp [fitsField]

/-- The number of a word whose operands fit their fields. -/
theorem toNat_cmdWord_operands (op : BitVec 8) (wc : BitVec 2) {l n v : Nat} (hl : l < 2 ^ 16) (hn : n ≤ 32)
    (hv : v < 2 ^ n) : (cmdWord op wc (BitVec.ofNat 16 l) ((BitVec.ofNat n v).setWidth 32)).toNat =
      op.toNat * 2 ^ 56 + wc.toNat * 2 ^ 54 + l * 2 ^ 32 + v := by
  have hv32 : v < 2 ^ 32 := hv.trans_le (Nat.pow_le_pow_right (by decide) hn)
  rw [toNat_cmdWord, BitVec.toNat_setWidth, BitVec.toNat_ofNat, BitVec.toNat_ofNat, Nat.mod_eq_of_lt hl,
    Nat.mod_eq_of_lt hv, Nat.mod_eq_of_lt hv32]

theorem toNat_cmdWord_arg (op : BitVec 8) (wc : BitVec 2) {n v : Nat} (hn : n ≤ 32) (hv : v < 2 ^ n) :
    (cmdWord op wc 0 ((BitVec.ofNat n v).setWidth 32)).toNat = op.toNat * 2 ^ 56 + wc.toNat * 2 ^ 54 + v := by
  simpa using toNat_cmdWord_operands op wc (l := 0) (by decide) hn hv

theorem toNat_cmdWord_len (op : BitVec 8) (wc : BitVec 2) {l : Nat} (hl : l < 2 ^ 16) :
    (cmdWord op wc (BitVec.ofNat 16 l) 0).toNat = op.toNat * 2 ^ 56 + wc.toNat * 2 ^ 54 + l * 2 ^ 32 := by
  simpa using toNat_cmdWord_operands op wc hl (n := 0) (v := 0) (by decide) (by decide)

theorem toNat_wcOf (w : LaneWidth) : (wcOf w).toNat = w.lanes / 2 := by cases w <;> rfl

theorem lanes_le (w : LaneWidth) : w.lanes ≤ 32 := by cases w <;> decide

theorem encode_pulsewOf (w : LaneWidth) (v : Nat) :
    encode (pulsewOf w v) = cmdWord 0x02 (wcOf w) 0 ((BitVec.ofNat w.lanes v).setWidth 32) := by cases w <;> rfl

theorem encode_pulsefdOf (w : LaneWidth) (v : Nat) :
    encode (pulsefdOf w v) = cmdWord 0x04 (wcOf w) 0 ((BitVec.ofNat w.lanes v).setWidth 32) := by cases w <;> rfl

/-- Settles O60: a form's command has the number the form's operands give, when they fit their fields. -/
theorem assemblerWritesTheWordOrRefuses : Obligations.AssemblerWritesTheWordOrRefuses := by
  intro cfg
  refine ⟨fun a => ?setcs, fun w v => ?pulsew, fun w => ?pulser, fun w v => ?pulsefd, fun n => ?dummy,
    fun b => ?sendcmd, fun l => ?readbytes, fun l => ?readdualbytes, fun l => ?readquadbytes, fun row => ?loadpage,
    fun col l => ?qread⟩
  case setcs =>
    refine assemble_command (fitsField_iff 1 a) rfl fun h => ?_
    interval_cases a <;> rfl
  case pulsew =>
    refine assemble_command (fitsField_iff w.lanes v) rfl fun h => ?_
    rw [encode_pulsewOf, toNat_cmdWord_arg _ _ (lanes_le w) h, toNat_wcOf]; rfl
  case pulser => cases w <;> rfl
  case pulsefd =>
    refine assemble_command (fitsField_iff w.lanes v) rfl fun h => ?_
    rw [encode_pulsefdOf, toNat_cmdWord_arg _ _ (lanes_le w) h, toNat_wcOf]; rfl
  case dummy => exact assemble_command (fitsField_iff 16 n) rfl (toNat_cmdWord_len 0x05 0)
  case sendcmd => exact assemble_command (fitsField_iff 8 b) rfl (toNat_cmdWord_arg 0x10 0 (n := 8) (by decide))
  case readbytes => exact assemble_command (fitsField_iff 16 l) rfl (toNat_cmdWord_len 0x12 (wcOf .x1))
  case readdualbytes => exact assemble_command (fitsField_iff 16 l) rfl (toNat_cmdWord_len 0x12 (wcOf .x2))
  case readquadbytes => exact assemble_command (fitsField_iff 16 l) rfl (toNat_cmdWord_len 0x12 (wcOf .x4))
  case loadpage => exact assemble_command (fitsField_iff 24 row) rfl (toNat_cmdWord_arg 0x21 0 (n := 24) (by decide))
  case qread =>
    refine assemble_command (by simp [Stmt.wellFormed]) rfl fun ⟨hcol, hl⟩ => ?_
    exact toNat_cmdWord_operands 0x22 0 hl (by decide) hcol

end Sys2Proof
end

section
/-! PROOFS. 30_encoding.md: the pseudo-instructions SENDADDR24, SENDADDR16 (R331) and RAWIDENTIFY (R332). -/

namespace Sys2Proof.Machine

open Sys2Proof

/-! ### SENDADDR24 and SENDADDR16 (30_encoding.md R331; 20_memory.md R221) -/

theorem execAll_sendcmds {s : State} (hs : s.resetAfter = none) (bs : List Byte) :
    execAll (bs.map .sendcmd) s = .next (after s (bs.flatMap (evSend s.cfg.tBit)) 0) := by
  induction bs generalizing s with
  | nil => simp [execAll, after]
  | cons b bs ih => simp [execAll, exec, execSendcmd, sendByte_idle hs, ih, hs]

/-- Bytes sent by commands from an idle clock are on IO0 at the rising edges, most significant bit first. -/
theorem sendcmds_latchAtRises {s : State} (hs : s.resetAfter = none) (hclk : ClockIdle s.lines) (bs : List Byte) :
    ∃ t, execAll (bs.map .sendcmd) s = .next t ∧
      latchAtRises .io0 s.lines (newEvents s t) = bs.flatMap bitsMsbFirst := by
  refine ⟨_, execAll_sendcmds hs bs, ?_⟩
  rw [newEvents_eq (es := bs.flatMap (evSend s.cfg.tBit)) rfl]
  obtain ⟨ls', hlatch⟩ := latchAtRises_evSends hclk s.cfg.tBit bs []
  simpa [latchAtRises] using hlatch

/-- Settles O49: an address is its bytes, the most significant first. -/
theorem sendaddrSendsTheAddressMsbFirst : Obligations.SendaddrSendsTheAddressMsbFirst := by
  intro s hs hclk
  constructor
  · intro a
    obtain ⟨t, hexec, hlatch⟩ := sendcmds_latchAtRises hs hclk [rowByte2 a, rowByte1 a, rowByte0 a]
    exact ⟨t, hexec, (hlatch.trans (by simp [bitsMsbFirst_row]) : _ = bitsMsbFirst a)⟩
  · intro c
    obtain ⟨t, hexec, hlatch⟩ := sendcmds_latchAtRises hs hclk [colByte1 c, colByte0 c]
    exact ⟨t, hexec, (hlatch.trans (by simp [bitsMsbFirst_col]) : _ = bitsMsbFirst c)⟩

/-! ### RAWIDENTIFY (R332): no sequence of IDENTIFY reads RESULT -/

/-- The same state with another RESULT. -/
def State.withResult (s : State) (v : Half) : State := { s with result := v }

section Blind

variable (s : State) (v : Half)

@[simp] theorem withResult_cfg : (s.withResult v).cfg = s.cfg := rfl
@[simp] theorem withResult_resetAfter : (s.withResult v).resetAfter = s.resetAfter := rfl
@[simp] theorem presented_withResult (S : List Line) : presented S (s.withResult v) = presented S s := rfl

theorem act_withResult {f : State → State} (hf : ∀ s, f (s.withResult v) = (f s).withResult v) :
    act f (s.withResult v) = (act f s).withResult v := by
  unfold act
  rw [withResult_resetAfter]
  split
  · exact hf s
  · rfl
  · next k _ => exact hf { s with resetAfter := some k }

@[simp] theorem setDir_withResult (S : List Line) (m : Mode) :
    setDir S m (s.withResult v) = (setDir S m s).withResult v := act_withResult s v fun _ => rfl

@[simp] theorem drive_withResult (b : LineBits) : drive b (s.withResult v) = (drive b s).withResult v :=
  act_withResult s v fun _ => rfl

@[simp] theorem delay_withResult (t : Nat) : delay t (s.withResult v) = (delay t s).withResult v :=
  act_withResult s v fun _ => rfl

@[simp] theorem sampleAction_withResult (S : List Line) :
    sampleAction S (s.withResult v) = (sampleAction S s).withResult v := act_withResult s v fun _ => rfl

@[simp] theorem chipSelect_withResult (a : Bool) : chipSelect a (s.withResult v) = (chipSelect a s).withResult v := by
  simp [chipSelect]

@[simp] theorem clockPulse_withResult : clockPulse (s.withResult v) = (clockPulse s).withResult v := by
  simp [clockPulse]

@[simp] theorem pulseRead_withResult (w : LaneWidth) :
    pulseRead w (s.withResult v) = ((pulseRead w s).1, (pulseRead w s).2.withResult v) := by
  simp [pulseRead, sample]

@[simp] theorem rxBits_withResult (k : Nat) (r : Byte) :
    rxBits k r (s.withResult v) = ((rxBits k r s).1, (rxBits k r s).2.withResult v) := by
  induction k generalizing s r with
  | zero => rfl
  | succ k ih => simp [rxBits, ih]

@[simp] theorem rxByte1_withResult : rxByte1 (s.withResult v) = ((rxByte1 s).1, (rxByte1 s).2.withResult v) :=
  rxBits_withResult s v 8 0

end Blind

theorem byteResult_eq_withResult {r : Byte × State} (h : r.2.resetAfter = none) :
    byteResult r = r.2.withResult (r.1.setWidth 16) := writeResult_idle h _

/-- What an earlier command left in RESULT is written over. -/
theorem byteResult_of_withResult {r : Byte × State} (h : r.2.resetAfter = none) (v : Half) :
    byteResult (r.1, r.2.withResult v) = r.2.withResult (r.1.setWidth 16) :=
  writeResult_idle (s := r.2.withResult v) h _

/-- The second byte received is the low byte of the identifier. -/
theorem joinBytes_low (b₀ b₁ : Byte) : joinBytes b₀ b₁ &&& 0x00FF = b₁.setWidth 16 := by
  have happend : joinBytes b₀ b₁ &&& 0x00FF = (b₀ ++ b₁) &&& (0#8 ++ BitVec.allOnes 8) := rfl
  rw [happend, BitVec.and_append, BitVec.and_zero, BitVec.and_allOnes, BitVec.setWidth_eq_append (by decide)]
  rfl

/-- The six commands run the frame of IDENTIFY, with the two READBYTEs' writes of RESULT in between. -/
theorem execAll_rawIdentify (s : State) : execAll rawIdentify s = .next (chipSelect false (byteResult (rxByte1
    (byteResult (rxByte1 (dummy 8 (sendByte opReadId (chipSelect true s)))))))) := by
  simp only [rawIdentify, execAll, exec, execSetcs, execSendcmd, execDummy, execReadbyte]
  rfl

/-- IDENTIFY and RAWIDENTIFY leave one state but for RESULT. -/
theorem rawIdentify_eq_identify {s : State} (hs : s.resetAfter = none) : ∃ (u : State) (b₀ b₁ : Byte),
    exec .identify s = .next (u.withResult (joinBytes b₀ b₁)) ∧
    execAll rawIdentify s = .next (u.withResult (b₁.setWidth 16)) := by
  rw [execAll_rawIdentify, exec, execIdentify, identifyFrame]
  have h₀ : (dummy 8 (sendByte opReadId (chipSelect true s))).resetAfter = none := by
    simp [chipSelect_idle, sendByte_idle, dummy_idle, hs]
  generalize dummy 8 (sendByte opReadId (chipSelect true s)) = s₀ at h₀ ⊢
  have h₁ : (rxByte1 s₀).2.resetAfter = none := (rxByte1_moves s₀).pending.2 h₀
  have h₂ : (rxByte1 (rxByte1 s₀).2).2.resetAfter = none := (rxByte1_moves _).pending.2 h₁
  have h₃ : (chipSelect false (rxByte1 (rxByte1 s₀).2).2).resetAfter = none := (chipSelect_moves false _).pending.2 h₂
  refine ⟨chipSelect false (rxByte1 (rxByte1 s₀).2).2, (rxByte1 s₀).1, (rxByte1 (rxByte1 s₀).2).1, ?_, ?_⟩
  · simp only [identifyResult, writeResult_idle h₃, State.withResult]
  · rw [byteResult_eq_withResult h₁, rxByte1_withResult, byteResult_of_withResult h₂, chipSelect_withResult]

/-- Settles O48: the two leave one state but for RESULT, where RAWIDENTIFY leaves the second byte. -/
theorem rawIdentifyHasTheTraceOfIdentify : Obligations.RawIdentifyHasTheTraceOfIdentify := by
  intro s hs
  obtain ⟨u, b₀, b₁, hidentify, hraw⟩ := rawIdentify_eq_identify hs
  exact ⟨_, _, hraw, hidentify, rfl, rfl, (joinBytes_low b₀ b₁).symm⟩

end Sys2Proof.Machine
end

section
/-! PROOFS. 40_line_driver.md: SETCS (R400 to R402, R410); and the command words the spec writes out (40 to 43). -/

namespace Sys2Proof

/-! ### Words the spec writes out -/

theorem decode_of_encode_eq {i : Instr} {w : CmdWord} (h : encode i = w) : decode w = .ok i :=
  h ▸ decodeOfEncodeIsTheCommand i

theorem decode_of_illegalCause_eq {w : CmdWord} {c : Cause} (hnone : ∀ r ∈ opcodeTable, w &&& r.mask ≠ r.fixed)
    (hcause : illegalCause w = c) : decode w = .error c :=
  hcause ▸ decode_of_matchesNone hnone

/-- Settles O7: a legal word is the word of its command; an illegal one matches no row and has the cause named. -/
theorem exampleWordsDecode : Obligations.ExampleWordsDecode := by
  refine ⟨?setcs, ?pulsew, ?dummy, ?readbytes, ?loadpage, ?qread, ?reservedLaneWidth, ?reservedBitSet, ?unknownOp⟩
  case setcs | pulsew | dummy | readbytes | loadpage | qread => exact decode_of_encode_eq (by decide)
  case reservedLaneWidth | reservedBitSet | unknownOp => exact decode_of_illegalCause_eq (by decide) (by decide)

end Sys2Proof

namespace Sys2Proof.Machine

open Sys2Proof

/-! ### SETCS (40_line_driver.md R400, R401, R410) -/

theorem exec_setcs_idle {s : State} (hs : s.resetAfter = none) (a : Bool) :
    exec (.setcs a) s = .next (after s (evChipSelect a) 0) := by
  rw [exec, execSetcs, chipSelect_idle hs]

/-- Settles O27: SETCS appends the events of `chipSelect` and moves the lines as they say. -/
theorem setcsDrivesClockLowAndChipSelect : Obligations.SetcsDrivesClockLowAndChipSelect := by
  intro a s hs
  rw [exec_setcs_idle hs, after, replay_evChipSelect]
  rfl

/-! ### A second SETCS (R402) -/

/-- An edge changes a latch (10_state.md R122). -/
theorem eventLines_ne_of_isEdge {l : Line} {b : Bool} {ls : Lines} {e : Event} (h : isEdge l b ls e = true) :
    eventLines ls e ≠ ls := by
  obtain ⟨rfl, hlat, -⟩ := of_decide_eq_true h
  intro hlines
  have hdriven : ((eventLines ls (.drv [(l, b)])).get l).lat = b := by cases l <;> rfl
  exact hlat (hlines ▸ hdriven)

/-- Events that leave the lines as they are hold no edge. -/
theorem countEdges_eq_zero {ls : Lines} {es : List Event} (h : ∀ e ∈ es, eventLines ls e = ls) (l : Line) (b : Bool) :
    countEdges l b ls es = 0 := by
  induction es with
  | nil => rfl
  | cons e es ih =>
    obtain ⟨he, hes⟩ := List.forall_mem_cons.1 h
    have hedge : ¬ isEdge l b ls e = true := fun hedge => eventLines_ne_of_isEdge hedge he
    rw [countEdges, if_neg hedge, he, ih hes]

/-- Once `chipSelect(a)` has been performed, none of its events moves a line. -/
theorem eventLines_evChipSelect_again (ls : Lines) (a : Bool) :
    ∀ e ∈ evChipSelect a, eventLines (replay ls (evChipSelect a)) e = replay ls (evChipSelect a) := by
  simp [evChipSelect]

/-- Settles O28: the second SETCS repeats the three events of the first, and none of them moves a line again. -/
theorem setcsTwiceIsIdempotentOnLines : Obligations.SetcsTwiceIsIdempotentOnLines := by
  intro a s hs
  refine ⟨_, _, exec_setcs_idle hs a, exec_setcs_idle (by exact hs) a, replay_evChipSelect s.lines a, rfl, ?_, ?_⟩
  · simp [evChipSelect]
  · intro l b
    rw [newEvents_eq (es := evChipSelect a) rfl]
    exact countEdges_eq_zero (eventLines_evChipSelect_again s.lines a) l b

end Sys2Proof.Machine
end

section
/-! PROOFS. 41_bitbang_engine.md: the pulse commands PULSEW, PULSER, PULSEFD and DUMMY (R450 to R453, R460 to R491). -/

namespace Sys2Proof.Machine

open Sys2Proof

/-! ### Pulse values and the values of samples (41_bitbang_engine.md R452) -/

theorem laneMap_x1_setWidth (v : BitVec 1) : laneMap .x1 (v.setWidth 4) = [(.io0, v.getLsbD 0)] := by
  simp [laneMap]

theorem laneMap_x2_setWidth (v : BitVec 2) :
    laneMap .x2 (v.setWidth 4) = [(.io0, v.getLsbD 0), (.io1, v.getLsbD 1)] := by
  simp [laneMap]

theorem received_x1 (lv : Levels) : received .x1 [lv] = lv.io1.toNat := by
  simp [received, sampledBits, ofBitsMsbFirst]

theorem received_x2 (lv : Levels) : received .x2 [lv] = 2 * lv.io1.toNat + lv.io0.toNat := by
  simp [received, sampledBits, ofBitsMsbFirst]

theorem received_x4 (lv : Levels) :
    received .x4 [lv] = 8 * lv.io3.toNat + 4 * lv.io2.toNat + 2 * lv.io1.toNat + lv.io0.toNat := by
  simp only [received, sampledBits, ofBitsMsbFirst, List.flatMap_singleton, List.foldl_cons, List.foldl_nil]
  omega

/-- The result of a pulse is the number its sample spells (41_bitbang_engine.md R471, R481). -/
theorem pulseResult_idle {s : State} (hs : s.resetAfter = none) (w : LaneWidth) (lv : Levels) :
    pulseResult (unmap w lv, s) = { s with result := BitVec.ofNat 16 (received w [lv]) } := by
  rw [pulseResult, writeResult_idle hs, ← unmap_received, BitVec.ofNat_toNat]

/-! ### The commands -/

/-- Settles O32: DUMMY appends the events of `dummy(N)`, and the clock's latch moves only if there is a pulse. -/
theorem dummyReleasesThenClocks : Obligations.DummyReleasesThenClocks := by
  intro n s hs
  have hzero : n.toNat = 0 ↔ n = 0 := BitVec.toNat_eq (y := 0) |>.symm
  rw [exec, execDummy, dummy_idle hs, after, replay_evDummy]
  simp only [hzero]
  rfl

/-- Settles O29: at each width PULSEW appends the events of one write pulse, and the lines follow them. -/
theorem pulsewWritesOnePulse : Obligations.PulsewWritesOnePulse := by
  intro s hs
  refine ⟨fun v => ?x1, fun v => ?x2, fun v => ?x4⟩
  case x1 => rw [exec, execPulsewX1, pulseWrite_idle hs, evWrite, laneMap_x1_setWidth]; rfl
  case x2 => rw [exec, execPulsewX2, pulseWrite_idle hs, evWrite, laneMap_x2_setWidth]; rfl
  case x4 => rw [exec, execPulsewX4, pulseWrite_idle hs]; rfl

/-- Settles O30: at each width PULSER appends the events of one read pulse, whose sample is the value in RESULT. -/
theorem pulserSamplesThenClocks : Obligations.PulserSamplesThenClocks := by
  intro s hs
  refine ⟨?x1, ?x2, ?x4⟩
  case x1 =>
    obtain ⟨lv, hlv, hread⟩ := pulseRead_idle hs .x1
    exact ⟨lv, hlv, by rw [exec, execPulserX1, hread, pulseResult_idle (by exact hs), received_x1]; rfl⟩
  case x2 =>
    obtain ⟨lv, hlv, hread⟩ := pulseRead_idle hs .x2
    exact ⟨lv, hlv, by rw [exec, execPulserX2, hread, pulseResult_idle (by exact hs), received_x2]; rfl⟩
  case x4 =>
    obtain ⟨lv, hlv, hread⟩ := pulseRead_idle hs .x4
    exact ⟨lv, hlv, by rw [exec, execPulserX4, hread, pulseResult_idle (by exact hs), received_x4]; rfl⟩

/-- Settles O31: at each width PULSEFD appends the eight events of a full-duplex pulse, whose sample is the value in
RESULT. -/
theorem pulsefdDrivesReleasesThenSamples : Obligations.PulsefdDrivesReleasesThenSamples := by
  intro s hs
  refine ⟨fun v => ?x1, fun v => ?x2, fun v => ?x4⟩
  case x1 =>
    obtain ⟨lv, hlv, hduplex⟩ := pulseFullDuplex_idle hs .x1 (v.setWidth 4)
    exact ⟨lv, hlv, by rw [exec, execPulsefdX1, hduplex, pulseResult_idle (by exact hs), received_x1,
      evDuplex, laneMap_x1_setWidth]; rfl⟩
  case x2 =>
    obtain ⟨lv, hlv, hduplex⟩ := pulseFullDuplex_idle hs .x2 (v.setWidth 4)
    exact ⟨lv, hlv, by rw [exec, execPulsefdX2, hduplex, pulseResult_idle (by exact hs), received_x2,
      evDuplex, laneMap_x2_setWidth]; rfl⟩
  case x4 =>
    obtain ⟨lv, hlv, hduplex⟩ := pulseFullDuplex_idle hs .x4 v
    exact ⟨lv, hlv, by rw [exec, execPulsefdX4, hduplex, pulseResult_idle (by exact hs), received_x4]; rfl⟩

end Sys2Proof.Machine
end

section
/-! PROOFS. 42_lane_transfer.md: SENDCMD (R500, R510), the byte reads (R501 to R503, R520 to R522) and the bulk reads
(R505, R540 to R542). -/

namespace Sys2Proof.Machine

open Sys2Proof

/-! ### SENDCMD (42_lane_transfer.md R500, R510) -/

theorem exec_sendcmd_idle {s : State} (hs : s.resetAfter = none) (b : Byte) :
    exec (.sendcmd b) s = .next (after s (evSend s.cfg.tBit b) 0) := by
  rw [exec, execSendcmd, sendByte_idle hs]

/-- A write pulse of one bit, event by event (41_bitbang_engine.md R460). -/
theorem evWrite_x1_bit (T : Nat) (b : Bool) : evWrite T .x1 (nibble false false false b) =
    [.dir [.io0] .out, .drv [(.io0, b)], .drv [(.clk, true)], .wait T, .drv [(.clk, false)], .wait T] := by
  simp [evWrite, evClock, writeSet, laneMap]

/-- Settles O33: SENDCMD appends the events of `sendByte`, and the last pulse leaves IO0 and the clock as it ends. -/
theorem sendcmdWritesEightPulses : Obligations.SendcmdWritesEightPulses := by
  intro b s hs
  rw [exec_sendcmd_idle hs, after, replay_evSend, evSend]
  simp only [evWrite_x1_bit]
  rfl

/-- Settles O34: the new events are those of `sendByte`, whose latches at the rising edges are the byte's bits. -/
theorem sendcmdReproducesTheByteMsbFirst : Obligations.SendcmdReproducesTheByteMsbFirst := by
  intro b s hs hclk
  refine ⟨_, exec_sendcmd_idle hs b, ?_⟩
  rw [newEvents_eq (es := evSend s.cfg.tBit b) rfl, latchAtRises_evSend hclk]
  rfl

/-! ### The lines after read pulses (41_bitbang_engine.md R470) -/

/-- What a read pulse does to the lines: it makes the lines of the width inputs and leaves the clock's latch low. -/
def linesAfterRead (w : LaneWidth) (ls : Lines) : Lines := (ls.setModes (readSet w) .inp).setLats [(.clk, false)]

theorem replay_evRead (ls : Lines) (T : Nat) (w : LaneWidth) (lv : Levels) :
    replay ls (evRead T w lv) = linesAfterRead w ls := rfl

theorem replay_evReads_of_ne_nil (ls : Lines) (T : Nat) (w : LaneWidth) {lvs : List Levels} (h : lvs ≠ []) :
    replay ls (evReads T w lvs) = linesAfterRead w ls := by
  rw [replay_evReads ls T w lvs (lvs.head h), if_neg h, replay_evRead]

theorem pulsesPerByte_pos (w : LaneWidth) : 0 < pulsesPerByte w := by cases w <;> decide

/-- The read pulses of `n` bytes: no byte, no pulse. -/
theorem replay_evReads_bytes (ls : Lines) (T : Nat) (w : LaneWidth) {n : Nat} {lvs : List Levels}
    (h : lvs.length = pulsesPerByte w * n) :
    replay ls (evReads T w lvs) = if n = 0 then ls else linesAfterRead w ls := by
  split
  · next hn =>
    have hnil : lvs = [] := List.eq_nil_of_length_eq_zero (by rw [h, hn, Nat.mul_zero])
    rw [hnil, evReads_nil, replay_nil]
  · next hn =>
    have hpos : 0 < lvs.length := h ▸ Nat.mul_pos (pulsesPerByte_pos w) (Nat.pos_of_ne_zero hn)
    exact replay_evReads_of_ne_nil ls T w (List.ne_nil_of_length_pos hpos)

/-! ### Byte reads (42_lane_transfer.md R501 to R503, R520 to R522) -/

/-- A received byte in RESULT is the number its samples spell. -/
theorem setWidth_received (w : LaneWidth) {lvs : List Levels} (h : lvs.length = pulsesPerByte w) :
    (BitVec.ofNat 8 (received w lvs)).setWidth 16 = BitVec.ofNat 16 (received w lvs) :=
  BitVec.setWidth_ofNat_of_le_of_lt (by decide) (received_lt w h)

/-- A byte read at any width: its samples, and the state it leaves. -/
theorem byteResult_rxByte_idle {s : State} (hs : s.resetAfter = none) (w : LaneWidth) :
    ∃ lvs, mayPresent s (pulsesPerByte w) lvs ∧ byteResult (rxByte w s) = { s with
      lines := linesAfterRead w s.lines
      result := BitVec.ofNat 16 (received w lvs)
      answers := s.answers.drop (pulsesPerByte w)
      trace := s.trace ++ evReads s.cfg.tBit w lvs } := by
  obtain ⟨lvs, hlvs, hread⟩ := rxByte_idle hs w
  have hne : lvs ≠ [] := List.ne_nil_of_length_pos (hlvs.1 ▸ pulsesPerByte_pos w)
  refine ⟨lvs, hlvs, ?_⟩
  rw [hread, byteResult, writeResult_idle (by exact hs), setWidth_received w hlvs.1, after,
    replay_evReads_of_ne_nil _ _ _ hne]

/-- Settles O35: READBYTE is the byte read at x1. -/
theorem readbyteReceivesEightBitsMsbFirst : Obligations.ReadbyteReceivesEightBitsMsbFirst := by
  intro s hs
  obtain ⟨lvs, hlvs, hread⟩ := byteResult_rxByte_idle hs .x1
  exact ⟨lvs, hlvs, congrArg Host.Outcome.next hread⟩

/-- Settles O36: READDUALBYTE is the byte read at x2. -/
theorem readdualbyteReceivesFourPairsMsbFirst : Obligations.ReaddualbyteReceivesFourPairsMsbFirst := by
  intro s hs
  obtain ⟨lvs, hlvs, hread⟩ := byteResult_rxByte_idle hs .x2
  exact ⟨lvs, hlvs, congrArg Host.Outcome.next hread⟩

/-- Two quad-lane samples: the first is the high nibble. -/
theorem received_x4_pair (hi lo : Levels) : received .x4 [hi, lo] = 16 * received .x4 [hi] + received .x4 [lo] := by
  simp only [received, sampledBits, ofBitsMsbFirst, List.flatMap_cons, List.flatMap_nil, List.cons_append,
    List.nil_append, List.foldl_cons, List.foldl_nil]
  omega

theorem evReads_pair (T : Nat) (w : LaneWidth) (a b : Levels) :
    evReads T w [a, b] = evRead T w a ++ evRead T w b := by
  simp [evReads_cons, evReads_nil]

/-- Settles O37: READQUADBYTE is the byte read at x4, which takes two samples. -/
theorem readquadbyteReceivesHighNibbleFirst : Obligations.ReadquadbyteReceivesHighNibbleFirst := by
  intro s hs
  obtain ⟨lvs, hlvs, hread⟩ := byteResult_rxByte_idle hs .x4
  obtain ⟨hi, lo, rfl⟩ := List.length_eq_two.1 hlvs.1
  rw [received_x4_pair, evReads_pair, ← List.append_assoc] at hread
  exact ⟨hi, lo, hlvs, congrArg Host.Outcome.next hread⟩

/-! ### Bulk reads (42_lane_transfer.md R505, R540 to R542) -/

/-- A bulk read at any width: its samples, the state it leaves, and every byte of the buffer. -/
theorem bulkCount_rxBulk_idle {s : State} (hs : s.resetAfter = none) (w : LaneWidth) (l : BitVec 16) :
    ∃ lvs m, mayPresent s (pulsesPerByte w * clampLen l s.cfg) lvs ∧
      bulkCount (rxBulk w l s) = { s with
        lines := if clampLen l s.cfg = 0 then s.lines else linesAfterRead w s.lines
        count := BitVec.ofNat 16 (clampLen l s.cfg)
        buf := m
        answers := s.answers.drop (pulsesPerByte w * clampLen l s.cfg)
        trace := s.trace ++ evReads s.cfg.tBit w lvs } ∧
      ∀ j, Memory.read m j = if j < clampLen l s.cfg
        then some (BitVec.ofNat 8 (received w ((lvs.drop (pulsesPerByte w * j)).take (pulsesPerByte w))))
        else s.buf.read j := by
  obtain ⟨lvs, m, hlvs, hread, hbuf⟩ := rxInto_idle hs w (clampLen l s.cfg) 0
  rw [Nat.mul_comm] at hlvs hread
  refine ⟨lvs, m, hlvs, ?_, fun j => ?_⟩
  · rw [bulkCount, rxBulk, hread, writeCount_idle (by exact hs), afterWith, after, replay_evReads_bytes _ _ _ hlvs.1]
  · simpa [byteSamples, Nat.mul_comm j] using hbuf j

/-- Settles O38: READBYTES is the bulk read at x1. -/
theorem readbytesFillsTheBufferFromZero : Obligations.ReadbytesFillsTheBufferFromZero := by
  intro l s hs
  obtain ⟨lvs, m, hlvs, hread, hbuf⟩ := bulkCount_rxBulk_idle hs .x1 l
  exact ⟨lvs, m, hlvs, congrArg Host.Outcome.next hread, hbuf⟩

/-- Settles O39: READDUALBYTES is the bulk read at x2. -/
theorem readdualbytesFillsTheBufferFromZero : Obligations.ReaddualbytesFillsTheBufferFromZero := by
  intro l s hs
  obtain ⟨lvs, m, hlvs, hread, hbuf⟩ := bulkCount_rxBulk_idle hs .x2 l
  exact ⟨lvs, m, hlvs, congrArg Host.Outcome.next hread, hbuf⟩

/-- Settles O40: READQUADBYTES is the bulk read at x4. -/
theorem readquadbytesFillsTheBufferFromZero : Obligations.ReadquadbytesFillsTheBufferFromZero := by
  intro l s hs
  obtain ⟨lvs, m, hlvs, hread, hbuf⟩ := bulkCount_rxBulk_idle hs .x4 l
  exact ⟨lvs, m, hlvs, congrArg Host.Outcome.next hread, hbuf⟩

end Sys2Proof.Machine
end

section
/-! PROOFS. 43_nand_protocol.md: the three frames (R600, R601, R610, R611, R620, R621), their two events on CS (R602)
and the bus they leave (R630); the device's answers steer nothing (R632); the chunks of a full-page read (R640). -/

namespace Sys2Proof.Machine

open Sys2Proof

/-! ### The commands of the frames (43_nand_protocol.md R601, R611, R621) -/

/-- The lines after the Identify frame, which takes at least one sample. -/
theorem replay_evIdentify (ls : Lines) (T : Nat) {lvs : List Levels} (h : lvs ≠ []) :
    replay ls (evIdentify T lvs) =
      { clk := ⟨.out, false⟩, cs := ⟨.out, true⟩, io0 := ⟨.inPu, true⟩, io1 := { ls.io1 with mode := .inp },
        io2 := { ls.io2 with mode := .inPu }, io3 := { ls.io3 with mode := .inPu } } := by
  simp only [evIdentify, replay_append, replay_evChipSelect, replay_evSend, replay_evDummy,
    replay_evReads_of_ne_nil _ T .x1 h]
  rfl

/-- Settles O42: the frame's events and its number, which is written to RESULT. -/
theorem identifyReturnsSixteenBitsMsbFirst : Obligations.IdentifyReturnsSixteenBitsMsbFirst := by
  intro s hs
  obtain ⟨lvs, hlvs, hframe⟩ := identifyFrame_idle hs
  have hne : lvs ≠ [] := List.ne_nil_of_length_pos (by rw [hlvs.1]; decide)
  refine ⟨lvs, hlvs, ?_⟩
  rw [exec, execIdentify, hframe, identifyResult, writeResult_idle (by exact hs), after, replay_evIdentify _ _ hne]

/-- The last byte sent is the low one of the row, and its last bit is the row's. -/
theorem replay_evLoad (ls : Lines) (T Tload : Nat) (row : BitVec 24) :
    replay ls (evLoad T Tload row) =
      { ls with clk := ⟨.out, false⟩, cs := ⟨.out, true⟩, io0 := ⟨.out, row.getLsbD 0⟩ } := by
  simp [evLoad, replay_evChipSelect, replay_evSend]

/-- Settles O43: the frame's events and the lines they leave. -/
theorem loadpageSendsTheRowThenWaits : Obligations.LoadpageSendsTheRowThenWaits := by
  intro row s hs
  rw [exec, execLoadpage, loadFrame_idle hs, after, replay_evLoad]
  rfl

/-- The data lines after the Quad Burst Read frame are inputs if it has read a byte, and still pulled up if not. -/
theorem replay_evQuadRead (ls : Lines) (T : Nat) (col : BitVec 16) {n : Nat} {lvs : List Levels}
    (h : lvs.length = 2 * n) :
    replay ls (evQuadRead T col lvs) =
      { clk := ⟨.out, false⟩, cs := ⟨.out, true⟩, io0 := ⟨if n = 0 then .inPu else .inp, col.getLsbD 0⟩,
        io1 := { ls.io1 with mode := if n = 0 then .inPu else .inp },
        io2 := { ls.io2 with mode := if n = 0 then .inPu else .inp },
        io3 := { ls.io3 with mode := if n = 0 then .inPu else .inp } } := by
  simp only [evQuadRead, replay_append, replay_evChipSelect, replay_evSend, replay_evDummy,
    replay_evReads_bytes _ T .x4 (n := n) h]
  split <;> simp [linesAfterRead, readSet]

/-- Settles O44: the frame's events, the bytes it stores and its count, which is written to COUNT. -/
theorem qreadFillsTheBufferFromZero : Obligations.QreadFillsTheBufferFromZero := by
  intro col l s hs
  obtain ⟨lvs, m, hlvs, hframe, hbuf⟩ := quadReadFrame_idle hs col l
  rw [Nat.mul_comm] at hlvs hframe
  refine ⟨lvs, m, hlvs, ?_, fun j => ?_⟩
  · rw [exec, execQread, hframe, bulkCount, writeCount_idle (by exact hs), afterWith, after,
      replay_evQuadRead _ _ _ hlvs.1]
    rfl
  · have hj := hbuf j
    rwa [byteSamples, pulsesPerByte, Nat.mul_comm j] at hj

/-- Settles O46: the lines after each of the three frames are known. -/
theorem framesLeaveTheBusIdle : Obligations.FramesLeaveTheBusIdle := by
  rintro i s hs (rfl | ⟨row, rfl⟩ | ⟨col, l, rfl⟩)
  · obtain ⟨lvs, -, hexec⟩ := identifyReturnsSixteenBitsMsbFirst s hs
    exact ⟨_, hexec, rfl, rfl⟩
  · exact ⟨_, loadpageSendsTheRowThenWaits row s hs, rfl, rfl⟩
  · obtain ⟨lvs, m, -, hexec, -⟩ := qreadFillsTheBufferFromZero col l s hs
    exact ⟨_, hexec, rfl, rfl⟩

/-! ### The events of a frame on CS (R602) -/

/-- No event drives CS alone, as `chipSelect` does, and none moves it in another way. -/
def QuietOnCs (es : List Event) : Prop :=
  ∀ e ∈ es, (∀ b, e ≠ .drv [(.cs, b)]) ∧ ∀ ls, (eventLines ls e).cs = ls.cs

theorem QuietOnCs.append {es fs : List Event} (h : QuietOnCs es) (k : QuietOnCs fs) : QuietOnCs (es ++ fs) :=
  List.forall_mem_append.2 ⟨h, k⟩

theorem quietOnCs_flatMap {α : Type} {f : α → List Event} (h : ∀ a, QuietOnCs (f a)) (as : List α) :
    QuietOnCs (as.flatMap f) := by
  intro e he
  obtain ⟨a, -, hea⟩ := List.mem_flatMap.1 he
  exact h a e hea

theorem quietOnCs_wait (t : Nat) : QuietOnCs [.wait t] := by simp [QuietOnCs]

theorem quietOnCs_evClock (T : Nat) : QuietOnCs (evClock T) := by simp [QuietOnCs, evClock]

theorem quietOnCs_evSend (T : Nat) (b : Byte) : QuietOnCs (evSend T b) := by
  refine quietOnCs_flatMap (fun k => QuietOnCs.append ?_ (quietOnCs_evClock T)) _
  simp [QuietOnCs, writeSet, laneMap]

theorem quietOnCs_evDummy (T n : Nat) : QuietOnCs (evDummy T n) := by
  have hdir : QuietOnCs [.dir Line.data .inPu] := by simp [QuietOnCs, Line.data]
  refine hdir.append fun e he => ?_
  obtain ⟨es, hes, hmem⟩ := List.mem_flatten.1 he
  rw [List.eq_of_mem_replicate hes] at hmem
  exact quietOnCs_evClock T e hmem

theorem quietOnCs_evReads (T : Nat) (w : LaneWidth) (lvs : List Levels) : QuietOnCs (evReads T w lvs) := by
  refine quietOnCs_flatMap (fun lv => QuietOnCs.append ?_ (quietOnCs_evClock T)) lvs
  cases w <;> simp [QuietOnCs, readSet]

/-- The event drives CS, as R602 counts. -/
def drivesCs (e : Event) : Bool := decide (e = .drv [(.cs, false)] ∨ e = .drv [(.cs, true)])

theorem QuietOnCs.filter_drivesCs {es : List Event} (h : QuietOnCs es) : es.filter drivesCs = [] := by
  refine List.filter_eq_nil_iff.2 fun e he => ?_
  obtain ⟨hdrv, -⟩ := h e he
  simp [drivesCs, hdrv]

theorem QuietOnCs.replay_cs {es : List Event} (h : QuietOnCs es) (ls : Lines) : (replay ls es).cs = ls.cs := by
  induction es generalizing ls with
  | nil => rfl
  | cons e es ih =>
    obtain ⟨⟨-, hline⟩, hes⟩ := List.forall_mem_cons.1 h
    rw [replay_cons, ih hes, hline]

theorem QuietOnCs.countEdges_cs {es : List Event} (h : QuietOnCs es) (b : Bool) (ls : Lines) :
    countEdges .cs b ls es = 0 := by
  induction es generalizing ls with
  | nil => rfl
  | cons e es ih =>
    obtain ⟨⟨hdrv, -⟩, hes⟩ := List.forall_mem_cons.1 h
    simp [countEdges, isEdge, hdrv, ih hes]

theorem filter_drivesCs_evChipSelect (a : Bool) : (evChipSelect a).filter drivesCs = [.drv [(.cs, !a)]] := by
  cases a <;> decide

/-- `chipSelect(a)` is an edge of CS when the latch was the other level (10_state.md R122). -/
theorem countEdges_cs_evChipSelect (a b : Bool) (ls : Lines) :
    countEdges .cs b ls (evChipSelect a) = if b = !a ∧ ls.cs.lat = a then 1 else 0 := by
  cases a <;> cases b <;> simp [countEdges, isEdge, evChipSelect]

/-- The events begin with `chipSelect(1)` and have one `chipSelect(0)`; between them and after, CS is left alone. -/
def IsFrame (es : List Event) : Prop :=
  ∃ mid tail, es = evChipSelect true ++ mid ++ evChipSelect false ++ tail ∧ QuietOnCs mid ∧ QuietOnCs tail

theorem isFrame_evIdentify (T : Nat) (lvs : List Levels) : IsFrame (evIdentify T lvs) :=
  ⟨evSend T 0x9F ++ evDummy T 8 ++ evReads T .x1 lvs, [], by simp [evIdentify],
    ((quietOnCs_evSend T _).append (quietOnCs_evDummy T 8)).append (quietOnCs_evReads T .x1 lvs), by simp [QuietOnCs]⟩

theorem isFrame_evLoad (T Tload : Nat) (row : BitVec 24) : IsFrame (evLoad T Tload row) :=
  ⟨_, [.wait Tload], by rw [evLoad_eq, ← List.append_assoc, ← List.append_assoc],
    quietOnCs_flatMap (quietOnCs_evSend T) _, quietOnCs_wait Tload⟩

theorem isFrame_evQuadRead (T : Nat) (col : BitVec 16) (lvs : List Levels) : IsFrame (evQuadRead T col lvs) :=
  ⟨[opFastReadQuad, colByte1 col, colByte0 col].flatMap (evSend T) ++ (evDummy T 8 ++ evReads T .x4 lvs), [],
    by simp [evQuadRead_eq],
    (quietOnCs_flatMap (quietOnCs_evSend T) _).append ((quietOnCs_evDummy T 8).append (quietOnCs_evReads T .x4 lvs)),
    by simp [QuietOnCs]⟩

theorem IsFrame.filter_drivesCs {es : List Event} (h : IsFrame es) :
    es.filter drivesCs = [.drv [(.cs, false)], .drv [(.cs, true)]] := by
  obtain ⟨mid, tail, rfl, hmid, htail⟩ := h
  simp [hmid.filter_drivesCs, htail.filter_drivesCs, filter_drivesCs_evChipSelect]

/-- The edges of CS along a frame: its first `chipSelect` asserts CS if it was not, and its last one deasserts it. -/
theorem IsFrame.countEdges_cs {es : List Event} (h : IsFrame es) (b : Bool) (ls : Lines) :
    countEdges .cs b ls es = if b then 1 else if ls.cs.lat then 1 else 0 := by
  obtain ⟨mid, tail, rfl, hmid, htail⟩ := h
  simp only [countEdges_append, countEdges_cs_evChipSelect, hmid.countEdges_cs, htail.countEdges_cs, replay_append,
    hmid.replay_cs, replay_evChipSelect]
  cases b <;> simp

/-- A frame command appends the events of a frame. -/
theorem exec_isFrame {i : Instr} {s : State} (hs : s.resetAfter = none)
    (hi : i = .identify ∨ (∃ row, i = .loadpage row) ∨ ∃ col l, i = .qread col l) :
    ∃ t, exec i s = .next t ∧ IsFrame (newEvents s t) := by
  obtain ⟨lvs, m, r, c, -, hexec, -⟩ := exec_idle i hs
  refine ⟨_, hexec, ?_⟩
  rw [newEvents_eq (es := commandEvents s.cfg i lvs) rfl]
  rcases hi with rfl | ⟨row, rfl⟩ | ⟨col, l, rfl⟩
  · exact isFrame_evIdentify _ lvs
  · exact isFrame_evLoad _ _ row
  · exact isFrame_evQuadRead _ col lvs

/-- Settles O45: a frame command appends the events of a frame, whose edges on CS are known. -/
theorem eachFrameAssertsAndDeassertsOnce : Obligations.EachFrameAssertsAndDeassertsOnce := by
  intro i s hs hi
  obtain ⟨t, hexec, hframe⟩ := exec_isFrame hs hi
  exact ⟨t, hexec, hframe.filter_drivesCs, hframe.countEdges_cs false s.lines, hframe.countEdges_cs true s.lines⟩

/-! ### The device's answers (R632; 10_state.md R121) -/

theorem withoutSamples_append (es fs : List Event) :
    withoutSamples (es ++ fs) = withoutSamples es ++ withoutSamples fs := List.map_append

/-- The lines do not depend on the levels sampled. -/
theorem replay_withoutSamples (ls : Lines) (es : List Event) : replay ls (withoutSamples es) = replay ls es := by
  induction es generalizing ls with
  | nil => rfl
  | cons e es ih => cases e <;> exact ih _

/-- Events for each of a list of samples, when those for one sample are the same but for its levels. -/
theorem withoutSamples_flatMap {f : Levels → List Event} (hf : ∀ a b, withoutSamples (f a) = withoutSamples (f b))
    {lvs lvs' : List Levels} (h : lvs.length = lvs'.length) :
    withoutSamples (lvs.flatMap f) = withoutSamples (lvs'.flatMap f) := by
  induction lvs generalizing lvs' with
  | nil => rw [List.eq_nil_of_length_eq_zero h.symm]
  | cons a lvs ih =>
    obtain ⟨b, lvs', rfl⟩ := List.exists_cons_of_length_eq_add_one h.symm
    rw [List.flatMap_cons, List.flatMap_cons, withoutSamples_append, withoutSamples_append, hf a b,
      ih (Nat.succ.inj h)]

theorem withoutSamples_evReads (T : Nat) (w : LaneWidth) {lvs lvs' : List Levels} (h : lvs.length = lvs'.length) :
    withoutSamples (evReads T w lvs) = withoutSamples (evReads T w lvs') :=
  withoutSamples_flatMap (fun _ _ => by cases w <;> rfl) h

theorem withoutSamples_evDuplexes (T : Nat) (w : LaneWidth) (v : BitVec 4) {lvs lvs' : List Levels}
    (h : lvs.length = lvs'.length) :
    withoutSamples (lvs.flatMap (evDuplex T w v)) = withoutSamples (lvs'.flatMap (evDuplex T w v)) :=
  withoutSamples_flatMap (fun _ _ => by cases w <;> rfl) h

/-- The samples of a command enter its event list as levels only. -/
theorem withoutSamples_commandEvents (cfg : Config) (i : Instr) {lvs lvs' : List Levels}
    (h : lvs.length = lvs'.length) :
    withoutSamples (commandEvents cfg i lvs) = withoutSamples (commandEvents cfg i lvs') := by
  cases i with
  | setcs | pulsewX1 | pulsewX2 | pulsewX4 | dummy | sendcmd | loadpage => rfl
  | pulserX1 | pulserX2 | pulserX4 | readbyte | readdualbyte | readquadbyte | readbytes | readdualbytes
  | readquadbytes => exact withoutSamples_evReads cfg.tBit _ h
  | pulsefdX1 | pulsefdX2 | pulsefdX4 => exact withoutSamples_evDuplexes cfg.tBit _ _ h
  | identify => simp only [commandEvents, evIdentify, withoutSamples_append, withoutSamples_evReads cfg.tBit .x1 h]
  | qread col l => simp only [commandEvents, evQuadRead, withoutSamples_append, withoutSamples_evReads cfg.tBit .x4 h]

theorem bulkCount_count {r : Nat × State} (h : r.2.resetAfter = none) :
    (bulkCount r).count = BitVec.ofNat 16 r.1 := by
  rw [bulkCount, writeCount_idle h]

/-- COUNT after a command: the bytes written, for a command that writes COUNT (10_state.md R112). -/
theorem exec_count {i : Instr} {s t : State} (hs : s.resetAfter = none) (h : exec i s = .next t) :
    t.count = if writesCount i then BitVec.ofNat 16 (commandBytes s.cfg i) else s.count := by
  obtain ⟨-, hcount⟩ := onlyWritersChangeResultAndCount i s t h
  cases i with
  | readbytes l | readdualbytes l | readquadbytes l =>
    cases h
    exact bulkCount_count ((rxBulk_moves _ l s).pending.2 hs)
  | qread col l =>
    obtain ⟨lvs, m, -, hexec, -⟩ := qreadFillsTheBufferFromZero col l s hs
    cases hexec.symm.trans h
    rfl
  | _ => exact hcount

/-- Where bytes below `n` are written and no other, which indices hold values does not depend on the bytes. -/
theorem isSome_read_of_written {m m₀ : Memory} {n j : Nat}
    (h : if j < n then (m.read j).isSome = true else m.read j = m₀.read j) :
    (m.read j).isSome = if j < n then true else (m₀.read j).isSome := by
  split at h
  · next hlt => rw [h, if_pos hlt]
  · next hge => rw [h, if_neg hge]

/-- Settles O59: the two runs have event lists of as many samples, and COUNT and the indices written come from the
command and the configuration. -/
theorem answersDoNotSteerTheCore : Obligations.AnswersDoNotSteerTheCore := by
  intro i s as hs
  obtain ⟨lvs, m, r, c, hlvs, hexec, hbuf⟩ := exec_idle i hs
  obtain ⟨lvs', m', r', c', hlvs', hexec', hbuf'⟩ := exec_idle i (s := { s with answers := as }) hs
  have hevents : withoutSamples (commandEvents s.cfg i lvs) = withoutSamples (commandEvents s.cfg i lvs') :=
    withoutSamples_commandEvents s.cfg i (hlvs.1.trans hlvs'.1.symm)
  refine ⟨_, _, hexec, hexec', ?events, ?lines, ?count, rfl, fun j => ?written⟩
  case events =>
    rw [newEvents_eq (es := commandEvents s.cfg i lvs) rfl, newEvents_eq (es := commandEvents s.cfg i lvs') rfl,
      hevents]
  case lines =>
    show replay s.lines (commandEvents s.cfg i lvs) = replay s.lines (commandEvents s.cfg i lvs')
    rw [← replay_withoutSamples, hevents, replay_withoutSamples]
  case count => exact (exec_count hs hexec).trans (exec_count (by exact hs) hexec').symm
  case written => exact (isSome_read_of_written (hbuf j)).trans (isSome_read_of_written (hbuf' j)).symm

/-! ### The chunks of a full-page read (R640) -/

/-- The columns of a chunk, in order. -/
def chunkColumns (c : Nat × Nat) : List Nat := (List.range c.2).map fun i => c.1 + i

/-- The first `n` chunks are the first `n * C` columns, as far as the page has them. -/
theorem flatMap_chunkColumns (P C n : Nat) :
    ((List.range n).map (chunk P C)).flatMap chunkColumns = List.range (min (n * C) P) := by
  induction n with
  | zero => simp
  | succ n ih =>
    rw [List.range_succ, List.map_append, List.flatMap_append, ih, List.map_singleton, List.flatMap_singleton]
    rcases Nat.le_total (n * C) P with hwithin | hpast
    · have hlen : min ((n + 1) * C) P = n * C + min C (P - n * C) := by rw [Nat.succ_mul]; omega
      rw [Nat.min_eq_left hwithin, hlen, List.range_add]
      rfl
    · have hlen : min ((n + 1) * C) P = P := by rw [Nat.succ_mul]; omega
      rw [Nat.min_eq_right hpast, hlen]
      simp [chunkColumns, chunk, Nat.sub_eq_zero_of_le hpast]

/-- The chunks are those that begin in the page. -/
theorem lt_chunkCount_iff {P C k : Nat} (hC : 1 ≤ C) : k < chunkCount P C ↔ k * C < P := by
  rw [chunkCount, ← Nat.succ_le_iff, Nat.le_div_iff_mul_le hC, Nat.succ_mul]
  omega

/-- Settles O50: a chunk begins in the page, so it has a byte; all of them are the page's columns. -/
theorem pageReadChunksCoverThePage : Obligations.PageReadChunksCoverThePage := by
  intro P C _ hC
  have hcover : P ≤ chunkCount P C * C := Nat.le_of_not_lt fun h =>
    lt_irrefl _ ((lt_chunkCount_iff hC).2 h)
  refine ⟨by simp [chunks, chunkCount], fun k hk => ?_, fun c hc => ?_, ?_⟩
  · simp [chunks, chunkCount, hk, chunk]
  · obtain ⟨k, hk, rfl⟩ := List.mem_map.1 hc
    have hbegins := (lt_chunkCount_iff hC).1 (List.mem_range.1 hk)
    simp only [chunk]
    omega
  · exact (flatMap_chunkColumns P C (chunkCount P C)).trans (by rw [Nat.min_eq_right hcover])

end Sys2Proof.Machine
end

section
/-! PROOFS. 60_exceptions.md: what a step serves (R710, R730, R731, R740, R754); STATUS.ERR is sticky (R714); pulses on
a clock that is not an output give no edge (R741). -/

namespace Sys2Proof.Machine

open Sys2Proof

/-! ### Command words (60_exceptions.md R710, R730) -/

/-- A step on a legal word: the command, and then the completion. -/
theorem step_of_legal {s : State} {w : CmdWord} {i : Instr} {rest : List Request} (hw : decode w = .ok i)
    (hinbox : s.inbox = .command w :: rest) :
    step s = andThen (exec i { s with inbox := rest, resetAfter := none }) (reply .completed) := by
  simp only [step_of_inbox hinbox, serve, accept, hw]

/-- The word the decoder reads from the table's bits is the word `withFetchWord` places (log 3). -/
theorem decode_of_decodeTableWord {nbits w : Nat} {i : Instr} (h : decodeTableWord nbits w = some i) :
    decode (BitVec.ofNat 64 (w % 2 ^ nbits)) = .ok i := by
  rw [decodeTableWord] at h
  simp only [decode, h]

theorem andThen_reply (o : Host.Outcome State Fault Refusal) (r : Reply) :
    andThen o (reply r) = match o with
      | .next t => .next { t with replies := t.replies ++ [r] }
      | .fault f => .fault f
      | .refused f => .refused f := by
  cases o <;> rfl

/-- Settles O8: however the word came to the head of the queue, the step is the command and then the completion. -/
theorem stepRunsTheDecodedCommand : Obligations.StepRunsTheDecodedCommand := by
  constructor
  · intro s w rest i hinbox hw
    rw [step_of_legal hw hinbox]
    exact andThen_reply _ _
  · intro s w i _ hw
    rw [step_of_legal (decode_of_decodeTableWord hw) (withFetchWord_inbox s 64 w)]
    exact andThen_reply _ _

/-- Settles O9: the step raises the exception and replies; the three causes give the three values of STATUS. -/
theorem illegalWordSetsStatusAndBadcmdOnly : Obligations.IllegalWordSetsStatusAndBadcmdOnly := by
  intro s w rest c hinbox hs hw
  rw [step_of_illegal hw hinbox hs]
  cases c <;> rfl

/-! ### Between commands (60_exceptions.md R731, R740, R754) -/

theorem step_of_inbox_nil {s : State} (h : s.inbox = []) : step s = .next s := by
  simp only [step, h]

/-- Settles O10: without a request a step serves nothing. -/
theorem idleCoreHoldsItsState : Obligations.IdleCoreHoldsItsState :=
  fun _ => step_of_inbox_nil

/-- Settles O20: the step replies the value of the register the request names. -/
theorem hostReadsARegister : Obligations.HostReadsARegister := by
  intro s r rest hinbox
  rw [step_of_inbox hinbox]
  cases r <;> rfl

/-- Settles O23: the lines are those of `envLines`, which `envLines_get` reads line by line. -/
theorem environmentStepSetsSharedLinesOnly : Obligations.EnvironmentStepSetsSharedLinesOnly :=
  fun s set _ hinbox =>
    ⟨envLines set s, linesChanged s.lines (envLines set s), step_of_inbox hinbox, envLines_get set s, rfl⟩

/-! ### STATUS.ERR is sticky (60_exceptions.md R714) -/

theorem packStatus_err (err : Bool) (cause : BitVec 3) : (packStatus err cause).getLsbD 0 = err := by
  rw [packStatus, BitVec.getLsbD_append]
  simp

/-- A word leaves STATUS, if it spells a command, and otherwise sets ERR, whether or not a reset cuts it. -/
theorem accept_keeps_err {w : CmdWord} {s t : State} (herr : s.status.getLsbD 0 = true) (h : accept w s = .next t) :
    t.status.getLsbD 0 = true := by
  rcases accept_cases w s with ⟨i, -, haccept⟩ | ⟨c, -, haccept⟩
  · obtain ⟨u, r, n, hmoves, rfl, -⟩ := exec_next_moves (haccept.symm.trans h)
    exact (congrArg (·.getLsbD 0) hmoves.status).trans herr
  · cases haccept.symm.trans h
    exact packStatus_err true (causeCode c)

theorem hostReadBuf_status {i : Nat} {s t : State} (h : hostReadBuf i s = .next t) : t.status = s.status := by
  unfold hostReadBuf at h
  split at h
  · split at h
    · cases h; rfl
    · cases h
  · cases h; rfl

theorem hostWriteBuf_status (i : Nat) (v : Byte) (s : State) : (hostWriteBuf i v s).status = s.status := by
  unfold hostWriteBuf
  split <;> rfl

/-- Settles O25, by cases on the request: a word may only set ERR, and the other requests but for a reset leave
STATUS. -/
theorem errStaysSetUntilReset : Obligations.ErrStaysSetUntilReset := by
  intro s t herr h
  cases hs : s.inbox with
  | nil =>
    cases (step_of_inbox_nil hs).symm.trans h
    exact .inl herr
  | cons r rest =>
    rw [step_of_inbox hs] at h
    cases r with
    | command w =>
      obtain ⟨u, hu⟩ := accept_goes w { s with inbox := rest, resetAfter := none }
      cases (congrArg (andThen · _) hu).symm.trans h
      exact .inl (accept_keeps_err (by exact herr) hu :)
    | commandThenReset w k => exact .inr ⟨rest, .inr ⟨w, k, rfl⟩⟩
    | readReg r => cases h; exact .inl herr
    | readBuf i => rw [hostReadBuf_status h]; exact .inl herr
    | writeBuf i v => cases h; rw [hostWriteBuf_status]; exact .inl herr
    | reset => exact .inr ⟨rest, .inl rfl⟩
    | env set => cases h; exact .inl herr

/-! ### Pulses on a released clock (60_exceptions.md R741) -/

/-- The event leaves the mode of CLK: it is no DIR of CLK and no reset. -/
def sparesClockMode : Event → Prop
  | .dir S _ => Line.clk ∉ S
  | .rst => False
  | _ => True

theorem eventLines_clk_mode {e : Event} (he : sparesClockMode e) (ls : Lines) :
    (eventLines ls e).clk.mode = ls.clk.mode := by
  cases e with
  | dir S m => exact congrArg LineState.mode ((setModes_get S m ls .clk).trans (if_neg he))
  | drv v => exact (congrArg LineState.mode (setLats_get v ls .clk) :)
  | smp | wait | env => rfl
  | rst => exact he.elim

/-- An edge of CLK needs CLK as an output (10_state.md R122). -/
theorem countEdges_clk_released {ls : Lines} {es : List Event} (hes : ∀ e ∈ es, sparesClockMode e)
    (hclk : ls.clk.mode ≠ .out) (b : Bool) : countEdges .clk b ls es = 0 := by
  induction es generalizing ls with
  | nil => rfl
  | cons e es ih =>
    obtain ⟨he, hes⟩ := List.forall_mem_cons.1 hes
    have hnext : (eventLines ls e).clk.mode ≠ .out := by rwa [eventLines_clk_mode he]
    simp [countEdges, isEdge, hclk, ih hes hnext]

theorem clk_notMem_writeSet (w : LaneWidth) : Line.clk ∉ writeSet w := by cases w <;> decide
theorem clk_notMem_readSet (w : LaneWidth) : Line.clk ∉ readSet w := by cases w <;> decide
theorem clk_notMem_activeSet (w : LaneWidth) : Line.clk ∉ activeSet w := by cases w <;> decide

theorem sparesClockMode_evClock (T : Nat) : ∀ e ∈ evClock T, sparesClockMode e := by
  simp [evClock, sparesClockMode]

theorem sparesClockMode_evWrite (T : Nat) (w : LaneWidth) (v : BitVec 4) : ∀ e ∈ evWrite T w v, sparesClockMode e :=
  List.forall_mem_append.2 ⟨by simp [sparesClockMode, clk_notMem_writeSet], sparesClockMode_evClock T⟩

theorem sparesClockMode_evRead (T : Nat) (w : LaneWidth) (lv : Levels) : ∀ e ∈ evRead T w lv, sparesClockMode e :=
  List.forall_mem_append.2 ⟨by simp [sparesClockMode, clk_notMem_readSet], sparesClockMode_evClock T⟩

theorem sparesClockMode_evDuplex (T : Nat) (w : LaneWidth) (v : BitVec 4) (lv : Levels) :
    ∀ e ∈ evDuplex T w v lv, sparesClockMode e := by
  simp [evDuplex, sparesClockMode, clk_notMem_writeSet, clk_notMem_activeSet]

theorem sparesClockMode_evDummy (T n : Nat) : ∀ e ∈ evDummy T n, sparesClockMode e := by
  refine List.forall_mem_cons.2 ⟨by simp [sparesClockMode, Line.data], fun e he => ?_⟩
  obtain ⟨es, hes, hmem⟩ := List.mem_flatten.1 he
  rw [List.eq_of_mem_replicate hes] at hmem
  exact sparesClockMode_evClock T e hmem

theorem sparesClockMode_flatMap {α : Type} {f : α → List Event} (hf : ∀ a, ∀ e ∈ f a, sparesClockMode e)
    (as : List α) : ∀ e ∈ as.flatMap f, sparesClockMode e :=
  List.forall_mem_flatMap.2 fun a _ => hf a

/-- The commands that begin with `chipSelect`: SETCS and the three frames (40_line_driver.md R400, R410;
43_nand_protocol.md R600, R610, R620). -/
def beginsWithChipSelect : Instr → Prop
  | .setcs _ | .identify | .loadpage _ | .qread _ _ => True
  | _ => False

/-- Only `chipSelect` sets the mode of CLK; the pulses do not (41_bitbang_engine.md R453). -/
theorem sparesClockMode_commandEvents {i : Instr} (hi : ¬ beginsWithChipSelect i) (cfg : Config) (lvs : List Levels) :
    ∀ e ∈ commandEvents cfg i lvs, sparesClockMode e := by
  cases i with
  | setcs | identify | loadpage | qread => exact absurd trivial hi
  | pulsewX1 | pulsewX2 | pulsewX4 => exact sparesClockMode_evWrite cfg.tBit _ _
  | pulserX1 | pulserX2 | pulserX4 | readbyte | readdualbyte | readquadbyte | readbytes | readdualbytes
  | readquadbytes => exact sparesClockMode_flatMap (sparesClockMode_evRead cfg.tBit _) lvs
  | pulsefdX1 | pulsefdX2 | pulsefdX4 => exact sparesClockMode_flatMap (sparesClockMode_evDuplex cfg.tBit _ _) lvs
  | dummy n => exact sparesClockMode_evDummy cfg.tBit n.toNat
  | sendcmd b => exact sparesClockMode_flatMap (fun k => sparesClockMode_evWrite cfg.tBit .x1 _) _

/-- Settles O56: no event of such a command makes CLK an output, so none is an edge of it. -/
theorem rawPulsesOnAReleasedClockGiveNoEdge : Obligations.RawPulsesOnAReleasedClockGiveNoEdge := by
  intro i s hs hclk hi
  have hraw : ¬ beginsWithChipSelect i := by
    intro hframe
    cases i with
    | setcs | identify | loadpage | qread => exact hi
    | _ => exact hframe
  obtain ⟨lvs, m, r, c, -, hexec, -⟩ := exec_idle i hs
  refine ⟨_, hexec, fun b => ?_⟩
  rw [newEvents_eq (es := commandEvents s.cfg i lvs) rfl]
  exact countEdges_clk_released (sparesClockMode_commandEvents hraw s.cfg lvs) hclk b

end Sys2Proof.Machine
end

section
/-! PROOFS. 70_reset_and_hazards.md, reset: what a reset sets (R800, R803); a reset inside a command stops it after the
actions done so far, and may fall after any number of its events (R801). -/

namespace Sys2Proof.Machine

open Sys2Proof

/-! ### Reset (70_reset_and_hazards.md R800, R803) -/

/-- Settles O16: the step serves the reset. -/
theorem resetSetsLinesAndRegisters : Obligations.ResetSetsLinesAndRegisters :=
  fun _ _ hinbox => step_of_inbox hinbox

/-- Settles O17: each field of the power-on state is the table's entry, and an empty buffer holds no value. -/
theorem powerOnStateIsTheResetTable : Obligations.PowerOnStateIsTheResetTable :=
  ⟨rfl, rfl, rfl, rfl, rfl, rfl, Memory.read_nil⟩

/-! ### A whole run and its cuts, action by action (R801) -/

/-- A run that a reset is to cut has a reset pending, whether the cut has come or not. -/
theorem CutRun.pending {P : Nat → Nat → Prop} {s t : State} {us : Nat → State} {m q : Nat} (h : CutRun P s t us m q)
    (k : Nat) : ∃ r, (us k).resetAfter = some r := by
  obtain ⟨es, acts, -, -, -, -, hruns⟩ := h.runs
  rcases hruns k with ⟨-, hu⟩ | ⟨-, hu⟩
  · exact ⟨_, by rw [hu]⟩
  · exact ⟨0, hu.cut⟩

/-- Once the pending reset has come, the run cut after `k` actions has performed the first `k` actions of the whole run,
or all of them. -/
theorem CutRun.cutAt {P : Nat → Nat → Prop} {s t : State} {us : Nat → State} {m q : Nat} (h : CutRun P s t us m q) :
    ∃ (es : List Event) (acts : List Bool), t.trace = s.trace ++ es ∧ acts.count true = es.length ∧
      acts.count false = q ∧ ∀ k, CutAt P s t es (acts.take k) { us k with resetAfter := some 0 } := by
  obtain ⟨es, acts, htrace, hsamples, hevents, hwrites, hruns⟩ := h.runs
  refine ⟨es, acts, htrace, hevents, hwrites, fun k => ?_⟩
  rcases hruns k with ⟨hk, hu⟩ | ⟨-, hu⟩
  · rw [hu, List.take_of_length_le hk]
    exact h.frozen htrace hsamples hevents hwrites
  · exact { hu with cut := rfl }

/-- The actions performed before a cut are some events and some buffer writes. -/
theorem count_take_add (acts : List Bool) (k : Nat) :
    (acts.take k).count true + (acts.take k).count false = min k (acts.count true + acts.count false) := by
  rw [List.count_true_add_count_false, List.count_true_add_count_false, List.length_take]

/-- As the cut moves along the actions, the number of events before it takes every value. -/
theorem exists_count_take_eq {acts : List Bool} {j : Nat} (h : j ≤ acts.count true) :
    ∃ k, (acts.take k).count true = j := by
  induction acts generalizing j with
  | nil => exact ⟨0, (Nat.le_zero.1 h).symm⟩
  | cons a acts ih =>
    cases j with
    | zero => exact ⟨0, rfl⟩
    | succ j =>
      cases a with
      | true =>
        obtain ⟨k, hk⟩ := ih (j := j) (by simpa using h)
        exact ⟨k + 1, by simpa using hk⟩
      | false =>
        obtain ⟨k, hk⟩ := ih (j := j + 1) (by simpa using h)
        exact ⟨k + 1, by simpa using hk⟩

/-! ### Every command beside its cuts -/

/-- A command other than a bulk read has written no byte at any point of its run, whatever it has sampled. -/
def NoByteWritten (_samples writes : Nat) : Prop := writes = 0

/-- What the samples and the buffer writes obey at every point of a command's run: a bulk read writes each byte after its
pulses (20_memory.md R202, log 5), and another command writes none. -/
def writesLaw (C : Nat) (i : Instr) : Nat → Nat → Prop :=
  match bulkRead C i with
  | some (w, _) => BytesSampled w
  | none => NoByteWritten

/-- A command writes the bytes of a bulk read of one width, or none. -/
theorem writesLaw_cases (cfg : Config) (i : Instr) :
    (∃ w, bulkRead cfg.bufCap i = some (w, commandBytes cfg i) ∧ writesLaw cfg.bufCap i = BytesSampled w) ∨
      (bulkRead cfg.bufCap i = none ∧ commandBytes cfg i = 0 ∧ writesLaw cfg.bufCap i = NoByteWritten) := by
  cases i with
  | readbytes | readdualbytes | readquadbytes | qread => exact .inl ⟨_, rfl, rfl⟩
  | _ => exact .inr ⟨rfl, rfl, rfl⟩

/-- The whole run of a command `i` from `s` and, for each `k`, its run cut after `k` actions are side by side; only the
whole run writes a host register (R801). -/
def RunsBesideItsCuts (i : Instr) (s : State) : Prop :=
  ∃ t us m r c, CutRun (writesLaw s.cfg.bufCap i) s t us m (commandBytes s.cfg i) ∧
    exec i s = .next { t with result := r, count := c } ∧
    ∀ k, exec i { s with resetAfter := some k } = .next (us k)

theorem writeResult_pending {s : State} {k : Nat} (h : s.resetAfter = some k) (v : Half) : writeResult v s = s := by
  simp [writeResult, h]

theorem writeCount_pending {s : State} {k : Nat} (h : s.resetAfter = some k) (v : Half) : writeCount v s = s := by
  simp [writeCount, h]

section Cuts

variable {i : Instr} {s t : State} {us : Nat → State} {m : Nat} {v : Half} {v' : Nat → Half}

theorem runsBesideItsCuts_silent (hcut : CutRun (writesLaw s.cfg.bufCap i) s t us m (commandBytes s.cfg i))
    (hwhole : exec i s = .next t) (hcuts : ∀ k, exec i { s with resetAfter := some k } = .next (us k)) :
    RunsBesideItsCuts i s :=
  ⟨t, us, m, t.result, t.count, hcut, hwhole, hcuts⟩

theorem runsBesideItsCuts_valued (hcut : CutRun (writesLaw s.cfg.bufCap i) s t us m (commandBytes s.cfg i))
    (hwhole : exec i s = .next (writeResult v t))
    (hcuts : ∀ k, exec i { s with resetAfter := some k } = .next (writeResult (v' k) (us k))) :
    RunsBesideItsCuts i s := by
  refine ⟨t, us, m, v, t.count, hcut, by rw [hwhole, writeResult_idle hcut.idle], fun k => ?_⟩
  obtain ⟨r, hr⟩ := hcut.pending k
  rw [hcuts, writeResult_pending hr]

theorem runsBesideItsCuts_bulk (hcut : CutRun (writesLaw s.cfg.bufCap i) s t us m (commandBytes s.cfg i))
    (hwhole : exec i s = .next (writeCount v t))
    (hcuts : ∀ k, exec i { s with resetAfter := some k } = .next (writeCount (v' k) (us k))) :
    RunsBesideItsCuts i s := by
  refine ⟨t, us, m, t.result, v, hcut, by rw [hwhole, writeCount_idle hcut.idle], fun k => ?_⟩
  obtain ⟨r, hr⟩ := hcut.pending k
  rw [hcuts, writeCount_pending hr]

end Cuts

theorem CutRun.start_noByte {s : State} (hs : s.resetAfter = none) :
    CutRun NoByteWritten s s (fun k => { s with resetAfter := some k }) 0 0 :=
  .start hs rfl

/-- Before the first action of a bulk read no byte is sampled and none is written. -/
theorem CutRun.start_bulk {s : State} (hs : s.resetAfter = none) (w : LaneWidth) :
    CutRun (BytesSampled w) s s (fun k => { s with resetAfter := some k }) 0 0 :=
  .start hs (by simp [BytesSampled])

theorem rxBulk_cut {s : State} (hs : s.resetAfter = none) (w : LaneWidth) (l : BitVec 16) :
    CutRun (BytesSampled w) s (rxBulk w l s).2 (fun k => (rxBulk w l { s with resetAfter := some k }).2)
      (clampLen l s.cfg * pulsesPerByte w) (clampLen l s.cfg) := by
  have hloop := rxInto_cut (q := 0) w (by rw [Nat.zero_mul]; exact CutRun.start_bulk hs w) (clampLen l s.cfg)
  rwa [Nat.zero_add] at hloop

/-- Every command's whole run and its cuts are side by side. -/
theorem exec_besideItsCuts (i : Instr) {s : State} (hs : s.resetAfter = none) : RunsBesideItsCuts i s := by
  cases i with
  | setcs a => exact runsBesideItsCuts_silent (chipSelect_cut (.start_noByte hs) a) rfl fun _ => rfl
  | pulsewX1 v | pulsewX2 v | pulsewX4 v =>
    exact runsBesideItsCuts_silent (pulseWrite_cut (.start_noByte hs) _ _) rfl fun _ => rfl
  | pulserX1 | pulserX2 | pulserX4 =>
    exact runsBesideItsCuts_valued (pulseRead_cut (.start_noByte hs) _ rfl).1 rfl fun _ => rfl
  | pulsefdX1 v | pulsefdX2 v | pulsefdX4 v =>
    exact runsBesideItsCuts_valued (pulseFullDuplex_cut (.start_noByte hs) _ _ rfl) rfl fun _ => rfl
  | dummy n => exact runsBesideItsCuts_silent (dummy_cut (.start_noByte hs) n.toNat) rfl fun _ => rfl
  | sendcmd b => exact runsBesideItsCuts_silent (sendByte_cut (.start_noByte hs) b) rfl fun _ => rfl
  | readbyte => exact runsBesideItsCuts_valued (rxByte_cut (.start_noByte hs) .x1 fun _ _ => rfl).1 rfl fun _ => rfl
  | readdualbyte => exact runsBesideItsCuts_valued (rxByte_cut (.start_noByte hs) .x2 fun _ _ => rfl).1 rfl fun _ => rfl
  | readquadbyte => exact runsBesideItsCuts_valued (rxByte_cut (.start_noByte hs) .x4 fun _ _ => rfl).1 rfl fun _ => rfl
  | readbytes l | readdualbytes l | readquadbytes l =>
    exact runsBesideItsCuts_bulk (rxBulk_cut hs _ l) rfl fun _ => rfl
  | identify => exact runsBesideItsCuts_valued (identifyFrame_cut (.start_noByte hs) fun _ _ => rfl) rfl fun _ => rfl
  | loadpage row => exact runsBesideItsCuts_silent (loadFrame_cut (.start_noByte hs) row) rfl fun _ => rfl
  | qread col l => exact runsBesideItsCuts_bulk (quadReadFrame_cut (.start_bulk hs .x4) col l) rfl fun _ => rfl

/-! ### The step on a command with a reset in it (R801) -/

/-- The step runs the command to its cut, and then the reset takes place. -/
theorem step_of_legal_cut {s u : State} {w : CmdWord} {k : Nat} {i : Instr} {rest : List Request}
    (hw : decode w = .ok i) (hinbox : s.inbox = .commandThenReset w k :: rest)
    (hexec : exec i { s with inbox := rest, resetAfter := some k } = .next u) : step s = .next (applyReset u) := by
  simp only [step_of_inbox hinbox, serve, accept, hw, hexec, andThen]

theorem step_of_illegal_cut {s : State} {w : CmdWord} {k : Nat} {c : Cause} {rest : List Request}
    (hw : decode w = .error c) (hinbox : s.inbox = .commandThenReset w k :: rest) :
    step s = .next (applyReset { s with inbox := rest }) := by
  simp only [step_of_inbox hinbox, serve, accept, hw, andThen]
  rfl

/-- Settles O18: the run the reset cuts has performed the first `k` actions of the whole run, of which `j` are events
and `n` are buffer writes; the exception of an illegal word is undone by the reset. -/
theorem resetCutsACommandAfterAPrefix : Obligations.ResetCutsACommandAfterAPrefix := by
  refine ⟨fun s w k rest i hinbox hw => ?_, fun s w k rest c hinbox hw => step_of_illegal_cut hw hinbox⟩
  obtain ⟨t, us, m, r, c, hcut, hwhole, hcuts⟩ :=
    exec_besideItsCuts i (s := { s with inbox := rest, resetAfter := none }) rfl
  obtain ⟨es, acts, htrace, hevents, hwrites, hprefix⟩ := hcut.cutAt
  have hk := hprefix k
  have hnew : newEvents s { t with result := r, count := c } = es := newEvents_eq htrace
  have hn : (acts.take k).count false ≤ commandBytes s.cfg i := hwrites ▸ count_take_le acts false k
  have hactions := count_take_add acts k
  rw [hevents, hwrites] at hactions
  refine ⟨_, _, (acts.take k).count true, (acts.take k).count false, hwhole, step_of_legal_cut hw hinbox (hcuts k), ?_⟩
  simp only [hnew]
  refine ⟨hevents ▸ count_take_le acts true k, congrArg (· ++ [Event.rst]) hk.trace, ?bytes, hk.buf, rfl, rfl, rfl, rfl,
    rfl, hk.answers, hk.cfg, hk.inbox, hk.replies, rfl⟩
  case bytes =>
    have hgood := hk.good
    rcases writesLaw_cases s.cfg i with ⟨W, hbulk, hlaw⟩ | ⟨hbulk, hnone, hlaw⟩
    · rw [hlaw] at hgood
      obtain ⟨hsampled, hnext⟩ := hgood
      rw [hbulk]
      exact ⟨hn, hsampled, hnext, hactions⟩
    · rw [hlaw] at hgood
      rw [hnone, hgood] at hactions
      rw [hbulk]
      exact ⟨hgood, hactions⟩

/-- Settles O19: the reset falls right after the `j`-th event. -/
theorem resetMayCutAfterAnyPrefix : Obligations.ResetMayCutAfterAnyPrefix := by
  intro s w rest i t' j hw hexec hj
  obtain ⟨t, us, m, r, c, hcut, hwhole, hcuts⟩ :=
    exec_besideItsCuts i (s := { s with inbox := rest, resetAfter := none }) rfl
  obtain ⟨es, acts, htrace, hevents, -, hprefix⟩ := hcut.cutAt
  cases hwhole.symm.trans hexec
  have hnew : newEvents s { t with result := r, count := c } = es := newEvents_eq htrace
  rw [hnew, ← hevents] at hj
  obtain ⟨k, rfl⟩ := exists_count_take_eq hj
  refine ⟨k, _, step_of_legal_cut hw rfl (hcuts k), ?_⟩
  rw [hnew]
  exact congrArg (· ++ [Event.rst]) (hprefix k).trace

end Sys2Proof.Machine
end

section
/-! PROOFS. 70_reset_and_hazards.md, hazards and timing: the clock pulses and the held times of every command (R831,
R832); data changes while the clock is low (R820, R821); samples precede the rising edge (R822). -/

namespace Sys2Proof.Machine

open Sys2Proof

/-! ### Pulse counts (70_reset_and_hazards.md R831) -/

theorem Pulses.of_count {ls : Lines} {es : List Event} {m n : Nat} (h : Pulses ls es m) (hmn : m = n) :
    Pulses ls es n := hmn ▸ h

theorem pulses_wait {ls : Lines} (h : ClockIdle ls) (t : Nat) : Pulses ls [.wait t] 0 :=
  ⟨by simp [risingEdges, countEdges, isEdge], h⟩

theorem pulses_evDuplexes {ls : Lines} (h : ClockIdle ls) (T : Nat) (w : LaneWidth) (v : BitVec 4)
    (lvs : List Levels) : Pulses ls (lvs.flatMap (evDuplex T w v)) lvs.length := by
  induction lvs generalizing ls with
  | nil => exact pulses_nil h
  | cons lv lvs ih =>
    rw [List.flatMap_cons, List.length_cons, Nat.add_comm]
    exact (pulses_evDuplex h T w v lv).append (ih (pulses_evDuplex h T w v lv).2)

theorem pulses_evSends {ls : Lines} (h : ClockIdle ls) (T : Nat) (bs : List Byte) :
    Pulses ls (bs.flatMap (evSend T)) (8 * bs.length) := by
  induction bs generalizing ls with
  | nil => exact pulses_nil h
  | cons b bs ih =>
    rw [List.flatMap_cons, List.length_cons, Nat.mul_succ, Nat.add_comm]
    exact (pulses_evSend h T b).append (ih (pulses_evSend h T b).2)

/-- A frame has the pulses of its bytes and of what follows them; chip-select idles the clock from any lines. -/
theorem pulses_frame (ls : Lines) (T : Nat) (bs : List Byte) {es : List Event} {n : Nat}
    (hes : ∀ ls, ClockIdle ls → Pulses ls es n) :
    Pulses ls (evChipSelect true ++ (bs.flatMap (evSend T) ++ es)) (8 * bs.length + n) := by
  have hcs := pulses_evChipSelect ls true
  have hbytes := pulses_evSends hcs.2 T bs
  have hframe := hcs.append (hbytes.append (hes _ hbytes.2))
  rwa [Nat.zero_add] at hframe

/-- The end of a frame that reads: the dummy pulses, the reads and chip-select. -/
theorem pulses_readPhase {ls : Lines} (h : ClockIdle ls) (T : Nat) (w : LaneWidth) (lvs : List Levels) :
    Pulses ls (evDummy T 8 ++ evReads T w lvs ++ evChipSelect false) (8 + lvs.length) :=
  have hdummy := pulses_evDummy h T 8
  (hdummy.append (pulses_evReads hdummy.2 T w lvs)).append (pulses_evChipSelect _ false)

theorem evIdentify_eq (T : Nat) (lvs : List Levels) : evIdentify T lvs = evChipSelect true ++
    ([opReadId].flatMap (evSend T) ++ (evDummy T 8 ++ evReads T .x1 lvs ++ evChipSelect false)) := by
  simp [evIdentify, opReadId]

/-- From an idle clock, the event list of a command has the pulses of the table. -/
theorem pulses_commandEvents {ls : Lines} (h : ClockIdle ls) (cfg : Config) (i : Instr) {lvs : List Levels}
    (hlvs : lvs.length = commandSamples cfg i) :
    Pulses ls (commandEvents cfg i lvs) (pulseCount cfg.bufCap i) := by
  cases i with
  | setcs a => exact pulses_evChipSelect ls a
  | pulsewX1 | pulsewX2 | pulsewX4 => exact pulses_evWrite h _ _ _
  | pulserX1 | pulserX2 | pulserX4 | readbyte | readdualbyte | readquadbyte =>
    exact (pulses_evReads h cfg.tBit _ lvs).of_count hlvs
  | pulsefdX1 | pulsefdX2 | pulsefdX4 => exact (pulses_evDuplexes h cfg.tBit _ _ lvs).of_count hlvs
  | dummy n => exact pulses_evDummy h cfg.tBit n.toNat
  | sendcmd b => exact pulses_evSend h cfg.tBit b
  | readbytes | readdualbytes | readquadbytes =>
    exact (pulses_evReads h cfg.tBit _ lvs).of_count (hlvs.trans (Nat.mul_comm _ _))
  | identify =>
    rw [commandEvents, evIdentify_eq]
    exact (pulses_frame ls cfg.tBit _ fun _ h => pulses_readPhase h cfg.tBit .x1 lvs).of_count (by rw [hlvs]; rfl)
  | loadpage row =>
    rw [commandEvents, evLoad_eq]
    exact pulses_frame ls cfg.tBit _ fun ls _ =>
      have hcs := pulses_evChipSelect ls false
      hcs.append (pulses_wait hcs.2 cfg.tLoad)
  | qread col l =>
    rw [commandEvents, evQuadRead_eq]
    refine (pulses_frame ls cfg.tBit _ fun _ h => pulses_readPhase h cfg.tBit .x4 lvs).of_count ?_
    simp only [hlvs, commandSamples, clampLen, pulseCount, List.length_cons, List.length_nil]
    omega

/-- Settles O51: the new events of a command are its event list, whose pulses are those of the table. -/
theorem everyCommandHasItsPulseCount : Obligations.EveryCommandHasItsPulseCount := by
  constructor
  · intro s t w rest c hinbox hw hstep
    rw [step_of_inbox hinbox] at hstep
    simp only [serve, accept, hw, andThen] at hstep
    cases hstep
    exact newEvents_eq (List.append_nil s.trace).symm
  · intro i s hs hclk
    obtain ⟨lvs, m, r, c, hlvs, hexec, -⟩ := exec_idle i hs
    refine ⟨_, hexec, ?_⟩
    rw [newEvents_eq (es := commandEvents s.cfg i lvs) rfl]
    refine ⟨(pulses_commandEvents hclk s.cfg i hlvs.1).1, ?_⟩
    cases i with
    | loadpage row => exact List.getLast?_concat
    | _ => trivial

/-! ### Held times (R832) -/

theorem waits_evDuplexes (T : Nat) (w : LaneWidth) (v : BitVec 4) (lvs : List Levels) :
    waits (lvs.flatMap (evDuplex T w v)) = List.replicate (2 * lvs.length) T := by
  induction lvs with
  | nil => rfl
  | cons lv lvs ih => rw [List.flatMap_cons, waits_append, ih]; cases w <;> rfl

/-- The wait of T_LOAD, of LOADPAGE alone. -/
def loadWait (cfg : Config) : Instr → List Nat
  | .loadpage _ => [cfg.tLoad]
  | _ => []

/-- The event list of a command holds two waits of T_BIT a pulse, and then LOADPAGE's wait. -/
theorem waits_commandEvents (cfg : Config) (i : Instr) {lvs : List Levels} (hlvs : lvs.length = commandSamples cfg i) :
    waits (commandEvents cfg i lvs) =
      List.replicate (2 * pulseCount cfg.bufCap i) cfg.tBit ++ loadWait cfg i := by
  cases i with
  | setcs a => rfl
  | pulsewX1 | pulsewX2 | pulsewX4 => rfl
  | pulserX1 | pulserX2 | pulserX4 | readbyte | readdualbyte | readquadbyte =>
    simp only [commandEvents, waits_evReads, hlvs]; rfl
  | pulsefdX1 | pulsefdX2 | pulsefdX4 => simp only [commandEvents, waits_evDuplexes, hlvs]; rfl
  | dummy n => simp only [commandEvents, waits_evDummy, loadWait, pulseCount, List.append_nil]
  | sendcmd b => rfl
  | readbytes l | readdualbytes l | readquadbytes l =>
    simp only [commandEvents, waits_evReads, hlvs, loadWait, pulseCount, List.append_nil, commandSamples, clampLen,
      Nat.mul_comm]
  | identify =>
    simp only [commandEvents, evIdentify, waits_append, waits_evChipSelect, waits_evSend, waits_evDummy, waits_evReads,
      hlvs]
    rfl
  | loadpage row => rfl
  | qread col l =>
    simp only [commandEvents, evQuadRead, waits_append, waits_evChipSelect, waits_evSend, waits_evDummy, waits_evReads,
      hlvs, loadWait, pulseCount, commandSamples, clampLen, List.append_nil, List.nil_append,
      List.replicate_append_replicate]
    congr 1; omega

/-- Settles O52: the new events of a command are its event list, whose waits are known. -/
theorem everyCommandHoldsTwoWaitsAPulse : Obligations.EveryCommandHoldsTwoWaitsAPulse := by
  intro i s hs
  obtain ⟨lvs, m, r, c, hlvs, hexec, -⟩ := exec_idle i hs
  refine ⟨_, hexec, ?_⟩
  rw [newEvents_eq (es := commandEvents s.cfg i lvs) rfl, waits_commandEvents s.cfg i hlvs.1]
  cases i <;> rfl

/-! ### A condition at each event of a command (R820 to R822) -/

/-- `P` holds at each event: of the lines before it, the event, and the events after it. -/
def AtEach (P : Lines → Event → List Event → Prop) : Lines → List Event → Prop
  | _, [] => True
  | ls, e :: es => P ls e es ∧ AtEach P (eventLines ls e) es

theorem AtEach.at_event {P : Lines → Event → List Event → Prop} {ls : Lines} {before rest : List Event} {e : Event}
    (h : AtEach P ls (before ++ e :: rest)) : P (replay ls before) e rest := by
  induction before generalizing ls with
  | nil => exact h.1
  | cons b before ih => exact ih h.2

/-- The condition goes on to hold when more events follow. -/
def StandsWhenMoreFollow (P : Lines → Event → List Event → Prop) : Prop :=
  ∀ ls e es fs, P ls e es → P ls e (es ++ fs)

theorem AtEach.append {P : Lines → Event → List Event → Prop} (hP : StandsWhenMoreFollow P) {ls : Lines}
    {es fs : List Event} (h : AtEach P ls es) (k : AtEach P (replay ls es) fs) : AtEach P ls (es ++ fs) := by
  induction es generalizing ls with
  | nil => exact k
  | cons e es ih => exact ⟨hP _ _ _ _ h.1, ih h.2 k⟩

/-- From lines of which `I` holds, `P` holds at each event, and `I` holds of the lines the events leave. -/
def Upholds (I : Lines → Prop) (P : Lines → Event → List Event → Prop) (es : List Event) : Prop :=
  ∀ ls, I ls → AtEach P ls es ∧ I (replay ls es)

/-- The parts of which the event lists of the commands are made uphold `P`, but for full-duplex pulses. -/
structure PartsUphold (I : Lines → Prop) (P : Lines → Event → List Event → Prop) : Prop where
  stands : StandsWhenMoreFollow P
  chipSelect : ∀ a, Upholds I P (evChipSelect a)
  clock : ∀ T, Upholds I P (evClock T)
  write : ∀ T w v, Upholds I P (evWrite T w v)
  read : ∀ T w lv, Upholds I P (evRead T w lv)
  release : Upholds I P [.dir Line.data .inPu]
  wait : ∀ t, Upholds I P [.wait t]

section Upholds

variable {I : Lines → Prop} {P : Lines → Event → List Event → Prop}

theorem upholds_nil : Upholds I P [] := fun _ h => ⟨trivial, h⟩

theorem Upholds.append (hP : StandsWhenMoreFollow P) {es fs : List Event} (h : Upholds I P es) (k : Upholds I P fs) :
    Upholds I P (es ++ fs) := by
  intro ls hI
  obtain ⟨hes, hmid⟩ := h ls hI
  obtain ⟨hfs, hend⟩ := k _ hmid
  exact ⟨hes.append hP hfs, by rwa [replay_append]⟩

theorem upholds_flatMap (hP : StandsWhenMoreFollow P) {α : Type} {f : α → List Event} (hf : ∀ a, Upholds I P (f a))
    (as : List α) : Upholds I P (as.flatMap f) := by
  induction as with
  | nil => exact upholds_nil
  | cons a as ih => exact (hf a).append hP ih

theorem PartsUphold.send (h : PartsUphold I P) (T : Nat) (b : Byte) : Upholds I P (evSend T b) :=
  upholds_flatMap h.stands (fun _ => h.write T .x1 _) _

theorem PartsUphold.dummy (h : PartsUphold I P) (T n : Nat) : Upholds I P (evDummy T n) := by
  have hclocks : Upholds I P (List.replicate n (evClock T)).flatten := by
    induction n with
    | zero => exact upholds_nil
    | succ n ih => exact (h.clock T).append h.stands ih
  exact h.release.append h.stands hclocks

theorem PartsUphold.reads (h : PartsUphold I P) (T : Nat) (w : LaneWidth) (lvs : List Levels) :
    Upholds I P (evReads T w lvs) :=
  upholds_flatMap h.stands (h.read T w) lvs

/-- The end of a frame that reads. -/
theorem PartsUphold.readPhase (h : PartsUphold I P) (T : Nat) (w : LaneWidth) (lvs : List Levels) :
    Upholds I P (evDummy T 8 ++ evReads T w lvs ++ evChipSelect false) :=
  ((h.dummy T 8).append h.stands (h.reads T w lvs)).append h.stands (h.chipSelect false)

theorem PartsUphold.frame (h : PartsUphold I P) (T : Nat) (bs : List Byte) {es : List Event} (hes : Upholds I P es) :
    Upholds I P (evChipSelect true ++ (bs.flatMap (evSend T) ++ es)) :=
  (h.chipSelect true).append h.stands ((upholds_flatMap h.stands (h.send T) bs).append h.stands hes)

end Upholds

/-- The command is a full-duplex pulse (41_bitbang_engine.md R481). -/
def isFullDuplex : Instr → Bool
  | .pulsefdX1 _ | .pulsefdX2 _ | .pulsefdX4 _ => true
  | _ => false

/-- A condition that the parts uphold, and full-duplex pulses where there are any, is upheld by the whole command. -/
theorem PartsUphold.commandEvents {I : Lines → Prop} {P : Lines → Event → List Event → Prop} (h : PartsUphold I P)
    (cfg : Config) (i : Instr) (lvs : List Levels)
    (hduplex : isFullDuplex i = true → ∀ w v lv, Upholds I P (evDuplex cfg.tBit w v lv)) :
    Upholds I P (commandEvents cfg i lvs) := by
  cases i with
  | setcs a => exact h.chipSelect a
  | pulsewX1 | pulsewX2 | pulsewX4 => exact h.write cfg.tBit _ _
  | pulsefdX1 | pulsefdX2 | pulsefdX4 => exact upholds_flatMap h.stands (hduplex rfl _ _) lvs
  | dummy n => exact h.dummy cfg.tBit n.toNat
  | sendcmd b => exact h.send cfg.tBit b
  | pulserX1 | pulserX2 | pulserX4 | readbyte | readdualbyte | readquadbyte | readbytes | readdualbytes
  | readquadbytes => exact h.reads cfg.tBit _ lvs
  | identify =>
    rw [Machine.commandEvents, evIdentify_eq]
    exact h.frame cfg.tBit _ (h.readPhase cfg.tBit .x1 lvs)
  | loadpage row =>
    rw [Machine.commandEvents, evLoad_eq]
    exact h.frame cfg.tBit _ ((h.chipSelect false).append h.stands (h.wait cfg.tLoad))
  | qread col l =>
    rw [Machine.commandEvents, evQuadRead_eq]
    exact h.frame cfg.tBit _ (h.readPhase cfg.tBit .x4 lvs)

theorem AtEach.of_forall {P : Lines → Event → List Event → Prop} {es : List Event}
    (h : ∀ e ∈ es, ∀ ls rest, P ls e rest) (ls : Lines) : AtEach P ls es := by
  induction es generalizing ls with
  | nil => trivial
  | cons e es ih =>
    obtain ⟨he, hes⟩ := List.forall_mem_cons.1 h
    exact ⟨he ls es, ih hes _⟩

/-- A command that no reset cuts appends its event list. -/
theorem exec_newEvents {i : Instr} {s t : State} (hs : s.resetAfter = none) (hexec : exec i s = .next t) :
    ∃ lvs, lvs.length = commandSamples s.cfg i ∧ newEvents s t = commandEvents s.cfg i lvs := by
  obtain ⟨lvs, m, r, c, hlvs, hrun, -⟩ := exec_idle i hs
  cases hrun.symm.trans hexec
  exact ⟨lvs, hlvs.1, newEvents_eq rfl⟩

/-! ### Data changes while the clock is low (R820, R821) -/

/-- The clock's latch is low, whatever its mode. -/
def ClockLow (ls : Lines) : Prop := ls.clk.lat = false

/-- If the event drives a data line, the clock's latch is low and the lines driven are outputs. -/
def DrivesDataAtClockLow (ls : Lines) (e : Event) (_ : List Event) : Prop :=
  ∀ v, e = .drv v → drivesData e = true → ls.clk.lat = false ∧ ∀ l b, (l, b) ∈ v → (ls.get l).mode = .out

theorem drivesDataAtClockLow_of_quiet {e : Event} (he : drivesData e = false) (ls : Lines) (es : List Event) :
    DrivesDataAtClockLow ls e es :=
  fun _ _ hdrives => absurd (he.symm.trans hdrives) (by decide)

/-- No event of the list drives a data line, so the condition holds at each. -/
theorem atEach_of_drivesNoData {es : List Event} (h : ∀ e ∈ es, drivesData e = false) (ls : Lines) :
    AtEach DrivesDataAtClockLow ls es :=
  .of_forall (fun e he => drivesDataAtClockLow_of_quiet (h e he)) ls

theorem mem_writeSet_of_mem_laneMap {w : LaneWidth} {v : BitVec 4} {l : Line} {b : Bool} (h : (l, b) ∈ laneMap w v) :
    l ∈ writeSet w := by
  cases w <;> simp only [laneMap, writeSet, List.mem_cons, Prod.mk.injEq] at h ⊢ <;> tauto

/-- The start of a pulse that writes: the lines become outputs, and the drive finds them so. -/
theorem drivesDataAtClockLow_laneMap {ls : Lines} (h : ClockLow ls) (w : LaneWidth) (v : BitVec 4) (es : List Event) :
    DrivesDataAtClockLow (ls.setModes (writeSet w) .out) (.drv (laneMap w v)) es := by
  rintro _ ⟨⟩ -
  constructor
  · cases w <;> exact h
  · intro l b hmem
    rw [setModes_get, if_pos (mem_writeSet_of_mem_laneMap hmem)]

theorem drivesNoData_evClock (T : Nat) : ∀ e ∈ evClock T, drivesData e = false := by
  simp [evClock, drivesData, Line.data]

theorem partsUphold_drivesDataAtClockLow : PartsUphold ClockLow DrivesDataAtClockLow where
  stands _ _ _ _ h := h
  chipSelect a ls _ := ⟨atEach_of_drivesNoData (by simp [evChipSelect, drivesData, Line.data]) ls, rfl⟩
  clock T ls _ := ⟨atEach_of_drivesNoData (drivesNoData_evClock T) ls, rfl⟩
  write T w v ls h := ⟨⟨drivesDataAtClockLow_of_quiet rfl _ _, drivesDataAtClockLow_laneMap h w v _,
    atEach_of_drivesNoData (drivesNoData_evClock T) _⟩, by cases w <;> rfl⟩
  read T w lv ls _ := ⟨⟨drivesDataAtClockLow_of_quiet rfl _ _, drivesDataAtClockLow_of_quiet rfl _ _,
    atEach_of_drivesNoData (drivesNoData_evClock T) _⟩, by cases w <;> rfl⟩
  release ls h := ⟨⟨drivesDataAtClockLow_of_quiet rfl _ _, trivial⟩, h⟩
  wait t ls h := ⟨⟨drivesDataAtClockLow_of_quiet rfl _ _, trivial⟩, h⟩

/-- A full-duplex pulse drives its lines once, before the rising edge (41_bitbang_engine.md R480). -/
theorem upholds_evDuplex_drivesDataAtClockLow (T : Nat) (w : LaneWidth) (v : BitVec 4) (lv : Levels) :
    Upholds ClockLow DrivesDataAtClockLow (evDuplex T w v lv) := by
  intro ls h
  refine ⟨⟨drivesDataAtClockLow_of_quiet rfl _ _, drivesDataAtClockLow_laneMap h w v _, ?_⟩, by cases w <;> rfl⟩
  exact atEach_of_drivesNoData (by simp [drivesData, Line.data]) _

/-- Settles O53: every part of a command that drives data does so at a low clock, and leaves the clock low. -/
theorem dataChangesOnlyWhileTheClockIsLow : Obligations.DataChangesOnlyWhileTheClockIsLow := by
  intro i s t hs hclk hexec before rest v hsplit hdrives
  obtain ⟨lvs, -, hevents⟩ := exec_newEvents hs hexec
  obtain ⟨hat, -⟩ := partsUphold_drivesDataAtClockLow.commandEvents s.cfg i lvs
    (fun _ => upholds_evDuplex_drivesDataAtClockLow s.cfg.tBit) s.lines hclk
  rw [← hevents, hsplit] at hat
  exact hat.at_event v rfl hdrives

/-! ### Samples precede the rising edge (R822) -/

/-- If the event is a sample, the lines sampled are inputs and the events after it are as `Q` says. -/
def SamplesInputsThen (Q : List Event → Prop) (ls : Lines) (e : Event) (es : List Event) : Prop :=
  ∀ v, e = .smp v → (∀ l b, (l, b) ∈ v → (ls.get l).mode = .inp) ∧ Q es

/-- The next event raises the clock. -/
def ClockRisesNext (es : List Event) : Prop := es.head? = some (.drv [(.clk, true)])

theorem samplesInputsThen_of_not_isSample {e : Event} (he : isSample e = false) (Q : List Event → Prop) (ls : Lines)
    (es : List Event) : SamplesInputsThen Q ls e es := by
  rintro v rfl
  cases he

/-- No event of the list is a sample, so the condition holds at each. -/
theorem atEach_of_noSample {es : List Event} (h : ∀ e ∈ es, isSample e = false) (Q : List Event → Prop) (ls : Lines) :
    AtEach (SamplesInputsThen Q) ls es :=
  .of_forall (fun e he => samplesInputsThen_of_not_isSample (h e he) Q) ls

theorem mem_of_mem_restrict {S : List Line} {lv : Levels} {l : Line} {b : Bool} (h : (l, b) ∈ lv.restrict S) :
    l ∈ S := by
  obtain ⟨k, hk, hkl⟩ := List.mem_map.1 h
  cases hkl
  exact hk

theorem noSample_evClock (T : Nat) : ∀ e ∈ evClock T, isSample e = false := by simp [evClock, isSample]

/-- The sample of a read pulse: the lines have become inputs, and the clock rises next (41_bitbang_engine.md R470). -/
theorem samplesInputsThen_read (T : Nat) (w : LaneWidth) (lv : Levels) (ls : Lines) :
    SamplesInputsThen ClockRisesNext (ls.setModes (readSet w) .inp) (.smp (lv.restrict (readSet w))) (evClock T) := by
  rintro _ ⟨⟩
  refine ⟨fun l b hmem => ?_, rfl⟩
  rw [setModes_get, if_pos (mem_of_mem_restrict hmem)]

theorem partsUphold_samples : PartsUphold (fun _ => True) (SamplesInputsThen ClockRisesNext) where
  stands ls e es fs h v he := by
    obtain ⟨hinputs, hrises⟩ := h v he
    have hne : es ≠ [] := by rintro rfl; cases hrises
    exact ⟨hinputs, (List.head?_append_of_ne_nil es hne).trans hrises⟩
  chipSelect a ls _ := ⟨atEach_of_noSample (by simp [evChipSelect, isSample]) _ ls, trivial⟩
  clock T ls _ := ⟨atEach_of_noSample (noSample_evClock T) _ ls, trivial⟩
  write T w v ls _ := ⟨⟨samplesInputsThen_of_not_isSample rfl _ _ _, samplesInputsThen_of_not_isSample rfl _ _ _,
    atEach_of_noSample (noSample_evClock T) _ _⟩, trivial⟩
  read T w lv ls _ := ⟨⟨samplesInputsThen_of_not_isSample rfl _ _ _, samplesInputsThen_read T w lv ls,
    atEach_of_noSample (noSample_evClock T) _ _⟩, trivial⟩
  release ls _ := ⟨⟨samplesInputsThen_of_not_isSample rfl _ _ _, trivial⟩, trivial⟩
  wait t ls _ := ⟨⟨samplesInputsThen_of_not_isSample rfl _ _ _, trivial⟩, trivial⟩

theorem mem_activeSet_of_mem_readSet {w : LaneWidth} {l : Line} (h : l ∈ readSet w) : l ∈ activeSet w := by
  cases w with
  | x1 => exact List.mem_cons_of_mem _ h
  | x2 | x4 => exact h

/-- The one sample of a full-duplex pulse comes after the release of the lines and the falling edge, and only the last
wait follows it (R480). -/
theorem atEach_evDuplex_samples (T : Nat) (w : LaneWidth) (v : BitVec 4) (lv : Levels) (ls : Lines) :
    AtEach (SamplesInputsThen (· = [.wait T])) ls (evDuplex T w v lv) := by
  have quiet {e : Event} (he : isSample e = false) (ls : Lines) (es : List Event) :
      SamplesInputsThen (· = [.wait T]) ls e es := samplesInputsThen_of_not_isSample he _ ls es
  refine ⟨quiet rfl _ _, quiet rfl _ _, quiet rfl _ _, quiet rfl _ _, quiet rfl _ _, quiet rfl _ _, ?_, quiet rfl _ _,
    trivial⟩
  rintro _ ⟨⟩
  refine ⟨fun l b hmem => ?_, rfl⟩
  have hactive : l ∈ activeSet w := mem_activeSet_of_mem_readSet (mem_of_mem_restrict hmem)
  rw [eventLines_drv, setLats_get, eventLines_dir, setModes_get, if_pos hactive]

theorem atEach_evDuplexes_samples (T : Nat) (w : LaneWidth) (v : BitVec 4) {lvs : List Levels} (hlvs : lvs.length = 1)
    (ls : Lines) : AtEach (SamplesInputsThen (· = [.wait T])) ls (lvs.flatMap (evDuplex T w v)) := by
  obtain ⟨lv, rfl⟩ := List.length_eq_one_iff.1 hlvs
  rw [List.flatMap_singleton]
  exact atEach_evDuplex_samples T w v lv ls

/-- What follows a sample of a command: the rising edge of its pulse, or the last wait of a full-duplex pulse. -/
def AfterSample (cfg : Config) : Instr → List Event → Prop
  | .pulsefdX1 _ | .pulsefdX2 _ | .pulsefdX4 _ => fun es => es = [.wait cfg.tBit]
  | _ => ClockRisesNext

theorem samples_commandEvents (cfg : Config) (i : Instr) {lvs : List Levels} (hlvs : lvs.length = commandSamples cfg i)
    (ls : Lines) : AtEach (SamplesInputsThen (AfterSample cfg i)) ls (commandEvents cfg i lvs) := by
  cases i with
  | pulsefdX1 | pulsefdX2 | pulsefdX4 => exact atEach_evDuplexes_samples cfg.tBit _ _ hlvs ls
  | _ => exact (partsUphold_samples.commandEvents cfg _ lvs (by rintro ⟨⟩) ls trivial).1

/-- Settles O54: the condition holds at each event of a command's event list. -/
theorem samplesPrecedeTheRisingEdge : Obligations.SamplesPrecedeTheRisingEdge := by
  intro i s t hs hexec before rest v hsplit
  obtain ⟨lvs, hlvs, hevents⟩ := exec_newEvents hs hexec
  have hat := samples_commandEvents s.cfg i hlvs s.lines
  rw [← hevents, hsplit] at hat
  obtain ⟨hinputs, hnext⟩ := hat.at_event v rfl
  refine ⟨hinputs, ?_⟩
  cases i <;> exact hnext

end Sys2Proof.Machine
end
